-- ==== Sys2Proof/Word.lean ====
section
/-! DEFINITION. The word types of the Iamb fixed-point unit (FXU): every host transfer and every
register is one 64-bit word, every command is one 32-bit word (spec 20_memory.md R61, 30_encoding.md R80). A raw storage value is a
plain `Nat`, the unsigned pattern it is always written as (00_scope.md R8): the pseudocode computes on exact
integers (R9), and a raw value becomes bits only where a register is read or written. -/

namespace Sys2Proof

/-- A 64-bit register or host transfer word (10_state.md R45, 20_memory.md R63). -/
abbrev Word := BitVec 64

/-- A 32-bit command word (30_encoding.md R80). -/
abbrev CmdWord := BitVec 32

/-- A host register index (10_state.md R51). -/
abbrev HostIndex := BitVec 4

end Sys2Proof
end

