-- ==== Sys2Proof/Config.lean ====
section
/-! DEFINITION. The elaboration parameters of an FXU instance (00_scope.md R5, R6) and the reference
instance that `State.reset` is elaborated with. -/

namespace Sys2Proof

/-- Signedness `S` of a format (00_scope.md R5). -/
inductive Signedness where
  | unsigned
  | signed
deriving DecidableEq, Repr

/-- Overflow policy `P` (00_scope.md R5). `invalid` is the source's reserved trap policy: it can be
requested, and it is refused (R6). -/
inductive Policy where
  | wrap
  | sat
  | invalid
deriving DecidableEq, Repr

/-- `SIGNED_SUBWIDTH_READ` (00_scope.md R16), an OPEN parameter of the spec: both values are modelled. -/
inductive SubwidthRead where
  | storage
  | active
deriving DecidableEq, Repr

/-- A fixed-point format: backing width `w`, active bits `t`, fractional bits `f`, signedness `s`
(00_scope.md R5). A foreign format of a conversion command is one of these too (R12). -/
structure Format where
  w : Nat
  t : Nat
  f : Nat
  s : Signedness
deriving DecidableEq, Repr

/-- All parameters of one instance (00_scope.md R5, 10_state.md R31). The `acos` constants are
binary64 patterns. -/
structure Config extends Format where
  policy        : Policy
  subwidthRead  : SubwidthRead
  sqrtZeroGuard : Bool
  sqrtIterMax   : Nat
  acosA         : Word
  acosB         : Word
  acosC         : Word
  acosD         : Word
  acosPi        : Word
deriving DecidableEq, Repr

/-- Why a configuration elaborates no unit (00_scope.md R6, 10_state.md R33). -/
inductive ElabRefusal where
  /-- T > 64: "unrepresentable" (R33). -/
  | unrepresentable
  /-- W is not 8, 16, 32 or 64 (R6). -/
  | backingWidth
  /-- T = 0 (R6). -/
  | noActiveBits
  /-- T > W (R6). -/
  | activeExceedsBacking
  /-- F > T (R6). -/
  | fractionExceedsActive
  /-- The reserved `INVALID` policy (R6). -/
  | invalidPolicy
  /-- `SQRT_ITER_MAX` outside 1..255 (R5). -/
  | iterationCap
  /-- An `ACOS_` constant that is not a finite binary64 (R5). -/
  | acosConstant
deriving DecidableEq, Repr

/-- The reference values of the decided parameters: `SQRT_ZERO_GUARD` false, `SQRT_ITER_MAX` 10 (R5)
and the `ACOS_` constants (43_elementary.md R211).
DESIGN CHOICE (unsafe, log entry 2): the format is the spec's example format s16.16 WRAP, and the OPEN
`SIGNED_SUBWIDTH_READ` is ACTIVE, which T = W makes unobservable but in CFG[27]. -/
def Config.reference : Config where
  w := 32
  t := 32
  f := 16
  s := .signed
  policy := .wrap
  subwidthRead := .active
  sqrtZeroGuard := false
  sqrtIterMax := 10
  acosA := 0x3FF921B485AE2A4A#64
  acosB := 0xBFCB26908D815D63#64
  acosC := 0x3FB302C4D65E4606#64
  acosD := 0xBF932DC60BE86B8F#64
  acosPi := 0x400921FB54442D18#64

/-- `FXU_BASE`, OPEN (20_memory.md R65): where the platform places the host port. The unit has no
address space, so no rule of the spec reads it and no definition of this model does: DESIGN CHOICE
(safe, log entry 4). -/
opaque Config.fxuBase : Nat

/-- `LAT(w, operands)`, OPEN (70_reset_and_hazards.md R309): the time a command spends in BUSY. Its one
required property, being finite, is its type; a command is one step here: DESIGN CHOICE (safe, log entry 5). -/
opaque Config.latency : CmdWord → List Word → Nat

end Sys2Proof
end

