-- ==== Sys2Proof/Syntax.lean ====
section
/-! DEFINITION. The syntax of the FXU's commands: one constructor of `Instr` per row of
spec/opcode_table.json (30_encoding.md R86), and the pseudo-instructions of R91 and R92. -/

namespace Sys2Proof

/-- An operand register X0 to X7 (10_state.md R45, R51). -/
inductive Reg where
  | x0 | x1 | x2 | x3 | x4 | x5 | x6 | x7
deriving DecidableEq, Repr

/-- A foreign format descriptor (T', F', S') (00_scope.md R12, 30_encoding.md R83). -/
structure Desc where
  t : Nat
  f : Nat
  s : Signedness
deriving DecidableEq, Repr

/-- The 33 commands. A field the command's row marks unused has no argument here (R86, R87). -/
inductive Instr where
  | fxraw    (rd rs1 : Reg)
  | fxfromi  (rd rs1 : Reg)
  | fxfromf  (rd rs1 : Reg) (nu : Bool)
  | fxidiv   (rd rs1 rs2 : Reg) (nu : Bool)
  | fxdivi   (rd rs1 rs2 : Reg) (nu : Bool)
  | fxcvtin  (rd rs1 : Reg) (desc : Desc) (nu : Bool)
  | fxcvtout (rd rs1 : Reg) (desc : Desc) (nu : Bool)
  | fxtoi    (rd rs1 : Reg)
  | fxtof    (rd rs1 : Reg)
  | fxispos  (rd rs1 : Reg)
  | fxisneg  (rd rs1 : Reg)
  | fxisnneg (rd rs1 : Reg)
  | fxiszero (rd rs1 : Reg)
  | fxeq     (rd rs1 rs2 : Reg)
  | fxne     (rd rs1 rs2 : Reg)
  | fxlt     (rd rs1 rs2 : Reg)
  | fxle     (rd rs1 rs2 : Reg)
  | fxadd    (rd rs1 rs2 : Reg)
  | fxsub    (rd rs1 rs2 : Reg)
  | fxmul    (rd rs1 rs2 : Reg)
  | fxdiv    (rd rs1 rs2 : Reg)
  | fxneg    (rd rs1 : Reg)
  | fxrcp    (rd rs1 : Reg)
  | fxabs    (rd rs1 : Reg)
  | fxsqrt   (rd rs1 : Reg)
  | fxlog2   (rd rs1 : Reg)
  | fxln     (rd rs1 : Reg)
  | fxlog10  (rd rs1 : Reg)
  | fxexp2   (rd rs1 : Reg)
  | fxexp    (rd rs1 : Reg)
  | fxexp10  (rd rs1 : Reg)
  | fxpow    (rd rs1 rs2 : Reg)
  | fxacos   (rd rs1 : Reg)
deriving DecidableEq, Repr

/-- The four operators of the value-with-scalar pseudo-instructions (R92). -/
inductive ScalarOp where
  | add | sub | mul | div
deriving DecidableEq, Repr

/-- The pseudo-instructions of 30_encoding.md R91 and R92. They have no opcode of their own: each is
another name for the commands `expand` (Machine/Assembly.lean) gives. -/
inductive Pseudo where
  | fxmov (rd rs : Reg)
  | fxgt  (rd a b : Reg)
  | fxge  (rd a b : Reg)
  | fxone (rd rt : Reg)
  /-- `fx<op>.i rd, rv, rk`: value op integer. -/
  | valInt (op : ScalarOp) (rd rv rk : Reg)
  /-- `fx<op>.ri rd, rk, rv`: integer op value. -/
  | intVal (op : ScalarOp) (rd rk rv : Reg)
  /-- `fx<op>.f rd, rv, rk`: value op binary64. -/
  | valFloat (op : ScalarOp) (rd rv rk : Reg)
  /-- `fx<op>.rf rd, rk, rv`: binary64 op value. -/
  | floatVal (op : ScalarOp) (rd rk rv : Reg)
deriving DecidableEq, Repr

end Sys2Proof
end

