-- ==== Sys2Proof/Machine/State.lean ====
section
/-! DEFINITION. The state of the FXU as plain data (10_state.md R50): the operand registers, ERR, FSR,
STATE and the constant configuration; beside them the host port's pending operations and last reply
(20_memory.md R60), and which registers have been written since reset (R53). -/

namespace Sys2Proof.Machine

/-- One value per operand register X0 to X7 (10_state.md R45). -/
structure Bank (α : Type) where
  r0 : α
  r1 : α
  r2 : α
  r3 : α
  r4 : α
  r5 : α
  r6 : α
  r7 : α
deriving DecidableEq, Repr

/-- `NumCode`, ERR[1:0] (10_state.md R42). -/
inductive NumCode where
  | normal
  | positiveInfinity
  | negativeInfinity
  | nan
deriving DecidableEq, Repr

/-- The stored part ERR[5:0] of the error record; VALID is not stored (10_state.md R42, R43). -/
structure ErrRecord where
  code            : NumCode
  overflow        : Bool
  underflow       : Bool
  divisionByZero  : Bool
  invalidArgument : Bool
deriving DecidableEq, Repr

/-- An architectural fault cause (60_exceptions.md R271). Taking one is a next state, never a stop. -/
inductive Cause where
  | illegalOp
  | divZero
  | fpRange
  | fmtUnsupported
  | sqrtNeg
deriving DecidableEq, Repr

/-- The content of FSR after a fault: CAUSE and CMD (10_state.md R44). -/
structure FaultRecord where
  cause : Cause
  cmd   : CmdWord
deriving DecidableEq, Repr

/-- `STATE` (10_state.md R49). BUSY is the execution of one accepted command, so it carries the word
that Issue handed over whole (20_memory.md R69).
DESIGN CHOICE (safe, log entry 8): an Issue is accepted and runs to its end in one step. -/
inductive UnitState where
  | idle
  | busy (cmd : CmdWord)
  | halted
deriving DecidableEq, Repr

/-- The operations of the host port (20_memory.md R60, 70_reset_and_hazards.md R300). -/
inductive HostOp where
  | hostWrite (idx : HostIndex) (v : Word)
  | hostRead (idx : HostIndex)
  | issue (cmd : CmdWord)
  | reset
deriving DecidableEq, Repr

/-- Why a run stops. `step` raises none of these: an architectural fault is a next state (HALTED). -/
inductive Fault where
  /-- UNINIT (60_exceptions.md R279): register `r` is read and has not been written since reset. Raised
  by `Safety.strictStep` alone, the stricter step that stops as R53 says. Safe: it only stops. -/
  | uninit (r : Reg)
deriving DecidableEq, Repr

/-- Why there is no meaning. -/
inductive Refusal where
  /-- An instruction with no meaning yet, by its mnemonic. Raised by `exec`'s refused arms; there is
  none left. Safe. -/
  | notModelled (mnemonic : String)
  /-- A HostRead or HostWrite of a reserved index 11 to 15, refused by 20_memory.md R64. Raised by
  `step` on that host operation. Safe. -/
  | reservedHostIndex (idx : HostIndex)
  /-- A configuration that elaborates no unit, refused by name by 00_scope.md R6. Raised by `step` and
  by every meaning. Safe. -/
  | notElaborated (why : ElabRefusal)
deriving DecidableEq, Repr

/-- The machine's state. -/
structure State where
  /-- CFG, the constant of R50: hardwired, written by nothing. DESIGN CHOICE (safe, log entry 10): it
  stands in the state, so that one step function serves every instance. -/
  cfg     : Config
  /-- X0 to X7 (R45). -/
  x       : Bank Word
  /-- Which of X0 to X7 have been written since reset (R53): the model's own field, read by
  `Safety.strictStep` alone. DESIGN CHOICE (safe, log entry 15). -/
  written : Bank Bool
  /-- ERR[5:0] (R42). -/
  err     : ErrRecord
  /-- FSR (R44): `none` is FAULT = 0. -/
  fsr     : Option FaultRecord
  /-- STATE (R49). -/
  unit    : UnitState
  /-- Host operations waiting at the port, oldest first (20_memory.md R60, R66): the model's own field.
  DESIGN CHOICE (safe, log entry 3). -/
  port    : List HostOp
  /-- The word the last HostRead returned to the host (20_memory.md R60): the model's own field.
  DESIGN CHOICE (safe, log entry 3). -/
  reply   : Option Word
deriving DecidableEq, Repr

/-- Every register of a bank at one value. -/
def Bank.all {α : Type} (a : α) : Bank α := ⟨a, a, a, a, a, a, a, a⟩

/-- The ok record: Normal, no flags (60_exceptions.md R277). -/
def ErrRecord.ok : ErrRecord := ⟨.normal, false, false, false, false⟩

/-- An instance right after reset (70_reset_and_hazards.md R300, 10_state.md R55).
DESIGN CHOICE (unsafe, log entry 1): X0 to X7 are UNSPECIFIED there and hold 0 here. -/
def State.resetOf (c : Config) : State where
  cfg := c
  x := Bank.all 0
  written := Bank.all false
  err := ErrRecord.ok
  fsr := none
  unit := .idle
  port := []
  reply := none

/-- The reference instance right after reset, with no host operation waiting. -/
def State.reset : State := State.resetOf Config.reference

end Sys2Proof.Machine
end

