-- ==== Sys2Proof/Machine/Format.lean ====
section
/-! DEFINITION. Formats and the exact-integer primitives of the pseudocode: which configurations
elaborate a unit (00_scope.md R6), the type selector (10_state.md R33), masks and ranges (00_scope.md R11),
reduction (10_state.md R37), the two integer readings of a raw value (R38, R39), and the format
preconditions of the elementary commands (43_elementary.md R210). -/

namespace Sys2Proof.Machine

/-! ## Elaboration -/

/-- R33: the smallest of 8, 16, 32 and 64 that is at least `n`, for n ≤ 64. -/
def backingWidth (n : Nat) : Nat :=
  if n ≤ 8 then 8 else if n ≤ 16 then 16 else if n ≤ 32 then 32 else 64

/-- R33: the type selector. Above 64 bits nothing is representable. -/
def sel (n : Nat) : Option Nat :=
  if n ≤ 64 then some (backingWidth n) else none

/-- 00_scope.md R15: a finite binary64 has an exponent field other than all ones. -/
def isFinite (d : Word) : Bool := d.extractLsb' 52 11 != 0x7FF#11

/-- Why a configuration elaborates no unit; `none` when it is admitted (00_scope.md R5, R6).
DEDUCED (safe, log entry 11): `ACOS_PI` is finite too. -/
def rejectConfig (c : Config) : Option ElabRefusal :=
  if 64 < c.t then some .unrepresentable
  else if ¬(c.w = 8 ∨ c.w = 16 ∨ c.w = 32 ∨ c.w = 64) then some .backingWidth
  else if c.t = 0 then some .noActiveBits
  else if c.w < c.t then some .activeExceedsBacking
  else if c.t < c.f then some .fractionExceedsActive
  else if c.policy = .invalid then some .invalidPolicy
  else if c.sqrtIterMax = 0 ∨ 255 < c.sqrtIterMax then some .iterationCap
  else if isFinite c.acosA && isFinite c.acosB && isFinite c.acosC && isFinite c.acosD
      && isFinite c.acosPi then none
  else some .acosConstant

/-- R6: the configurations that elaborate a unit. -/
abbrev Admitted (c : Config) : Prop := rejectConfig c = none

/-- R33: an instance requested by (T, F, S, P) alone takes W = sel(T); its other parameters are those
of `base`. -/
def elaborate (base : Config) (t f : Nat) (s : Signedness) (p : Policy) : Except ElabRefusal Config :=
  match sel t with
  | none => .error .unrepresentable
  | some w =>
    let c : Config := { base with w := w, t := t, f := f, s := s, policy := p }
    match rejectConfig c with
    | some why => .error why
    | none => .ok c

/-- R12: the foreign format a descriptor names, with backing width W' = sel(T'). -/
def foreignFormat (d : Desc) : Format := ⟨backingWidth d.t, d.t, d.f, d.s⟩

/-! ## Masks, ranges and reduction -/

/-- R11: the active mask M, exactly T low bits set. -/
def mask (fm : Format) : Nat := 2 ^ fm.t - 1

/-- R37: `(v mod 2^W) AND M` of an exact integer. -/
def reduce (fm : Format) (v : Int) : Nat := (v % 2 ^ fm.w).toNat &&& mask fm

/-- R11: the raw value of the largest representable value. -/
def maxRaw (fm : Format) : Nat :=
  match fm.s with
  | .signed => 2 ^ (fm.t - 1) - 1
  | .unsigned => 2 ^ fm.t - 1

/-- R11: the raw value of the smallest representable value. -/
def minRaw (fm : Format) : Nat :=
  match fm.s with
  | .signed => 2 ^ (fm.t - 1)
  | .unsigned => 0

/-- R11: the raw value of 1. -/
def one (fm : Format) : Nat := reduce fm (2 ^ fm.f)

/-! ## Integer readings -/

/-- R9: `sext_N(v)`, v[N−1:0] as a two's-complement number. -/
def sext (n : Nat) (v : Nat) : Int := (BitVec.ofNat n v).toInt

/-- R9: `a >> k` on an integer is floor(a / 2^k). -/
def shiftRight (a : Int) (k : Nat) : Int := a / 2 ^ k

/-- R9, R13: the quotient rounded toward zero. -/
def truncDiv (a b : Int) : Int := a.tdiv b

/-- R38: the numeric value in units of 2^−F; the sign bit is bit T−1. -/
def tval (fm : Format) (r : Nat) : Int :=
  match fm.s with
  | .signed => sext fm.t r
  | .unsigned => r

/-- R39: the integer reading, which `SIGNED_SUBWIDTH_READ` chooses for a signed format with T < W. -/
def ival (ssr : SubwidthRead) (fm : Format) (r : Nat) : Int :=
  match fm.s with
  | .unsigned => r
  | .signed =>
    if fm.t = fm.w ∨ ssr = .active then sext fm.t r
    else sext fm.w r

/-- 40_representation.md R122: signed, and bit T−1 set. -/
def isNeg (fm : Format) (r : Nat) : Bool := fm.s == .signed && r.testBit (fm.t - 1)

/-- 40_representation.md R123. -/
def isZero (r : Nat) : Bool := r == 0

/-! ## Format preconditions -/

/-- R32: the magnitude whole bits I_m. -/
def magnitudeBits (fm : Format) : Int :=
  match fm.s with
  | .signed => (fm.t : Int) - fm.f - 1
  | .unsigned => (fm.t : Int) - fm.f

/-- R210(b), FXSQRT. -/
def sqrtFormat (fm : Format) : Bool := decide (1 ≤ fm.f) && decide (1 ≤ magnitudeBits fm)

/-- R210(b), FXLOG2, FXLN, FXLOG10, and FXPOW, which calls log2. -/
def logFormat (fm : Format) : Bool := decide (2 ≤ magnitudeBits fm)

/-- R210(b), FXEXP2 and FXEXP. -/
def expFormat (fm : Format) : Bool := decide (1 ≤ magnitudeBits fm)

/-- R210(b), FXEXP10. -/
def exp10Format (fm : Format) : Bool := decide (2 ≤ magnitudeBits fm)

/-- R210(b), FXACOS. -/
def acosFormat (fm : Format) : Bool :=
  fm.s == .signed && decide (1 ≤ fm.f) && decide (2 ≤ magnitudeBits fm)

end Sys2Proof.Machine
end

