-- ==== Sys2Proof/Machine/Binary64.lean ====
section
/-! DEFINITION. The binary64 interface format (00_scope.md R15): reading a pattern as an exact number
(40_representation.md R112, R113) and rounding an exact number to a pattern (R121). -/

namespace Sys2Proof.Machine

/-- R15: bit 63. -/
def floatSign (d : Word) : Bool := d.getLsbD 63

/-- R15: bits [62:52], the biased exponent. -/
def floatExponent (d : Word) : Nat := (d.extractLsb' 52 11).toNat

/-- R15: bits [51:0]. -/
def floatFraction (d : Word) : Nat := (d.extractLsb' 0 52).toNat

/-- The integer significand: with the implicit bit unless the exponent field is 0.
PRESUMED (unsafe, log entry 6): IEEE 754's reading of the fields R15 names. -/
def floatSignificand (d : Word) : Nat :=
  if floatExponent d = 0 then floatFraction d else floatFraction d + 2 ^ 52

/-- The power of two the integer significand is scaled by: a finite d is ± significand · 2^scale.
PRESUMED (unsafe, log entry 6). -/
def floatScale (d : Word) : Int := (max (floatExponent d) 1 : Nat) - 1075

/-- The sign of the exact number, 0 for ±0 (R112, R117). -/
def floatSignInt (d : Word) : Int :=
  if floatSignificand d = 0 then 0 else if floatSign d then -1 else 1

/-- R112, R113: trunc(d · 2^f), toward zero, of a finite d. -/
def truncScaled (d : Word) (f : Nat) : Int :=
  let e := floatScale d + f
  let m := if 0 ≤ e then floatSignificand d * 2 ^ e.toNat
           else floatSignificand d / 2 ^ (-e).toNat
  if floatSign d then -(m : Int) else m

/-- `m` rounded to 53 significant bits, to nearest, ties to even, for a positive `m` whose leading bit
is bit `k`: an integer of 2^52..2^53, to be scaled by 2^(k−52) (R121). -/
def roundSignificand (m k : Nat) : Nat :=
  if k ≤ 52 then m * 2 ^ (52 - k)
  else
    let q := m / 2 ^ (k - 52)
    let rem := m % 2 ^ (k - 52)
    let half := 2 ^ (k - 53)
    if half < rem ∨ (rem = half ∧ q % 2 = 1) then q + 1 else q

/-- R121: binary64_RNE(v / 2^f). Its range needs no subnormal and no infinity: v ≠ 0 has |v| ≤ 2^64
and f ≤ 64. A significand rounded up to 2^53 carries into the exponent field. -/
def roundToFloat (v : Int) (f : Nat) : Word :=
  if v = 0 then 0
  else
    let m := v.natAbs
    let k := m.log2
    let sign := if v < 0 then 2 ^ 63 else 0
    BitVec.ofNat 64 (sign + (k + 1023 - f) * 2 ^ 52 + (roundSignificand m k - 2 ^ 52))

end Sys2Proof.Machine
end

