-- ==== Sys2Proof/WellFormed.lean ====
section
/-! DEFINITION. Which instruction terms are commands of an instance: the descriptor legality of
30_encoding.md R84 and the range of its fields (R83). Every other operand is a register or a bit. -/

namespace Sys2Proof

/-- R83: T' = xtm1 + 1 is 1..64. R84: F' ≤ T' and T' ≤ W. -/
def Desc.wellFormed (c : Config) (d : Desc) : Bool :=
  decide (1 ≤ d.t) && decide (d.t ≤ 64) && decide (d.f ≤ d.t) && decide (d.t ≤ c.w)

/-- Only the two X-format commands can be ill-formed (R84). -/
def Instr.wellFormed (c : Config) : Instr → Bool
  | .fxcvtin _ _ d _ | .fxcvtout _ _ d _ => d.wellFormed c
  | .fxraw _ _ | .fxfromi _ _ | .fxfromf _ _ _ | .fxidiv _ _ _ _ | .fxdivi _ _ _ _ => true
  | .fxtoi _ _ | .fxtof _ _ | .fxispos _ _ | .fxisneg _ _ | .fxisnneg _ _ | .fxiszero _ _ => true
  | .fxeq _ _ _ | .fxne _ _ _ | .fxlt _ _ _ | .fxle _ _ _ => true
  | .fxadd _ _ _ | .fxsub _ _ _ | .fxmul _ _ _ | .fxdiv _ _ _ => true
  | .fxneg _ _ | .fxrcp _ _ | .fxabs _ _ => true
  | .fxsqrt _ _ | .fxlog2 _ _ | .fxln _ _ | .fxlog10 _ _ => true
  | .fxexp2 _ _ | .fxexp _ _ | .fxexp10 _ _ | .fxpow _ _ _ | .fxacos _ _ => true

end Sys2Proof
end

