-- ==== Sys2Proof/Decode.lean ====
section
/-! DEFINITION. The command encoding (30_encoding.md R80 to R88): the field layout, the opcode map, the
decoder, total on all 2^32 words and rejecting by name, and the encoder. -/

namespace Sys2Proof

/-- R85: a register field is an unsigned 3-bit index. -/
def Reg.bits : Reg → BitVec 3
  | .x0 => 0 | .x1 => 1 | .x2 => 2 | .x3 => 3 | .x4 => 4 | .x5 => 5 | .x6 => 6 | .x7 => 7

def Reg.ofBits (b : BitVec 3) : Reg :=
  match b.toNat with
  | 0 => .x0 | 1 => .x1 | 2 => .x2 | 3 => .x3 | 4 => .x4 | 5 => .x5 | 6 => .x6 | _ => .x7

/-- R83: `xs` is 1 for SIGNED. -/
def Signedness.bit : Signedness → BitVec 1
  | .unsigned => 0 | .signed => 1

def Signedness.ofBit (b : BitVec 1) : Signedness :=
  if b = 0 then .unsigned else .signed

/-! ## Fields (R81, R82, R83) -/

def fieldOp   (w : CmdWord) : BitVec 8 := w.extractLsb' 0 8
def fieldRd   (w : CmdWord) : Reg := Reg.ofBits (w.extractLsb' 8 3)
def fieldRs1  (w : CmdWord) : Reg := Reg.ofBits (w.extractLsb' 11 3)
/-- Bits [16:14]: `rs2` of format R, reserved in format X. -/
def fieldRs2Bits (w : CmdWord) : BitVec 3 := w.extractLsb' 14 3
def fieldRs2  (w : CmdWord) : Reg := Reg.ofBits (fieldRs2Bits w)
def fieldNu   (w : CmdWord) : Bool := w.getLsbD 17
/-- Bits [31:18], reserved in format R. -/
def fieldReservedR (w : CmdWord) : BitVec 14 := w.extractLsb' 18 14
/-- R83, R85: T' = xtm1 + 1, F' = xf, S' = xs. -/
def fieldDesc (w : CmdWord) : Desc where
  t := (w.extractLsb' 19 6).toNat + 1
  f := (w.extractLsb' 25 7).toNat
  s := Signedness.ofBit (w.extractLsb' 18 1)

/-! ## Opcode map (R86) -/

/-- Which fields a row of R86 uses, with the command it builds from them. -/
inductive Shape where
  /-- Format R, rs2 unused, nu unused. -/
  | unary (mk : Reg → Reg → Instr)
  /-- Format R, rs2 unused, nu used. -/
  | unaryNu (mk : Reg → Reg → Bool → Instr)
  /-- Format R, rs2 used, nu unused. -/
  | binary (mk : Reg → Reg → Reg → Instr)
  /-- Format R, rs2 and nu used. -/
  | binaryNu (mk : Reg → Reg → Reg → Bool → Instr)
  /-- Format X. -/
  | convert (mk : Reg → Reg → Desc → Bool → Instr)

def shapeOf (op : BitVec 8) : Option Shape :=
  match op.toNat with
  | 0x01 => some (.unary .fxraw)
  | 0x02 => some (.unary .fxfromi)
  | 0x03 => some (.unaryNu .fxfromf)
  | 0x04 => some (.binaryNu .fxidiv)
  | 0x05 => some (.binaryNu .fxdivi)
  | 0x06 => some (.convert .fxcvtin)
  | 0x07 => some (.convert .fxcvtout)
  | 0x08 => some (.unary .fxtoi)
  | 0x09 => some (.unary .fxtof)
  | 0x10 => some (.unary .fxispos)
  | 0x11 => some (.unary .fxisneg)
  | 0x12 => some (.unary .fxisnneg)
  | 0x13 => some (.unary .fxiszero)
  | 0x14 => some (.binary .fxeq)
  | 0x15 => some (.binary .fxne)
  | 0x16 => some (.binary .fxlt)
  | 0x17 => some (.binary .fxle)
  | 0x20 => some (.binary .fxadd)
  | 0x21 => some (.binary .fxsub)
  | 0x22 => some (.binary .fxmul)
  | 0x23 => some (.binary .fxdiv)
  | 0x24 => some (.unary .fxneg)
  | 0x25 => some (.unary .fxrcp)
  | 0x26 => some (.unary .fxabs)
  | 0x30 => some (.unary .fxsqrt)
  | 0x31 => some (.unary .fxlog2)
  | 0x32 => some (.unary .fxln)
  | 0x33 => some (.unary .fxlog10)
  | 0x34 => some (.unary .fxexp2)
  | 0x35 => some (.unary .fxexp)
  | 0x36 => some (.unary .fxexp10)
  | 0x37 => some (.binary .fxpow)
  | 0x38 => some (.unary .fxacos)
  | _ => none

/-! ## Decoder (R87, R88) -/

/-- Why a word is illegal (R87). Each of these is Fault(ILLEGAL_OP) to the unit. -/
inductive DecodeError where
  /-- An `op` that R86 does not list. -/
  | unknownOp
  /-- A nonzero reserved bit. -/
  | reservedBits
  /-- A nonzero `rs2` where it is unused. -/
  | unusedRs2
  /-- A nonzero `nu` where it is unused. -/
  | unusedNu
  /-- A descriptor that breaks R84. -/
  | illegalDescriptor
deriving DecidableEq, Repr

/-- R84: F' ≤ T' and T' ≤ W. T' = xtm1 + 1 is at least 1 (R83): DEDUCED (safe, log entry 17). -/
def descLegal (c : Config) (d : Desc) : Bool :=
  decide (1 ≤ d.t) && decide (d.f ≤ d.t) && decide (d.t ≤ c.w)

/-- The checks of R88 after the opcode is known, in its order. -/
def decodeShape (c : Config) (w : CmdWord) : Shape → Except DecodeError Instr
  | .unary mk =>
    if fieldReservedR w ≠ 0 then .error .reservedBits
    else if fieldRs2Bits w ≠ 0 then .error .unusedRs2
    else if fieldNu w then .error .unusedNu
    else .ok (mk (fieldRd w) (fieldRs1 w))
  | .unaryNu mk =>
    if fieldReservedR w ≠ 0 then .error .reservedBits
    else if fieldRs2Bits w ≠ 0 then .error .unusedRs2
    else .ok (mk (fieldRd w) (fieldRs1 w) (fieldNu w))
  | .binary mk =>
    if fieldReservedR w ≠ 0 then .error .reservedBits
    else if fieldNu w then .error .unusedNu
    else .ok (mk (fieldRd w) (fieldRs1 w) (fieldRs2 w))
  | .binaryNu mk =>
    if fieldReservedR w ≠ 0 then .error .reservedBits
    else .ok (mk (fieldRd w) (fieldRs1 w) (fieldRs2 w) (fieldNu w))
  | .convert mk =>
    if fieldRs2Bits w ≠ 0 then .error .reservedBits
    else if descLegal c (fieldDesc w) then
      .ok (mk (fieldRd w) (fieldRs1 w) (fieldDesc w) (fieldNu w))
    else .error .illegalDescriptor

/-- R88, total on all words. -/
def decode (c : Config) (w : CmdWord) : Except DecodeError Instr :=
  match shapeOf (fieldOp w) with
  | none => .error .unknownOp
  | some sh => decodeShape c w sh

/-! ## Encoder -/

/-- R82: `op | rd<<8 | rs1<<11 | rs2<<14 | nu<<17`. -/
def encodeR (op : BitVec 8) (rd rs1 : Reg) (rs2 : BitVec 3) (nu : Bool) : CmdWord :=
  op.setWidth 32 ||| rd.bits.setWidth 32 <<< 8 ||| rs1.bits.setWidth 32 <<< 11
    ||| rs2.setWidth 32 <<< 14 ||| (BitVec.ofBool nu).setWidth 32 <<< 17

/-- R83: `op | rd<<8 | rs1<<11 | nu<<17 | xs<<18 | (T'−1)<<19 | F'<<25`. -/
def encodeX (op : BitVec 8) (rd rs1 : Reg) (d : Desc) (nu : Bool) : CmdWord :=
  op.setWidth 32 ||| rd.bits.setWidth 32 <<< 8 ||| rs1.bits.setWidth 32 <<< 11
    ||| (BitVec.ofBool nu).setWidth 32 <<< 17 ||| d.s.bit.setWidth 32 <<< 18
    ||| (BitVec.ofNat 6 (d.t - 1)).setWidth 32 <<< 19 ||| (BitVec.ofNat 7 d.f).setWidth 32 <<< 25

/-- The word of a command. An unused field is 0 (R86, R87). -/
def encode : Instr → CmdWord
  | .fxraw rd rs1 => encodeR 0x01 rd rs1 0 false
  | .fxfromi rd rs1 => encodeR 0x02 rd rs1 0 false
  | .fxfromf rd rs1 nu => encodeR 0x03 rd rs1 0 nu
  | .fxidiv rd rs1 rs2 nu => encodeR 0x04 rd rs1 rs2.bits nu
  | .fxdivi rd rs1 rs2 nu => encodeR 0x05 rd rs1 rs2.bits nu
  | .fxcvtin rd rs1 d nu => encodeX 0x06 rd rs1 d nu
  | .fxcvtout rd rs1 d nu => encodeX 0x07 rd rs1 d nu
  | .fxtoi rd rs1 => encodeR 0x08 rd rs1 0 false
  | .fxtof rd rs1 => encodeR 0x09 rd rs1 0 false
  | .fxispos rd rs1 => encodeR 0x10 rd rs1 0 false
  | .fxisneg rd rs1 => encodeR 0x11 rd rs1 0 false
  | .fxisnneg rd rs1 => encodeR 0x12 rd rs1 0 false
  | .fxiszero rd rs1 => encodeR 0x13 rd rs1 0 false
  | .fxeq rd rs1 rs2 => encodeR 0x14 rd rs1 rs2.bits false
  | .fxne rd rs1 rs2 => encodeR 0x15 rd rs1 rs2.bits false
  | .fxlt rd rs1 rs2 => encodeR 0x16 rd rs1 rs2.bits false
  | .fxle rd rs1 rs2 => encodeR 0x17 rd rs1 rs2.bits false
  | .fxadd rd rs1 rs2 => encodeR 0x20 rd rs1 rs2.bits false
  | .fxsub rd rs1 rs2 => encodeR 0x21 rd rs1 rs2.bits false
  | .fxmul rd rs1 rs2 => encodeR 0x22 rd rs1 rs2.bits false
  | .fxdiv rd rs1 rs2 => encodeR 0x23 rd rs1 rs2.bits false
  | .fxneg rd rs1 => encodeR 0x24 rd rs1 0 false
  | .fxrcp rd rs1 => encodeR 0x25 rd rs1 0 false
  | .fxabs rd rs1 => encodeR 0x26 rd rs1 0 false
  | .fxsqrt rd rs1 => encodeR 0x30 rd rs1 0 false
  | .fxlog2 rd rs1 => encodeR 0x31 rd rs1 0 false
  | .fxln rd rs1 => encodeR 0x32 rd rs1 0 false
  | .fxlog10 rd rs1 => encodeR 0x33 rd rs1 0 false
  | .fxexp2 rd rs1 => encodeR 0x34 rd rs1 0 false
  | .fxexp rd rs1 => encodeR 0x35 rd rs1 0 false
  | .fxexp10 rd rs1 => encodeR 0x36 rd rs1 0 false
  | .fxpow rd rs1 rs2 => encodeR 0x37 rd rs1 rs2.bits false
  | .fxacos rd rs1 => encodeR 0x38 rd rs1 0 false

/-- The command of the reset instance that a word of spec/opcode_table.json's numbering decodes to.
The unit has no byte order (20_memory.md R61): the table's bit i is bit i of the command word, and
bits at or above `nbits` are 0. DESIGN CHOICE (safe, log entry 12): the instance is the reference one. -/
def decodeTableWord (nbits w : Nat) : Option Instr :=
  match decode Config.reference (BitVec.ofNat 32 (w % 2 ^ nbits)) with
  | .ok i => some i
  | .error _ => none

end Sys2Proof
end

