-- ==== Sys2Proof/Machine/Flags.lean ====
section
/-! DEFINITION. The status words as a host reads them: ERR with its computed VALID (10_state.md R42, R43),
FSR (R44) and CFG (R31), and the error records a command can write (60_exceptions.md R277). The arithmetic
commands set no flag (10_state.md R47). -/

namespace Sys2Proof.Machine

/-- R42: the code numbers of ERR[1:0]. -/
def codeBits : NumCode → BitVec 2
  | .normal => 0 | .positiveInfinity => 1 | .negativeInfinity => 2 | .nan => 3

/-- R43: true iff the code is Normal and no flag is set. -/
def errValid (e : ErrRecord) : Bool :=
  e.code == .normal && !e.overflow && !e.underflow && !e.divisionByZero && !e.invalidArgument

/-- R42: [1:0] CODE, [2] OF, [3] UF, [4] DZ, [5] IA, [6] 0, [7] VALID, [63:8] 0. -/
def errWord (e : ErrRecord) : Word :=
  (codeBits e.code).setWidth 64 ||| (BitVec.ofBool e.overflow).setWidth 64 <<< 2
    ||| (BitVec.ofBool e.underflow).setWidth 64 <<< 3
    ||| (BitVec.ofBool e.divisionByZero).setWidth 64 <<< 4
    ||| (BitVec.ofBool e.invalidArgument).setWidth 64 <<< 5
    ||| (BitVec.ofBool (errValid e)).setWidth 64 <<< 7

/-- R277: the zero-argument record of the log2 family. -/
def errZeroArgument : ErrRecord := ⟨.negativeInfinity, false, false, false, true⟩

/-- R277: the negative-argument record of the log2 family. -/
def errNegativeArgument : ErrRecord := ⟨.nan, false, false, false, true⟩

/-- R271: the cause codes. -/
def causeCode : Cause → BitVec 8
  | .illegalOp => 1 | .divZero => 2 | .fpRange => 3 | .fmtUnsupported => 4 | .sqrtNeg => 5

/-- R44: [0] FAULT, [15:8] CAUSE, [63:32] CMD, every other bit 0; all 0 when FAULT = 0. -/
def fsrWord : Option FaultRecord → Word
  | none => 0
  | some r => 1#64 ||| (causeCode r.cause).setWidth 64 <<< 8 ||| r.cmd.setWidth 64 <<< 32

/-- R31: 0 WRAP, 1 SAT. 2 (INVALID) is never reported, since R6 admits no such instance. -/
def policyBits : Policy → BitVec 2
  | .wrap => 0 | .sat => 1 | .invalid => 2

/-- R31: [7:0] W, [15:8] T, [23:16] F, [24] S, [26:25] P, [27] SSR, [28] SZG, [31:29] 0,
[39:32] SQRT_ITER_MAX, [63:40] 0. -/
def cfgWord (c : Config) : Word :=
  (BitVec.ofNat 8 c.w).setWidth 64 ||| (BitVec.ofNat 8 c.t).setWidth 64 <<< 8
    ||| (BitVec.ofNat 8 c.f).setWidth 64 <<< 16 ||| (BitVec.ofBool (c.s == .signed)).setWidth 64 <<< 24
    ||| (policyBits c.policy).setWidth 64 <<< 25
    ||| (BitVec.ofBool (c.subwidthRead == .active)).setWidth 64 <<< 27
    ||| (BitVec.ofBool c.sqrtZeroGuard).setWidth 64 <<< 28
    ||| (BitVec.ofNat 8 c.sqrtIterMax).setWidth 64 <<< 32

end Sys2Proof.Machine
end

