-- ==== Sys2Proof/Machine/Ops.lean ====
section
/-! DEFINITION. The named operations over the registers: reading and writing a bank, the write set of a
completed command, taking a fault (60_exceptions.md R272), and the one way a command ends
(70_reset_and_hazards.md R304). The unit has no memory (20_memory.md R60), and there is no return from a
fault but reset (60_exceptions.md R280). -/

namespace Sys2Proof.Machine

/-- `x[i]` (00_scope.md R10). -/
def Bank.get {α : Type} (b : Bank α) : Reg → α
  | .x0 => b.r0 | .x1 => b.r1 | .x2 => b.r2 | .x3 => b.r3
  | .x4 => b.r4 | .x5 => b.r5 | .x6 => b.r6 | .x7 => b.r7

/-- `x[i] <- a` (00_scope.md R10). -/
def Bank.set {α : Type} (b : Bank α) (i : Reg) (a : α) : Bank α :=
  match i with
  | .x0 => { b with r0 := a } | .x1 => { b with r1 := a }
  | .x2 => { b with r2 := a } | .x3 => { b with r3 := a }
  | .x4 => { b with r4 := a } | .x5 => { b with r5 := a }
  | .x6 => { b with r6 := a } | .x7 => { b with r7 := a }

/-- Write Xi: by a command or by a HostWrite, which counts as a write too (70_reset_and_hazards.md R305). -/
def writeX (i : Reg) (v : Word) (s : State) : State :=
  { s with x := s.x.set i v, written := s.written.set i true }

/-- All a completed command writes: rd, and ERR for the elementary commands (R304). -/
structure Writes where
  rd  : Reg
  val : Word
  /-- `none` for the commands that leave ERR unchanged (10_state.md R42). -/
  err : Option ErrRecord
deriving DecidableEq, Repr

/-- A command completes: its write set, all at once, and STATE returns to IDLE (R304). -/
def commit (ws : Writes) (s : State) : State :=
  { writeX ws.rd ws.val s with err := ws.err.getD s.err, unit := .idle }

/-- Fault entry (60_exceptions.md R272): FSR records the cause and the command word, STATE is HALTED,
and nothing else changes. -/
def takeFault (c : Cause) (cmd : CmdWord) (s : State) : State :=
  { s with fsr := some ⟨c, cmd⟩, unit := .halted }

/-- How a command ends: with its one write set, or with its one fault (R304). FSR.CMD is the command's
word, of which each legal command has exactly one: DEDUCED (safe, log entry 9). A configuration that
elaborates no unit is refused (00_scope.md R6). -/
def conclude (i : Instr) (s : State) (r : Except Cause Writes) :
    Host.Outcome State Fault Refusal :=
  match rejectConfig s.cfg with
  | some why => .refused (.notElaborated why)
  | none =>
    match r with
    | .ok ws => .next (commit ws s)
    | .error c => .next (takeFault c (encode i) s)

end Sys2Proof.Machine
end

