-- ==== Sys2Proof/Machine/Operands.lean ====
section
/-! DEFINITION. Every operand form of a command (10_state.md R45): a fixed-point operand (R34), a 64-bit
integer, a binary64 pattern, a foreign-format raw value; and every form of result (R35): a fixed-point
value, an integer or binary64 word, and the 0/1 of a predicate. -/

namespace Sys2Proof.Machine

/-- R34: `x[i][W-1:0] AND M`. -/
def opnd (s : State) (i : Reg) : Nat := (s.x.get i).toNat % 2 ^ s.cfg.w &&& mask s.cfg.toFormat

/-- R45: the register as a 64-bit two's-complement integer, `sext_64(x[i])`. -/
def intOpnd (s : State) (i : Reg) : Int := (s.x.get i).toInt

/-- R45: the register as a binary64 pattern. -/
def floatOpnd (s : State) (i : Reg) : Word := s.x.get i

/-- 40_representation.md R118: a foreign raw value, `x[i][T'-1:0]`. -/
def foreignOpnd (s : State) (i : Reg) (d : Desc) : Nat := (s.x.get i).toNat % 2 ^ d.t

/-- R35: `wr(rd, r)`, zero-extended to 64 bits. -/
def wr (rd : Reg) (r : Nat) : Writes := ⟨rd, BitVec.ofNat 64 r, none⟩

/-- A command that writes a whole 64-bit word and leaves ERR alone. -/
def wrWord (rd : Reg) (v : Word) : Writes := ⟨rd, v, none⟩

/-- 40_representation.md section 3: a predicate writes 1 or 0 to the 64-bit rd. -/
def wrBool (rd : Reg) (b : Bool) : Writes := ⟨rd, if b then 1 else 0, none⟩

/-- 43_elementary.md R210(c): an elementary command writes rd and ERR. -/
def wrErr (rd : Reg) (r : Nat) (e : ErrRecord) : Writes := ⟨rd, BitVec.ofNat 64 r, some e⟩

end Sys2Proof.Machine
end

