-- ==== Sys2Proof/Machine/Arith.lean ====
section
/-! DEFINITION. The semantic functions on raw values that the commands and the elementary functions
share (43_elementary.md R210(a)): add and subtract (41_overflow_engine.md), multiply, divide, negate, reciprocal
and abs (42_arithmetic.md), the constructions and conversions (40_representation.md), with no register access. -/

namespace Sys2Proof.Machine

/-- The integer reading of the unit's own format (10_state.md R39). -/
def uval (c : Config) (r : Nat) : Int := ival c.subwidthRead c.toFormat r

/-- R160: add with the configured overflow policy. The saturation tests read the T-bit values. -/
def add (c : Config) (a b : Nat) : Nat :=
  match c.policy, c.s with
  | .sat, .signed =>
    let av := sext c.t a
    let bv := sext c.t b
    if 0 ≤ av ∧ 0 ≤ bv ∧ 2 ^ (c.t - 1) - 1 < av + bv then maxRaw c.toFormat
    else if av < 0 ∧ bv < 0 ∧ av + bv < -2 ^ (c.t - 1) then minRaw c.toFormat
    else reduce c.toFormat (a + b)
  | .sat, .unsigned =>
    if (maxRaw c.toFormat : Int) - a < b then maxRaw c.toFormat
    else reduce c.toFormat (a + b)
  | _, _ => reduce c.toFormat (a + b)

/-- R161: subtract, wrapping under both policies: the source's acknowledged gap, reproduced. -/
def sub (c : Config) (a b : Nat) : Nat := reduce c.toFormat ((a : Int) - b)

/-- R180: the exact product, floor-shifted by F, reduced once. -/
def mul (c : Config) (a b : Nat) : Nat :=
  reduce c.toFormat (shiftRight (uval c a * uval c b) c.f)

/-- R181: the exact dividend `ival(a) << F`, truncated quotient, reduced once. -/
def div (c : Config) (a b : Nat) : Except Cause Nat :=
  if uval c b = 0 then .error .divZero
  else .ok (reduce c.toFormat (truncDiv (uval c a * 2 ^ c.f) (uval c b)))

/-- R182: two's-complement negation, masked. -/
def neg (c : Config) (a : Nat) : Nat := reduce c.toFormat (0 - (a : Int))

/-- R183: exactly `div` with dividend ONE. -/
def rcp (c : Config) (a : Nat) : Except Cause Nat := div c (one c.toFormat) a

/-- R184: negate when negative. -/
def absVal (c : Config) (a : Nat) : Nat := if isNeg c.toFormat a then neg c a else a

/-- R117: the just-nonzero result of sign `s`, when nu is set and truncation left an exact zero. -/
def nuFix (q s : Int) (nu : Bool) : Int := if nu && q == 0 && s != 0 then s else q

/-- R111: an integer times 2^F, wrapped. -/
def fromInt (c : Config) (n : Int) : Nat := reduce c.toFormat (n * 2 ^ c.f)

/-- R112: the range a truncated binary64 operand must lie in, that of the backing storage integer. -/
def inBackingRange (fm : Format) (t : Int) : Bool :=
  match fm.s with
  | .signed => decide (-2 ^ (fm.w - 1) ≤ t) && decide (t ≤ 2 ^ (fm.w - 1) - 1)
  | .unsigned => decide (0 ≤ t) && decide (t ≤ 2 ^ fm.w - 1)

/-- R112: construct from a binary64 value. -/
def fromFloat (c : Config) (d : Word) (nu : Bool) : Except Cause Nat :=
  if !isFinite d then .error .fpRange
  else if inBackingRange c.toFormat (truncScaled d c.f) then
    .ok (reduce c.toFormat (nuFix (truncScaled d c.f) (floatSignInt d) nu))
  else .error .fpRange

/-- R113: an internal constant. No range check: R113 gives the formula alone, and R210 keeps the
constants in range. DEDUCED (unsafe, log entry 7): the formula alone holds for `ACOS_` parameters outside it. -/
def cf (c : Config) (d : Word) : Nat := reduce c.toFormat (truncScaled d c.f)

/-- R114: construct by integer division, whole part and remainder apart as the source does. -/
def intDiv (c : Config) (n d : Int) (nu : Bool) : Except Cause Nat :=
  if d = 0 then .error .divZero
  else
    let whole := truncDiv n d
    let rem := n - d * whole
    let q := whole * 2 ^ c.f + truncDiv (rem * 2 ^ c.f) d
    .ok (reduce c.toFormat (nuFix q (n.sign * d.sign) nu))

/-- R115: a value divided by an integer. -/
def divInt (c : Config) (a : Nat) (k : Int) (nu : Bool) : Except Cause Nat :=
  if k = 0 then .error .divZero
  else .ok (reduce c.toFormat (nuFix (truncDiv (uval c a) k) ((uval c a).sign * k.sign) nu))

/-- R210(a): `divi(a, n)`, R115 with nu = 0 and a positive integer n, which cannot fault. -/
def divi (c : Config) (a : Nat) (n : Nat) : Nat := reduce c.toFormat (truncDiv (uval c a) n)

/-- R116: the conversion core. It works on the magnitude, so precision is lost toward zero. -/
def cvt (ssr : SubwidthRead) (src dst : Format) (r : Nat) (nu : Bool) : Nat :=
  let v := ival ssr src r
  let m := v.natAbs
  let m2 := if src.f ≤ dst.f then m * 2 ^ (dst.f - src.f) else m / 2 ^ (src.f - dst.f)
  let m3 := if nu && m2 == 0 && m != 0 then 1 else m2
  reduce dst (if v < 0 then -(m3 : Int) else m3)

/-- R120: floor, as a 64-bit integer. -/
def toInt (c : Config) (r : Nat) : Word := BitVec.ofInt 64 (shiftRight (uval c r) c.f)

/-- R121: always sign-extended from bit T−1. -/
def toFloat (c : Config) (r : Nat) : Word := roundToFloat (tval c.toFormat r) c.f

end Sys2Proof.Machine
end

