-- ==== Sys2Proof/Machine/Arithmetic.lean ====
section
/-! DEFINITION. The meanings of the Overflow and Sign Engine's commands (41_overflow_engine.md) and of the
Arithmetic Core's (42_arithmetic.md). None writes ERR; only FXADD heeds the overflow policy (R163). -/

namespace Sys2Proof.Machine

/-- R160. -/
def execFxadd (rd rs1 rs2 : Reg) (s : State) : Host.Outcome State Fault Refusal :=
  conclude (.fxadd rd rs1 rs2) s (.ok (wr rd (add s.cfg (opnd s rs1) (opnd s rs2))))

/-- R161. -/
def execFxsub (rd rs1 rs2 : Reg) (s : State) : Host.Outcome State Fault Refusal :=
  conclude (.fxsub rd rs1 rs2) s (.ok (wr rd (sub s.cfg (opnd s rs1) (opnd s rs2))))

/-- R180. -/
def execFxmul (rd rs1 rs2 : Reg) (s : State) : Host.Outcome State Fault Refusal :=
  conclude (.fxmul rd rs1 rs2) s (.ok (wr rd (mul s.cfg (opnd s rs1) (opnd s rs2))))

/-- R181. -/
def execFxdiv (rd rs1 rs2 : Reg) (s : State) : Host.Outcome State Fault Refusal :=
  conclude (.fxdiv rd rs1 rs2) s ((div s.cfg (opnd s rs1) (opnd s rs2)).map (wr rd))

/-- R182. -/
def execFxneg (rd rs1 : Reg) (s : State) : Host.Outcome State Fault Refusal :=
  conclude (.fxneg rd rs1) s (.ok (wr rd (neg s.cfg (opnd s rs1))))

/-- R183. -/
def execFxrcp (rd rs1 : Reg) (s : State) : Host.Outcome State Fault Refusal :=
  conclude (.fxrcp rd rs1) s ((rcp s.cfg (opnd s rs1)).map (wr rd))

/-- R184. -/
def execFxabs (rd rs1 : Reg) (s : State) : Host.Outcome State Fault Refusal :=
  conclude (.fxabs rd rs1) s (.ok (wr rd (absVal s.cfg (opnd s rs1))))

end Sys2Proof.Machine
end

