-- ==== Sys2Proof/Machine/Conversion.lean ====
section
/-! DEFINITION. The meanings of the construction and conversion commands (40_representation.md, sections 1
and 2): FXRAW, FXFROMI, FXFROMF, FXIDIV, FXDIVI, FXCVTIN, FXCVTOUT, FXTOI, FXTOF. -/

namespace Sys2Proof.Machine

/-- R110. -/
def execFxraw (rd rs1 : Reg) (s : State) : Host.Outcome State Fault Refusal :=
  conclude (.fxraw rd rs1) s (.ok (wr rd (opnd s rs1)))

/-- R111. -/
def execFxfromi (rd rs1 : Reg) (s : State) : Host.Outcome State Fault Refusal :=
  conclude (.fxfromi rd rs1) s (.ok (wr rd (fromInt s.cfg (intOpnd s rs1))))

/-- R112. -/
def execFxfromf (rd rs1 : Reg) (nu : Bool) (s : State) : Host.Outcome State Fault Refusal :=
  conclude (.fxfromf rd rs1 nu) s ((fromFloat s.cfg (floatOpnd s rs1) nu).map (wr rd))

/-- R114. -/
def execFxidiv (rd rs1 rs2 : Reg) (nu : Bool) (s : State) : Host.Outcome State Fault Refusal :=
  conclude (.fxidiv rd rs1 rs2 nu) s
    ((intDiv s.cfg (intOpnd s rs1) (intOpnd s rs2) nu).map (wr rd))

/-- R115. -/
def execFxdivi (rd rs1 rs2 : Reg) (nu : Bool) (s : State) : Host.Outcome State Fault Refusal :=
  conclude (.fxdivi rd rs1 rs2 nu) s ((divInt s.cfg (opnd s rs1) (intOpnd s rs2) nu).map (wr rd))

/-- R118: ILLEGAL_OP for a descriptor that breaks R84, no other fault. -/
def execFxcvtin (rd rs1 : Reg) (desc : Desc) (nu : Bool) (s : State) :
    Host.Outcome State Fault Refusal :=
  conclude (.fxcvtin rd rs1 desc nu) s
    (if descLegal s.cfg desc then
      .ok (wr rd (cvt s.cfg.subwidthRead (foreignFormat desc) s.cfg.toFormat
        (foreignOpnd s rs1 desc) nu))
    else .error .illegalOp)

/-- R119: ILLEGAL_OP for a descriptor that breaks R84, no other fault. -/
def execFxcvtout (rd rs1 : Reg) (desc : Desc) (nu : Bool) (s : State) :
    Host.Outcome State Fault Refusal :=
  conclude (.fxcvtout rd rs1 desc nu) s
    (if descLegal s.cfg desc then
      .ok (wr rd (cvt s.cfg.subwidthRead s.cfg.toFormat (foreignFormat desc) (opnd s rs1) nu))
    else .error .illegalOp)

/-- R120. -/
def execFxtoi (rd rs1 : Reg) (s : State) : Host.Outcome State Fault Refusal :=
  conclude (.fxtoi rd rs1) s (.ok (wrWord rd (toInt s.cfg (opnd s rs1))))

/-- R121. -/
def execFxtof (rd rs1 : Reg) (s : State) : Host.Outcome State Fault Refusal :=
  conclude (.fxtof rd rs1) s (.ok (wrWord rd (toFloat s.cfg (opnd s rs1))))

end Sys2Proof.Machine
end

