-- ==== Sys2Proof/Machine/ElemFns.lean ====
section
/-! DEFINITION. The cores of the elementary functions (43_elementary.md): the internal constants (R211),
sqrt_core (R212), log2_core (R214, R215), exp2_core (R218) and the acos polynomial (R222). Each loop is
structural recursion on a count that R223 bounds: DEDUCED (safe, log entry 13). Laws/Elementary.lean proves
the counts suffice. -/

namespace Sys2Proof.Machine

/-! ## Internal constants (R211), as binary64 patterns -/

def halfConst   : Word := 0x3FE0000000000000#64
def ln2Const    : Word := 0x3FE62E42FEFA39EF#64
def log10Of2    : Word := 0x3FD34413509F79FF#64
def log2OfE     : Word := 0x3FF71547652B82FE#64
def log2Of10    : Word := 0x400A934F0979A371#64

/-! ## Square root (R212) -/

/-- One Newton step: X_{n+1} = 0.5 · (X_n + x / X_n). -/
def newtonStep (c : Config) (x X : Nat) : Except Cause Nat :=
  match div c x X with
  | .error e => .error e
  | .ok q => .ok (mul c (cf c halfConst) (add c X q))

/-- At most `n` Newton steps from `X`, with the exit on identical raw storage. -/
def newtonLoop (c : Config) (x : Nat) : Nat → Nat → Except Cause Nat
  | 0, X => .ok X
  | n + 1, X =>
    match newtonStep c x X with
    | .error e => .error e
    | .ok Xn => if Xn = X then .ok X else newtonLoop c x n Xn

def sqrtCore (c : Config) (x : Nat) : Except Cause Nat :=
  if isNeg c.toFormat x then .error .sqrtNeg
  else if x = 0 ∧ c.sqrtZeroGuard = true then .ok 0
  else newtonLoop c x c.sqrtIterMax x

/-! ## Base-2 logarithm (R214, R215) -/

/-- `while z < 2^F: z = z << 1 ; y = y - 2^F`, at most `n` times. -/
def doubleUp (f : Nat) : Nat → Nat × Int → Nat × Int
  | 0, zy => zy
  | n + 1, zy => if zy.1 < 2 ^ f then doubleUp f n (zy.1 * 2, zy.2 - 2 ^ f) else zy

/-- `while z >= 2^(F+1): z = z >> 1 ; y = y + 2^F`, at most `n` times. -/
def halveDown (f : Nat) : Nat → Nat × Int → Nat × Int
  | 0, zy => zy
  | n + 1, zy => if 2 ^ (f + 1) ≤ zy.1 then halveDown f n (zy.1 / 2, zy.2 + 2 ^ f) else zy

/-- Range reduction into [1.0, 2.0): at most F doublings and T halvings (R223). -/
def rangeReduce (c : Config) (x : Nat) : Nat × Int :=
  halveDown c.f c.t (doubleUp c.f c.f (x, 0))

/-- Turner's loop, `n` squarings left with bit weight `b`. -/
def turner (c : Config) : Nat → Nat → Int → Nat → Int
  | 0, _, y, _ => y
  | n + 1, z, y, b =>
    let z2 := mul c z z
    if z2 = 0 then y
    else if 2 ^ (c.f + 1) ≤ z2 then turner c n (z2 / 2) (y + b) (b / 2)
    else turner c n z2 y (b / 2)

/-- The exact logarithm sum of a positive raw value, in units of 2^−F, before the one reduction. -/
def log2Sum (c : Config) (x : Nat) : Int :=
  let zy := rangeReduce c x
  turner c c.f zy.1 zy.2 (if c.f = 0 then 0 else 2 ^ (c.f - 1))

/-- R214: the value and the error record. -/
def log2Core (c : Config) (x : Nat) : Nat × ErrRecord :=
  if isZero x then (0, errZeroArgument)
  else if isNeg c.toFormat x then (0, errNegativeArgument)
  else (reduce c.toFormat (log2Sum c x), ErrRecord.ok)

/-! ## Base-2 exponential (R218) -/

/-- The Taylor loop from term `n`: `term = divi(mul(term, q), n)`, until a term rounds to zero. -/
def taylorLoop (c : Config) (q : Nat) : Nat → Nat → Nat → Nat → Nat
  | 0, _, _, sum => sum
  | k + 1, n, term, sum =>
    let t := divi c (mul c term q) n
    if t = 0 then sum else taylorLoop c q k (n + 1) t (add c sum t)

/-- 1 + Σ term_n for the fractional part `fr`; at most F + 2 terms (R223). -/
def taylorSum (c : Config) (fr : Nat) : Nat :=
  taylorLoop c (mul c (cf c ln2Const) fr) (c.f + 2) 1 (one c.toFormat) (one c.toFormat)

/-- `1 << i` as a fixed-point value: reduce(2^(F+i)), which is 0 when F + i ≥ T (R218). Testing that first
keeps an unsigned i of up to 2^T from being an exponent: DEDUCED (safe, log entry 16). -/
def intPower (c : Config) (i : Nat) : Nat :=
  if c.t ≤ c.f + i then 0 else reduce c.toFormat (2 ^ (c.f + i))

/-- The product of the integer and fractional contributions, for a magnitude `a` read as unsigned. -/
def exp2Product (c : Config) (a : Nat) : Nat :=
  mul c (intPower c (a / 2 ^ c.f)) (taylorSum c (a &&& 2 ^ c.f - 1))

def exp2Core (c : Config) (x : Nat) : Except Cause Nat :=
  if isNeg c.toFormat x then div c (one c.toFormat) (exp2Product c (neg c x))
  else .ok (exp2Product c x)

/-! ## Arc-cosine (R222) -/

/-- Horner: ((d·ax + c)·ax + b)·ax + a. -/
def acosPoly (c : Config) (ax : Nat) : Nat :=
  add c (mul c (add c (mul c (add c (mul c (cf c c.acosD) ax) (cf c c.acosC)) ax) (cf c c.acosB)) ax)
    (cf c c.acosA)

def acosCore (c : Config) (x : Nat) : Except Cause Nat :=
  let ng := isNeg c.toFormat x
  let ax := if ng then neg c x else x
  match sqrtCore c (sub c (one c.toFormat) ax) with
  | .error e => .error e
  | .ok root =>
    let r := mul c (acosPoly c ax) root
    .ok (if ng then sub c (cf c c.acosPi) r else r)

end Sys2Proof.Machine
end

