-- ==== Sys2Proof/Machine/Elementary.lean ====
section
/-! DEFINITION. The meanings of the nine elementary commands (43_elementary.md). Each checks its format
precondition before it reads an operand (R210(b)), then writes rd and ERR together, or faults and writes
neither (R210(c)). -/

namespace Sys2Proof.Machine

/-- R210(b): FMT_UNSUPPORTED unless the format precondition holds. -/
def requireFormat (ok : Bool) (r : Except Cause Writes) : Except Cause Writes :=
  if ok then r else .error .fmtUnsupported

/-- R210(d): the commands with no error case write the ok record. -/
def okResult (rd : Reg) (r : Except Cause Nat) : Except Cause Writes :=
  match r with
  | .error c => .error c
  | .ok v => .ok (wrErr rd v ErrRecord.ok)

/-- R278: an error record of log2_core is written unchanged, with its zero value, and no further step
is done; otherwise `after` goes on from the logarithm. -/
def afterLog (rd : Reg) (l : Nat × ErrRecord) (after : Nat → Except Cause Nat) :
    Except Cause Writes :=
  if errValid l.2 then okResult rd (after l.1) else .ok (wrErr rd l.1 l.2)

/-- R212. -/
def execFxsqrt (rd rs1 : Reg) (s : State) : Host.Outcome State Fault Refusal :=
  conclude (.fxsqrt rd rs1) s
    (requireFormat (sqrtFormat s.cfg.toFormat) (okResult rd (sqrtCore s.cfg (opnd s rs1))))

/-- R214. -/
def execFxlog2 (rd rs1 : Reg) (s : State) : Host.Outcome State Fault Refusal :=
  conclude (.fxlog2 rd rs1) s
    (requireFormat (logFormat s.cfg.toFormat)
      (.ok (wrErr rd (log2Core s.cfg (opnd s rs1)).1 (log2Core s.cfg (opnd s rs1)).2)))

/-- R216. -/
def execFxln (rd rs1 : Reg) (s : State) : Host.Outcome State Fault Refusal :=
  conclude (.fxln rd rs1) s
    (requireFormat (logFormat s.cfg.toFormat)
      (afterLog rd (log2Core s.cfg (opnd s rs1)) fun l => .ok (mul s.cfg (cf s.cfg ln2Const) l)))

/-- R217. -/
def execFxlog10 (rd rs1 : Reg) (s : State) : Host.Outcome State Fault Refusal :=
  conclude (.fxlog10 rd rs1) s
    (requireFormat (logFormat s.cfg.toFormat)
      (afterLog rd (log2Core s.cfg (opnd s rs1)) fun l => .ok (mul s.cfg (cf s.cfg log10Of2) l)))

/-- R218. -/
def execFxexp2 (rd rs1 : Reg) (s : State) : Host.Outcome State Fault Refusal :=
  conclude (.fxexp2 rd rs1) s
    (requireFormat (expFormat s.cfg.toFormat) (okResult rd (exp2Core s.cfg (opnd s rs1))))

/-- R219. -/
def execFxexp (rd rs1 : Reg) (s : State) : Host.Outcome State Fault Refusal :=
  conclude (.fxexp rd rs1) s
    (requireFormat (expFormat s.cfg.toFormat)
      (okResult rd (exp2Core s.cfg (mul s.cfg (cf s.cfg log2OfE) (opnd s rs1)))))

/-- R220. -/
def execFxexp10 (rd rs1 : Reg) (s : State) : Host.Outcome State Fault Refusal :=
  conclude (.fxexp10 rd rs1) s
    (requireFormat (exp10Format s.cfg.toFormat)
      (okResult rd (exp2Core s.cfg (mul s.cfg (cf s.cfg log2Of10) (opnd s rs1)))))

/-- R221: x = rs1, y = rs2. -/
def execFxpow (rd rs1 rs2 : Reg) (s : State) : Host.Outcome State Fault Refusal :=
  conclude (.fxpow rd rs1 rs2) s
    (requireFormat (logFormat s.cfg.toFormat)
      (afterLog rd (log2Core s.cfg (opnd s rs1)) fun l =>
        exp2Core s.cfg (mul s.cfg (opnd s rs2) l)))

/-- R222. -/
def execFxacos (rd rs1 : Reg) (s : State) : Host.Outcome State Fault Refusal :=
  conclude (.fxacos rd rs1) s
    (requireFormat (acosFormat s.cfg.toFormat) (okResult rd (acosCore s.cfg (opnd s rs1))))

end Sys2Proof.Machine
end

