-- ==== Sys2Proof/Machine/Predicates.lean ====
section
/-! DEFINITION. The meanings of the predicates and of the comparisons within the format
(40_representation.md, sections 3 and 4). Each writes 1 or 0 to the 64-bit rd and raises nothing. -/

namespace Sys2Proof.Machine

/-- R124. -/
def execFxispos (rd rs1 : Reg) (s : State) : Host.Outcome State Fault Refusal :=
  conclude (.fxispos rd rs1) s
    (.ok (wrBool rd (!isNeg s.cfg.toFormat (opnd s rs1) && !isZero (opnd s rs1))))

/-- R122. -/
def execFxisneg (rd rs1 : Reg) (s : State) : Host.Outcome State Fault Refusal :=
  conclude (.fxisneg rd rs1) s (.ok (wrBool rd (isNeg s.cfg.toFormat (opnd s rs1))))

/-- R125. -/
def execFxisnneg (rd rs1 : Reg) (s : State) : Host.Outcome State Fault Refusal :=
  conclude (.fxisnneg rd rs1) s (.ok (wrBool rd (!isNeg s.cfg.toFormat (opnd s rs1))))

/-- R123. -/
def execFxiszero (rd rs1 : Reg) (s : State) : Host.Outcome State Fault Refusal :=
  conclude (.fxiszero rd rs1) s (.ok (wrBool rd (isZero (opnd s rs1))))

/-- R127: bitwise equality of the masked raw values (10_state.md R41). -/
def execFxeq (rd rs1 rs2 : Reg) (s : State) : Host.Outcome State Fault Refusal :=
  conclude (.fxeq rd rs1 rs2) s (.ok (wrBool rd (opnd s rs1 == opnd s rs2)))

/-- R128. -/
def execFxne (rd rs1 rs2 : Reg) (s : State) : Host.Outcome State Fault Refusal :=
  conclude (.fxne rd rs1 rs2) s (.ok (wrBool rd (opnd s rs1 != opnd s rs2)))

/-- R129: ordering compares the integer readings. -/
def execFxlt (rd rs1 rs2 : Reg) (s : State) : Host.Outcome State Fault Refusal :=
  conclude (.fxlt rd rs1 rs2) s
    (.ok (wrBool rd (decide (uval s.cfg (opnd s rs1) < uval s.cfg (opnd s rs2)))))

/-- R130. -/
def execFxle (rd rs1 rs2 : Reg) (s : State) : Host.Outcome State Fault Refusal :=
  conclude (.fxle rd rs1 rs2) s
    (.ok (wrBool rd (decide (uval s.cfg (opnd s rs1) ≤ uval s.cfg (opnd s rs2)))))

end Sys2Proof.Machine
end

