-- ==== Sys2Proof/Machine/Dispatch.lean ====
section
/-! DEFINITION. `execute` of 70_reset_and_hazards.md R304: one arm per command, each one call of its meaning. -/

namespace Sys2Proof.Machine

def exec (i : Instr) (s : State) : Host.Outcome State Fault Refusal :=
  match i with
  | .fxraw rd rs1 => Sys2Proof.Machine.execFxraw rd rs1 s
  | .fxfromi rd rs1 => Sys2Proof.Machine.execFxfromi rd rs1 s
  | .fxfromf rd rs1 nu => Sys2Proof.Machine.execFxfromf rd rs1 nu s
  | .fxidiv rd rs1 rs2 nu => Sys2Proof.Machine.execFxidiv rd rs1 rs2 nu s
  | .fxdivi rd rs1 rs2 nu => Sys2Proof.Machine.execFxdivi rd rs1 rs2 nu s
  | .fxcvtin rd rs1 desc nu => Sys2Proof.Machine.execFxcvtin rd rs1 desc nu s
  | .fxcvtout rd rs1 desc nu => Sys2Proof.Machine.execFxcvtout rd rs1 desc nu s
  | .fxtoi rd rs1 => Sys2Proof.Machine.execFxtoi rd rs1 s
  | .fxtof rd rs1 => Sys2Proof.Machine.execFxtof rd rs1 s
  | .fxispos rd rs1 => Sys2Proof.Machine.execFxispos rd rs1 s
  | .fxisneg rd rs1 => Sys2Proof.Machine.execFxisneg rd rs1 s
  | .fxisnneg rd rs1 => Sys2Proof.Machine.execFxisnneg rd rs1 s
  | .fxiszero rd rs1 => Sys2Proof.Machine.execFxiszero rd rs1 s
  | .fxeq rd rs1 rs2 => Sys2Proof.Machine.execFxeq rd rs1 rs2 s
  | .fxne rd rs1 rs2 => Sys2Proof.Machine.execFxne rd rs1 rs2 s
  | .fxlt rd rs1 rs2 => Sys2Proof.Machine.execFxlt rd rs1 rs2 s
  | .fxle rd rs1 rs2 => Sys2Proof.Machine.execFxle rd rs1 rs2 s
  | .fxadd rd rs1 rs2 => Sys2Proof.Machine.execFxadd rd rs1 rs2 s
  | .fxsub rd rs1 rs2 => Sys2Proof.Machine.execFxsub rd rs1 rs2 s
  | .fxmul rd rs1 rs2 => Sys2Proof.Machine.execFxmul rd rs1 rs2 s
  | .fxdiv rd rs1 rs2 => Sys2Proof.Machine.execFxdiv rd rs1 rs2 s
  | .fxneg rd rs1 => Sys2Proof.Machine.execFxneg rd rs1 s
  | .fxrcp rd rs1 => Sys2Proof.Machine.execFxrcp rd rs1 s
  | .fxabs rd rs1 => Sys2Proof.Machine.execFxabs rd rs1 s
  | .fxsqrt rd rs1 => Sys2Proof.Machine.execFxsqrt rd rs1 s
  | .fxlog2 rd rs1 => Sys2Proof.Machine.execFxlog2 rd rs1 s
  | .fxln rd rs1 => Sys2Proof.Machine.execFxln rd rs1 s
  | .fxlog10 rd rs1 => Sys2Proof.Machine.execFxlog10 rd rs1 s
  | .fxexp2 rd rs1 => Sys2Proof.Machine.execFxexp2 rd rs1 s
  | .fxexp rd rs1 => Sys2Proof.Machine.execFxexp rd rs1 s
  | .fxexp10 rd rs1 => Sys2Proof.Machine.execFxexp10 rd rs1 s
  | .fxpow rd rs1 rs2 => Sys2Proof.Machine.execFxpow rd rs1 rs2 s
  | .fxacos rd rs1 => Sys2Proof.Machine.execFxacos rd rs1 s

end Sys2Proof.Machine
end

