-- ==== Sys2Proof/Machine/Port.lean ====
section
/-! DEFINITION. The host port (20_memory.md): HostWrite, HostRead, Issue and Reset, the handshake of R70, and
one step of the unit (70_reset_and_hazards.md R300, R304, R305). -/

namespace Sys2Proof.Machine

/-- The operand register a host index names, 0 to 7 (10_state.md R51). -/
def hostReg (idx : HostIndex) : Option Reg :=
  if idx.toNat < 8 then some (Reg.ofBits (idx.extractLsb' 0 3)) else none

/-- 20_memory.md R60, R63: the word a HostRead returns; `none` for a reserved index (R64). -/
def hostReadWord (s : State) (idx : HostIndex) : Option Word :=
  match hostReg idx with
  | some r => some (s.x.get r)
  | none =>
    if idx = 8 then some (errWord s.err)
    else if idx = 9 then some (fsrWord s.fsr)
    else if idx = 10 then some (cfgWord s.cfg)
    else none

/-- R63: a read has no side effect on the unit; the word goes to the host. -/
def hostRead (idx : HostIndex) (s : State) : Host.Outcome State Fault Refusal :=
  match hostReadWord s idx with
  | some v => .next { s with reply := some v }
  | none => .refused (.reservedHostIndex idx)

/-- R305: indices 0 to 7 write Xi. R64: 8 to 10 are ignored, 11 to 15 are refused. -/
def hostWrite (idx : HostIndex) (v : Word) (s : State) : Host.Outcome State Fault Refusal :=
  match hostReg idx with
  | some r => .next (writeX r v s)
  | none =>
    if idx.toNat ≤ 10 then .next s
    else .refused (.reservedHostIndex idx)

/-- R300: the unit's part of the state after `Reset()`; CFG is hardwired, and the host's operations
still waiting and its last reply are not the unit's: DESIGN CHOICE (safe, log entry 14). -/
def resetUnit (s : State) : State :=
  { State.resetOf s.cfg with port := s.port, reply := s.reply }

/-- R304: the execution of an accepted command word, in STATE = BUSY. An illegal word raises
Fault(ILLEGAL_OP) and is recorded as issued. -/
def runCommand (w : CmdWord) (s : State) : Host.Outcome State Fault Refusal :=
  match decode s.cfg w with
  | .error _ => .next (takeFault .illegalOp w s)
  | .ok i => exec i s

/-- R304, R70: an Issue is accepted in IDLE and runs to its end in the same step; in HALTED it is
accepted and discarded (60_exceptions.md R273). In BUSY the port holds it (`portStep`). -/
def issue (w : CmdWord) (s : State) : Host.Outcome State Fault Refusal :=
  match s.unit with
  | .halted => .next s
  | .idle | .busy _ => runCommand w { s with unit := .busy w }

/-- One host operation, when the port does not hold it. -/
def hostOp (op : HostOp) (s : State) : Host.Outcome State Fault Refusal :=
  match op with
  | .hostWrite idx v => hostWrite idx v s
  | .hostRead idx => hostRead idx s
  | .issue w => issue w s
  | .reset => .next (resetUnit s)

/-- One step: a BUSY unit finishes its command, holding the port (20_memory.md R70), unless a reset comes
first at the port, which abandons the command (R300): DEDUCED (safe, log entry 18). Otherwise the oldest
waiting host operation is served, and with none waiting the unit stays as it is (R301). -/
def portStep (s : State) : Host.Outcome State Fault Refusal :=
  match rejectConfig s.cfg with
  | some why => .refused (.notElaborated why)
  | none =>
    match s.unit, s.port with
    | .busy _, .reset :: rest => .next (resetUnit { s with port := rest })
    | .busy w, _ => runCommand w s
    | _, [] => .next s
    | _, op :: rest => hostOp op { s with port := rest }

/-- The command word an instruction of `nbits` bits numbered as the opcode table numbers them is
(30_encoding.md R80): the bits at or above `nbits` are 0. -/
def tableWord (nbits w : Nat) : CmdWord := BitVec.ofNat 32 (w % 2 ^ nbits)

end Sys2Proof.Machine
end

