-- ==== Sys2Proof/Machine/Step.lean ====
section
/-! DEFINITION. The step function, and how a command comes to be the next one to run. -/

namespace Sys2Proof.Machine

/-- One step of the unit (70_reset_and_hazards.md R304). -/
def step (s : State) : Host.Outcome State Fault Refusal := portStep s

/-- The host issues the table word next (20_memory.md R60): it stands before every other operation that
waits at the port. The unit fetches nothing itself (10_state.md R46): DESIGN CHOICE (safe, log entry 3). -/
def State.withFetchWord (s : State) (nbits w : Nat) : State :=
  { s with port := .issue (tableWord nbits w) :: s.port }

end Sys2Proof.Machine
end

