-- ==== Sys2Proof/Machine/Assembly.lean ====
section
/-! DEFINITION. The assembler syntax of a command (30_encoding.md R90) with its format names (00_scope.md
R14), and the expansions of the pseudo-instructions (30_encoding.md R91, R92). -/

namespace Sys2Proof.Machine

/-- R90: registers are `x0` to `x7`. -/
def regName : Reg → String
  | .x0 => "x0" | .x1 => "x1" | .x2 => "x2" | .x3 => "x3"
  | .x4 => "x4" | .x5 => "x5" | .x6 => "x6" | .x7 => "x7"

/-- R14: `sI.F` or `uI.F`, with T = I + F. -/
def formatName (d : Desc) : String :=
  (match d.s with | .signed => "s" | .unsigned => "u") ++ Nat.repr (d.t - d.f) ++ "." ++ Nat.repr d.f

/-- R90: `mnemonic[.nu] operand, operand, …`. -/
def asmLine (mnemonic : String) (nu : Bool) (operands : List String) : String :=
  mnemonic ++ (if nu then ".nu" else "") ++ " " ++ ", ".intercalate operands

/-- R90: rd, rs1. -/
def asmUnary (m : String) (rd rs1 : Reg) (nu : Bool := false) : String :=
  asmLine m nu [regName rd, regName rs1]

/-- R90: rd, rs1, rs2. -/
def asmBinary (m : String) (rd rs1 rs2 : Reg) (nu : Bool := false) : String :=
  asmLine m nu [regName rd, regName rs1, regName rs2]

/-- R90: rd, rs1, descriptor. -/
def asmConvert (m : String) (rd rs1 : Reg) (d : Desc) (nu : Bool) : String :=
  asmLine m nu [regName rd, regName rs1, formatName d]

/-- R90: the assembler text of a command. DESIGN CHOICE (safe, log entry 19): printed, not parsed. -/
def asm : Instr → String
  | .fxraw rd rs1 => asmUnary "fxraw" rd rs1
  | .fxfromi rd rs1 => asmUnary "fxfromi" rd rs1
  | .fxfromf rd rs1 nu => asmUnary "fxfromf" rd rs1 nu
  | .fxidiv rd rs1 rs2 nu => asmBinary "fxidiv" rd rs1 rs2 nu
  | .fxdivi rd rs1 rs2 nu => asmBinary "fxdivi" rd rs1 rs2 nu
  | .fxcvtin rd rs1 d nu => asmConvert "fxcvtin" rd rs1 d nu
  | .fxcvtout rd rs1 d nu => asmConvert "fxcvtout" rd rs1 d nu
  | .fxtoi rd rs1 => asmUnary "fxtoi" rd rs1
  | .fxtof rd rs1 => asmUnary "fxtof" rd rs1
  | .fxispos rd rs1 => asmUnary "fxispos" rd rs1
  | .fxisneg rd rs1 => asmUnary "fxisneg" rd rs1
  | .fxisnneg rd rs1 => asmUnary "fxisnneg" rd rs1
  | .fxiszero rd rs1 => asmUnary "fxiszero" rd rs1
  | .fxeq rd rs1 rs2 => asmBinary "fxeq" rd rs1 rs2
  | .fxne rd rs1 rs2 => asmBinary "fxne" rd rs1 rs2
  | .fxlt rd rs1 rs2 => asmBinary "fxlt" rd rs1 rs2
  | .fxle rd rs1 rs2 => asmBinary "fxle" rd rs1 rs2
  | .fxadd rd rs1 rs2 => asmBinary "fxadd" rd rs1 rs2
  | .fxsub rd rs1 rs2 => asmBinary "fxsub" rd rs1 rs2
  | .fxmul rd rs1 rs2 => asmBinary "fxmul" rd rs1 rs2
  | .fxdiv rd rs1 rs2 => asmBinary "fxdiv" rd rs1 rs2
  | .fxneg rd rs1 => asmUnary "fxneg" rd rs1
  | .fxrcp rd rs1 => asmUnary "fxrcp" rd rs1
  | .fxabs rd rs1 => asmUnary "fxabs" rd rs1
  | .fxsqrt rd rs1 => asmUnary "fxsqrt" rd rs1
  | .fxlog2 rd rs1 => asmUnary "fxlog2" rd rs1
  | .fxln rd rs1 => asmUnary "fxln" rd rs1
  | .fxlog10 rd rs1 => asmUnary "fxlog10" rd rs1
  | .fxexp2 rd rs1 => asmUnary "fxexp2" rd rs1
  | .fxexp rd rs1 => asmUnary "fxexp" rd rs1
  | .fxexp10 rd rs1 => asmUnary "fxexp10" rd rs1
  | .fxpow rd rs1 rs2 => asmBinary "fxpow" rd rs1 rs2
  | .fxacos rd rs1 => asmUnary "fxacos" rd rs1

/-- R92: the base command of a scalar form. -/
def scalarInstr : ScalarOp → Reg → Reg → Reg → Instr
  | .add => .fxadd | .sub => .fxsub | .mul => .fxmul | .div => .fxdiv

/-- R91, R92: the commands a pseudo-instruction stands for, in order. The scalar forms overwrite the
scalar register with its conversion. -/
def expand : Pseudo → List Instr
  | .fxmov rd rs => [.fxraw rd rs]
  | .fxgt rd a b => [.fxlt rd b a]
  | .fxge rd a b => [.fxle rd b a]
  | .fxone rd rt => [.fxfromi rd rt]
  | .valInt op rd rv rk => [.fxfromi rk rk, scalarInstr op rd rv rk]
  | .intVal op rd rk rv => [.fxfromi rk rk, scalarInstr op rd rk rv]
  | .valFloat op rd rv rk => [.fxfromf rk rk false, scalarInstr op rd rv rk]
  | .floatVal op rd rk rv => [.fxfromf rk rk false, scalarInstr op rd rk rv]

/-- The host issues the words of `is` one after the other (20_memory.md R60). -/
def issueAll (is : List Instr) : List HostOp := is.map fun i => .issue (encode i)

end Sys2Proof.Machine
end

