-- ==== Sys2Proof/Safety.lean ====
section
/-! DEFINITION. What counts as a safe run: the state invariant (10_state.md R49, R50, 60_exceptions.md R277),
the format precondition and the operands of each command, and `strictStep`, which stops with UNINIT where
10_state.md R53 and 60_exceptions.md R274, R279 have a model stop. -/

namespace Sys2Proof.Safety

open Sys2Proof.Machine

/-- R277: the only records ERR ever holds. -/
abbrev KnownRecord (e : ErrRecord) : Prop :=
  e = ErrRecord.ok ∨ e = errZeroArgument ∨ e = errNegativeArgument

/-- The unit is elaborated (00_scope.md R6), HALTED ⇔ FAULT = 1 (10_state.md R49), and ERR holds one of the
records of R277. -/
abbrev Inv (s : State) : Prop :=
  Admitted s.cfg ∧ (s.unit = .halted ↔ s.fsr.isSome = true) ∧ KnownRecord s.err

/-- The operand registers a command reads, in the order its rule reads them. -/
def reads : Instr → List Reg
  | .fxraw _ a | .fxfromi _ a | .fxfromf _ a _ => [a]
  | .fxidiv _ a b _ | .fxdivi _ a b _ => [a, b]
  | .fxcvtin _ a _ _ | .fxcvtout _ a _ _ => [a]
  | .fxtoi _ a | .fxtof _ a => [a]
  | .fxispos _ a | .fxisneg _ a | .fxisnneg _ a | .fxiszero _ a => [a]
  | .fxeq _ a b | .fxne _ a b | .fxlt _ a b | .fxle _ a b => [a, b]
  | .fxadd _ a b | .fxsub _ a b | .fxmul _ a b | .fxdiv _ a b => [a, b]
  | .fxneg _ a | .fxrcp _ a | .fxabs _ a => [a]
  | .fxsqrt _ a | .fxlog2 _ a | .fxln _ a | .fxlog10 _ a => [a]
  | .fxexp2 _ a | .fxexp _ a | .fxexp10 _ a => [a]
  | .fxpow _ a b => [a, b]
  | .fxacos _ a => [a]

/-- 43_elementary.md R210(b): the format precondition; the other commands have none. -/
def formatOk (fm : Format) : Instr → Bool
  | .fxsqrt _ _ => sqrtFormat fm
  | .fxlog2 _ _ | .fxln _ _ | .fxlog10 _ _ | .fxpow _ _ _ => logFormat fm
  | .fxexp2 _ _ | .fxexp _ _ => expFormat fm
  | .fxexp10 _ _ => exp10Format fm
  | .fxacos _ _ => acosFormat fm
  | .fxraw _ _ | .fxfromi _ _ | .fxfromf _ _ _ | .fxidiv _ _ _ _ | .fxdivi _ _ _ _ => true
  | .fxcvtin _ _ _ _ | .fxcvtout _ _ _ _ | .fxtoi _ _ | .fxtof _ _ => true
  | .fxispos _ _ | .fxisneg _ _ | .fxisnneg _ _ | .fxiszero _ _ => true
  | .fxeq _ _ _ | .fxne _ _ _ | .fxlt _ _ _ | .fxle _ _ _ => true
  | .fxadd _ _ _ | .fxsub _ _ _ | .fxmul _ _ _ | .fxdiv _ _ _ => true
  | .fxneg _ _ | .fxrcp _ _ | .fxabs _ _ => true

/-- R274: the first operand a command reads that has not been written since reset; none where an
ILLEGAL_OP or FMT_UNSUPPORTED comes first. -/
def uninitOperand (w : CmdWord) (s : State) : Option Reg :=
  match decode s.cfg w with
  | .error _ => none
  | .ok i =>
    if formatOk s.cfg.toFormat i then (reads i).find? fun r => !s.written.get r else none

/-- R53: the unwritten register the next step would read, in a command or in a HostRead. -/
def uninitRead (s : State) : Option Reg :=
  match s.unit, s.port with
  | .busy _, .reset :: _ => none
  | .busy w, _ => uninitOperand w s
  | .idle, .issue w :: _ => uninitOperand w s
  | .idle, .hostRead idx :: _ | .halted, .hostRead idx :: _ =>
    match hostReg idx with
    | some r => if s.written.get r then none else some r
    | none => none
  | _, _ => none

/-- R53, R279: the step of a model that stops with UNINIT instead of reading a register that holds an
UNSPECIFIED value. A run of `strictStep` rests on no reset value of X0 to X7. -/
def strictStep (s : State) : Host.Outcome State Fault Refusal :=
  match rejectConfig s.cfg, uninitRead s with
  | none, some r => .fault (.uninit r)
  | _, _ => step s

end Sys2Proof.Safety
end

