-- ==== Sys2Proof/Certificates/Slice0/Obligations.lean ====
section
/-! DEFINITION. What is claimed of the model, statement by statement. `Sys2Proof.Spec` holds the words the
statements are written in: the spec's mathematics over Nat, Int and Rat, apart from the model's own
definitions. An `Admitted` hypothesis is 00_scope.md R6; every statement ranges over every format, policy
and parameter that R6 admits. -/

namespace Sys2Proof.Spec

open Sys2Proof.Machine

/-! ## How a command ends -/

/-- The command completes: rd holds `v`, ERR is `e`, STATE is IDLE, and NOTHING ELSE changes (its frame):
every other X register, FSR, CFG, the port and the reply are as before, and rd alone counts as newly
written. The FXU has no memory, no flags and no program counter. -/
def Completes (i : Instr) (s : State) (rd : Reg) (v : Word) (e : ErrRecord) : Prop :=
  ∃ t, exec i s = .next t ∧ t.x.get rd = v ∧ (∀ r, r ≠ rd → t.x.get r = s.x.get r) ∧
    (∀ r, t.written.get r = (s.written.get r || decide (r = rd))) ∧ t.err = e ∧ t.fsr = s.fsr ∧
    t.unit = .idle ∧ t.cfg = s.cfg ∧ t.port = s.port ∧ t.reply = s.reply

/-- The command raises Fault(`c`) (60_exceptions.md R272): FSR and STATE change, and nothing else. -/
def Faults (i : Instr) (s : State) (c : Cause) : Prop :=
  exec i s = .next { s with fsr := some ⟨c, encode i⟩, unit := .halted }

/-! ## Values -/

/-- The raw value a register holds for the unit's format: its T low bits (R34, R37). -/
def raw (s : State) (r : Reg) : Nat := (s.x.get r).toNat % 2 ^ s.cfg.t

/-- An exact integer reduced mod 2^T (R37). -/
def red (c : Config) (v : Int) : Nat := (v % 2 ^ c.t).toNat

/-- An exact integer reduced mod 2^T and written zero-extended (R35, R37). -/
def asWord (c : Config) (v : Int) : Word := BitVec.ofInt 64 (v % 2 ^ c.t)

/-- n-bit two's complement (R9). -/
def twos (n v : Nat) : Int := if 2 * v < 2 ^ n then (v : Int) else (v : Int) - 2 ^ n

/-- The numeric value in units of 2^−F (R38). -/
def tv (c : Config) (r : Nat) : Int := if c.s = .signed then twos c.t r else r

/-- The integer reading of a raw value of a format (R39). -/
def reading (ssr : SubwidthRead) (fm : Format) (r : Nat) : Int :=
  if fm.s = .signed ∧ (fm.t = fm.w ∨ ssr = .active) then twos fm.t r else r

/-- The integer reading in the unit's own format (R39). -/
def iv (c : Config) (r : Nat) : Int := reading c.subwidthRead c.toFormat r

/-- A truncated quantity `q` whose exact quantity has sign `s`, under the no-underflow flag (R117). -/
def forced (nu : Bool) (q s : Int) : Int := if nu = true ∧ q = 0 then s else q

/-- Magnitude whole bits: I_m ≥ n (R32). -/
def WholeBits (c : Config) (n : Nat) : Prop :=
  match c.s with
  | .signed => c.f + 1 + n ≤ c.t
  | .unsigned => c.f + n ≤ c.t

/-- The smallest of 8, 16, 32, 64 that is at least n (R33). -/
def selWidth (n : Nat) : Nat := ([8, 16, 32, 64].find? fun w => decide (n ≤ w)).getD 64

/-- The foreign format of a descriptor (R12). -/
def foreign (d : Desc) : Format := ⟨selWidth d.t, d.t, d.f, d.s⟩

/-- A legal descriptor (R83, R84). -/
def LegalDesc (c : Config) (d : Desc) : Prop := 1 ≤ d.t ∧ d.f ≤ d.t ∧ d.t ≤ c.w

/-- A value of fs fractional bits in fd fractional bits, truncated toward zero (R116, R117). -/
def rescale (fs fd : Nat) (nu : Bool) (v : Int) : Int :=
  forced nu (if fs ≤ fd then v * 2 ^ (fd - fs) else v.tdiv (2 ^ (fs - fd))) v.sign

/-! ## Binary64 (R15), as rationals -/

/-- The exponent field is all ones: NaN or an infinity. -/
def NotFinite (d : Word) : Prop := d.toNat / 2 ^ 52 % 2048 = 2047

/-- The exact value of a finite pattern: IEEE 754's, PRESUMED (log entry 6). -/
def floatVal (d : Word) : Rat :=
  (if d.toNat / 2 ^ 63 = 1 then -1 else 1) *
    (if d.toNat / 2 ^ 52 % 2048 = 0 then (d.toNat % 2 ^ 52 : Nat) else (d.toNat % 2 ^ 52 + 2 ^ 52 : Nat)) *
    (2 : Rat) ^ ((max (d.toNat / 2 ^ 52 % 2048) 1 : Nat) - 1075 : Int)

/-- Truncation toward zero. -/
def truncQ (p : Rat) : Int := if 0 ≤ p then ⌊p⌋ else ⌈p⌉

/-- −1, 0 or +1. -/
def signQ (p : Rat) : Int := if p = 0 then 0 else if p < 0 then -1 else 1

/-- A binary64 constant in the unit's format (R113); its value is IEEE 754's, PRESUMED (log entry 6). -/
def cfq (c : Config) (d : Word) : Nat := red c (truncQ (floatVal d * 2 ^ c.f))

/-- The range of the backing storage integer (R112). -/
def InBacking (c : Config) (t : Int) : Prop :=
  match c.s with
  | .signed => -2 ^ (c.w - 1) ≤ t ∧ t ≤ 2 ^ (c.w - 1) - 1
  | .unsigned => 0 ≤ t ∧ t ≤ 2 ^ c.w - 1

/-! ## Arithmetic on raw values -/

/-- The sum under the policy: mod 2^T, or clamped to the representable range (R165). -/
def addq (c : Config) (a b : Nat) : Nat :=
  match c.policy, c.s with
  | .sat, .signed => red c (max (-2 ^ (c.t - 1)) (min (tv c a + tv c b) (2 ^ (c.t - 1) - 1)))
  | .sat, .unsigned => min (a + b) (2 ^ c.t - 1)
  | _, _ => red c (tv c a + tv c b)

/-- The floor-shifted product mod 2^T (R180). -/
def mulq (c : Config) (a b : Nat) : Nat := red c (iv c a * iv c b / 2 ^ c.f)

/-- The truncated quotient mod 2^T, for a divisor that is not zero (R181). -/
def divq (c : Config) (a b : Nat) : Nat := red c ((iv c a * 2 ^ c.f).tdiv (iv c b))

/-! ## Elementary functions, without the early exits -/

/-- The Newton iterates X_0 = x, X_{n+1} = floor((X_n + x/X_n) / 2) (R212, R213). -/
def newton (c : Config) (x : Nat) : Nat → Nat
  | 0 => x
  | n + 1 => red c (iv c (addq c (newton c x n) (divq c x (newton c x n))) / 2)

/-- No iterate that the iteration divides by is zero. -/
def NewtonRuns (c : Config) (x : Nat) : Prop := ∀ n < c.sqrtIterMax, newton c x n ≠ 0

/-- The `n` fraction bits Turner's recurrence gives from z in [2^f, 2^(f+1)), most significant first:
square, and halve when the square reaches 2.0 (R214, R215). -/
def turnerBits (f : Nat) : Nat → Nat → Nat
  | 0, _ => 0
  | n + 1, z =>
    if 2 ^ (f + 1) ≤ z * z / 2 ^ f then 2 ^ n + turnerBits f n (z * z / 2 ^ f / 2)
    else turnerBits f n (z * z / 2 ^ f)

/-- The exact logarithm sum of a positive raw value in units of 2^−F: the position of the leading bit
above bit F, and the F fraction bits of the value scaled into [1, 2) (R214). -/
def log2q (f x : Nat) : Int :=
  ((x.log2 : Int) - f) * 2 ^ f +
    turnerBits f f (if x.log2 ≤ f then x * 2 ^ (f - x.log2) else x / 2 ^ (x.log2 - f))

/-- Term n of the exponential series in units of 2^−F: term_n = term_{n−1} · q / n (R218). -/
def taylorTerm (f q : Nat) : Nat → Nat
  | 0 => 2 ^ f
  | n + 1 => taylorTerm f q n * q / 2 ^ f / (n + 1)

/-- The sum of the terms 0..n, added under the policy (R218). -/
def taylorq (c : Config) (q : Nat) : Nat → Nat
  | 0 => 2 ^ c.f
  | n + 1 => addq c (taylorq c q n) (taylorTerm c.f q (n + 1))

/-- The product of 2^i and the series of the fraction, for a magnitude a = i + fraction; all F + 2 terms
that R223 allows are added (R218). -/
def exp2q (c : Config) (a : Nat) : Nat :=
  mulq c (red c (2 ^ (c.f + a / 2 ^ c.f)))
    (taylorq c (cfq c 0x3FE62E42FEFA39EF#64 * (a % 2 ^ c.f) / 2 ^ c.f) (c.f + 2))

/-- How a command that ends in exp2 of the raw value `x` ends (R218): the product for x ≥ 0, its
reciprocal for x < 0, and DIV_ZERO where that product is 0. -/
def EndsAsExp2 (i : Instr) (s : State) (rd : Reg) (x : Nat) : Prop :=
  (0 ≤ tv s.cfg x → Completes i s rd (BitVec.ofNat 64 (exp2q s.cfg x)) ErrRecord.ok) ∧
  (tv s.cfg x < 0 → exp2q s.cfg (red s.cfg (-x)) ≠ 0 →
    Completes i s rd (BitVec.ofNat 64 (divq s.cfg (2 ^ s.cfg.f) (exp2q s.cfg (red s.cfg (-x)))))
      ErrRecord.ok) ∧
  (tv s.cfg x < 0 → exp2q s.cfg (red s.cfg (-x)) = 0 → Faults i s .divZero)

/-- Horner's rule with the four acos constants (R222). -/
def acosq (c : Config) (ax : Nat) : Nat :=
  addq c (mulq c (addq c (mulq c (addq c (mulq c (cfq c c.acosD) ax) (cfq c c.acosC)) ax)
    (cfq c c.acosB)) ax) (cfq c c.acosA)

/-! ## Pseudo-instructions (R91, R92) -/

/-- The value of a scalar form's base command on two raw values; `none` where it raises DIV_ZERO. -/
def scalarq (c : Config) : ScalarOp → Nat → Nat → Option Nat
  | .add, a, b => some (addq c a b)
  | .sub, a, b => some (red c (tv c a - tv c b))
  | .mul, a, b => some (mulq c a b)
  | .div, a, b => if b = 0 then none else some (divq c a b)

/-- The raw value `r` holds once the scalar register `rk` holds the conversion `k`. -/
def rawAfter (s : State) (rk : Reg) (k : Int) (r : Reg) : Nat :=
  if r = rk then red s.cfg k else raw s r

/-- How the two commands of a scalar form end, when the scalar converts to `k` (in units of 2^−F): rk holds
the conversion, rd then the operator's value on rs1 and rs2; or the division faults, with rk converted and
rd unwritten. NOTHING ELSE changes: every other X register, ERR, FSR (but for the fault), CFG and the reply
are as before, and the operations after the two Issues still wait. -/
def EndsAsScalar (s : State) (rest : List HostOp) (op : ScalarOp) (rd rs1 rs2 rk : Reg) (k : Int) : Prop :=
  match scalarq s.cfg op (rawAfter s rk k rs1) (rawAfter s rk k rs2) with
  | some v =>
    Sys2Proof.core.run 2 s = .next { s with x := (s.x.set rk (asWord s.cfg k)).set rd (BitVec.ofNat 64 v), written := (s.written.set rk true).set rd true, unit := .idle, port := rest }
  | none =>
    Sys2Proof.core.run 2 s = .next { s with x := s.x.set rk (asWord s.cfg k), written := s.written.set rk true, fsr := some ⟨.divZero, encode (.fxdiv rd rs1 rs2)⟩, unit := .halted, port := rest }

/-- How a scalar form with a binary64 scalar ends: as above for a scalar in range, and else with FP_RANGE of
the conversion, after which the unit is HALTED and discards the second Issue (R112, R273). -/
def EndsAsFloatScalar (s : State) (rest : List HostOp) (op : ScalarOp) (rd rs1 rs2 rk : Reg) : Prop :=
  (¬NotFinite (s.x.get rk) → InBacking s.cfg (truncQ (floatVal (s.x.get rk) * 2 ^ s.cfg.f)) →
    EndsAsScalar s rest op rd rs1 rs2 rk (truncQ (floatVal (s.x.get rk) * 2 ^ s.cfg.f))) ∧
  (NotFinite (s.x.get rk) ∨ ¬InBacking s.cfg (truncQ (floatVal (s.x.get rk) * 2 ^ s.cfg.f)) →
    Sys2Proof.core.run 2 s = .next { s with fsr := some ⟨.fpRange, encode (.fxfromf rk rk false)⟩, unit := .halted, port := rest })

/-- One command from the port completes with rd = `v`, and NOTHING ELSE changes. -/
def EndsWith (s : State) (rest : List HostOp) (rd : Reg) (v : Word) : Prop :=
  Sys2Proof.core.run 1 s = .next { s with x := s.x.set rd v, written := s.written.set rd true, unit := .idle, port := rest }

/-! ## Words -/

/-- The opcodes of R86. -/
def opcodes : List Nat :=
  [0x01, 0x02, 0x03, 0x04, 0x05, 0x06, 0x07, 0x08, 0x09, 0x10, 0x11, 0x12, 0x13, 0x14, 0x15, 0x16, 0x17,
   0x20, 0x21, 0x22, 0x23, 0x24, 0x25, 0x26, 0x30, 0x31, 0x32, 0x33, 0x34, 0x35, 0x36, 0x37, 0x38]

/-- The opcodes whose row of R86 uses rs2. -/
def rs2Ops : List Nat := [0x04, 0x05, 0x14, 0x15, 0x16, 0x17, 0x20, 0x21, 0x22, 0x23, 0x37]

/-- The opcodes whose row of R86 uses nu. -/
def nuOps : List Nat := [0x03, 0x04, 0x05, 0x06, 0x07]

/-- The X-format opcodes (R83). -/
def xOps : List Nat := [0x06, 0x07]

/-- Bits hi..lo of a word, `w[hi:lo]` with `n` = hi − lo + 1 (R8). -/
def bits (w : CmdWord) (lo n : Nat) : Nat := w.toNat / 2 ^ lo % 2 ^ n

/-- The illegal words of R87. -/
def IllegalWord (c : Config) (w : CmdWord) : Prop :=
  bits w 0 8 ∉ opcodes ∨
  (bits w 0 8 ∉ xOps ∧ bits w 18 14 ≠ 0) ∨
  (bits w 0 8 ∈ xOps ∧ bits w 14 3 ≠ 0) ∨
  (bits w 0 8 ∉ xOps ∧ bits w 0 8 ∉ rs2Ops ∧ bits w 14 3 ≠ 0) ∨
  (bits w 0 8 ∉ nuOps ∧ bits w 17 1 ≠ 0) ∨
  (bits w 0 8 ∈ xOps ∧ (bits w 19 6 + 1 < bits w 25 7 ∨ c.w < bits w 19 6 + 1))

/-- The host index of an operand register (R51). -/
def indexOf : Reg → HostIndex
  | .x0 => 0 | .x1 => 1 | .x2 => 2 | .x3 => 3 | .x4 => 4 | .x5 => 5 | .x6 => 6 | .x7 => 7

/-- The place value of a format R word: op, rd, rs1, rs2 (or 0) and nu (or false) as R82 places them. -/
def wordR (op : Nat) (rd rs1 : Reg) (rs2 : Nat) (nu : Bool) : Nat :=
  op + (indexOf rd).toNat * 2 ^ 8 + (indexOf rs1).toNat * 2 ^ 11 + rs2 * 2 ^ 14 +
    (if nu then 2 ^ 17 else 0)

/-- The place value of a format X word: op, rd, rs1, nu and the descriptor as R83 places them. -/
def wordX (op : Nat) (rd rs1 : Reg) (d : Desc) (nu : Bool) : Nat :=
  op + (indexOf rd).toNat * 2 ^ 8 + (indexOf rs1).toNat * 2 ^ 11 + (if nu then 2 ^ 17 else 0) +
    (if d.s = .signed then 2 ^ 18 else 0) + (d.t - 1) * 2 ^ 19 + d.f * 2 ^ 25

/-- Each row of R86: its number, its format, and 0 in each field it does not use. -/
def wordOf : Instr → Nat
  | .fxraw d a => wordR 0x01 d a 0 false
  | .fxfromi d a => wordR 0x02 d a 0 false
  | .fxfromf d a nu => wordR 0x03 d a 0 nu
  | .fxidiv d a b nu => wordR 0x04 d a (indexOf b).toNat nu
  | .fxdivi d a b nu => wordR 0x05 d a (indexOf b).toNat nu
  | .fxcvtin d a fm nu => wordX 0x06 d a fm nu
  | .fxcvtout d a fm nu => wordX 0x07 d a fm nu
  | .fxtoi d a => wordR 0x08 d a 0 false
  | .fxtof d a => wordR 0x09 d a 0 false
  | .fxispos d a => wordR 0x10 d a 0 false
  | .fxisneg d a => wordR 0x11 d a 0 false
  | .fxisnneg d a => wordR 0x12 d a 0 false
  | .fxiszero d a => wordR 0x13 d a 0 false
  | .fxeq d a b => wordR 0x14 d a (indexOf b).toNat false
  | .fxne d a b => wordR 0x15 d a (indexOf b).toNat false
  | .fxlt d a b => wordR 0x16 d a (indexOf b).toNat false
  | .fxle d a b => wordR 0x17 d a (indexOf b).toNat false
  | .fxadd d a b => wordR 0x20 d a (indexOf b).toNat false
  | .fxsub d a b => wordR 0x21 d a (indexOf b).toNat false
  | .fxmul d a b => wordR 0x22 d a (indexOf b).toNat false
  | .fxdiv d a b => wordR 0x23 d a (indexOf b).toNat false
  | .fxneg d a => wordR 0x24 d a 0 false
  | .fxrcp d a => wordR 0x25 d a 0 false
  | .fxabs d a => wordR 0x26 d a 0 false
  | .fxsqrt d a => wordR 0x30 d a 0 false
  | .fxlog2 d a => wordR 0x31 d a 0 false
  | .fxln d a => wordR 0x32 d a 0 false
  | .fxlog10 d a => wordR 0x33 d a 0 false
  | .fxexp2 d a => wordR 0x34 d a 0 false
  | .fxexp d a => wordR 0x35 d a 0 false
  | .fxexp10 d a => wordR 0x36 d a 0 false
  | .fxpow d a b => wordR 0x37 d a (indexOf b).toNat false
  | .fxacos d a => wordR 0x38 d a 0 false

/-! ## What the next step reads, from the word and the port alone -/

/-- The next step runs the command of word `w`: the one in execution, unless a reset comes first, or the
one the oldest waiting operation issues to an IDLE unit (R70, R300, R304). -/
def RunsNext (s : State) (w : CmdWord) : Prop :=
  (s.unit = .busy w ∧ s.port.head? ≠ some .reset) ∨
    (s.unit = .idle ∧ s.port.head? = some (.issue w))

/-- The format precondition of R210(b) for the word's opcode; the other opcodes have none. -/
def FormatHolds (c : Config) (w : CmdWord) : Prop :=
  (bits w 0 8 = 0x30 → 1 ≤ c.f ∧ WholeBits c 1) ∧
  (bits w 0 8 ∈ [0x31, 0x32, 0x33, 0x36, 0x37] → WholeBits c 2) ∧
  (bits w 0 8 ∈ [0x34, 0x35] → WholeBits c 1) ∧
  (bits w 0 8 = 0x38 → c.s = .signed ∧ 1 ≤ c.f ∧ WholeBits c 2)

/-- The word's operand registers: rs1, and rs2 where its row of R86 uses it (R82, R83). -/
def NamesOperand (w : CmdWord) (r : Reg) : Prop :=
  (indexOf r).toNat = bits w 11 3 ∨ (bits w 0 8 ∈ rs2Ops ∧ (indexOf r).toNat = bits w 14 3)

/-- The next step reads `r`: as an operand of the command it runs, unless the word is illegal or its format
precondition fails, which come before any operand (R274); or for a HostRead of `r`. -/
def ReadsNext (s : State) (r : Reg) : Prop :=
  (∃ w, RunsNext s w ∧ ¬IllegalWord s.cfg w ∧ FormatHolds s.cfg w ∧ NamesOperand w r) ∨
    ((∀ w, s.unit ≠ .busy w) ∧ s.port.head? = some (.hostRead (indexOf r)))

/-- The destination register of a command. -/
def destination : Instr → Reg
  | .fxraw d _ | .fxfromi d _ | .fxfromf d _ _ | .fxidiv d _ _ _ | .fxdivi d _ _ _ => d
  | .fxcvtin d _ _ _ | .fxcvtout d _ _ _ | .fxtoi d _ | .fxtof d _ => d
  | .fxispos d _ | .fxisneg d _ | .fxisnneg d _ | .fxiszero d _ => d
  | .fxeq d _ _ | .fxne d _ _ | .fxlt d _ _ | .fxle d _ _ => d
  | .fxadd d _ _ | .fxsub d _ _ | .fxmul d _ _ | .fxdiv d _ _ => d
  | .fxneg d _ | .fxrcp d _ | .fxabs d _ => d
  | .fxsqrt d _ | .fxlog2 d _ | .fxln d _ | .fxlog10 d _ => d
  | .fxexp2 d _ | .fxexp d _ | .fxexp10 d _ | .fxpow d _ _ | .fxacos d _ => d

/-- The nine elementary commands (R210). -/
def Elementary : Instr → Prop
  | .fxsqrt _ _ | .fxlog2 _ _ | .fxln _ _ | .fxlog10 _ _ => True
  | .fxexp2 _ _ | .fxexp _ _ | .fxexp10 _ _ | .fxpow _ _ _ | .fxacos _ _ => True
  | .fxraw _ _ | .fxfromi _ _ | .fxfromf _ _ _ | .fxidiv _ _ _ _ | .fxdivi _ _ _ _ => False
  | .fxcvtin _ _ _ _ | .fxcvtout _ _ _ _ | .fxtoi _ _ | .fxtof _ _ => False
  | .fxispos _ _ | .fxisneg _ _ | .fxisnneg _ _ | .fxiszero _ _ => False
  | .fxeq _ _ _ | .fxne _ _ _ | .fxlt _ _ _ | .fxle _ _ _ => False
  | .fxadd _ _ _ | .fxsub _ _ _ | .fxmul _ _ _ | .fxdiv _ _ _ => False
  | .fxneg _ _ | .fxrcp _ _ | .fxabs _ _ => False

/-- A command whose result is a fixed-point value of the unit's format: not FXCVTOUT, FXTOI, FXTOF. -/
def FixedPointResult : Instr → Prop
  | .fxcvtout _ _ _ _ | .fxtoi _ _ | .fxtof _ _ => False
  | .fxraw _ _ | .fxfromi _ _ | .fxfromf _ _ _ | .fxidiv _ _ _ _ | .fxdivi _ _ _ _ => True
  | .fxcvtin _ _ _ _ => True
  | .fxispos _ _ | .fxisneg _ _ | .fxisnneg _ _ | .fxiszero _ _ => False
  | .fxeq _ _ _ | .fxne _ _ _ | .fxlt _ _ _ | .fxle _ _ _ => False
  | .fxadd _ _ _ | .fxsub _ _ _ | .fxmul _ _ _ | .fxdiv _ _ _ => True
  | .fxneg _ _ | .fxrcp _ _ | .fxabs _ _ => True
  | .fxsqrt _ _ | .fxlog2 _ _ | .fxln _ _ | .fxlog10 _ _ => True
  | .fxexp2 _ _ | .fxexp _ _ | .fxexp10 _ _ | .fxpow _ _ _ | .fxacos _ _ => True

/-- The legal values of R5 with the bounds of R6. R5 asks a finite binary64 of ACOS_A to ACOS_D; that
ACOS_PI is finite too is DEDUCED (log entry 11). -/
def LegalConfig (c : Config) : Prop :=
  c.f ≤ c.t ∧ c.t ≤ c.w ∧ (c.w = 8 ∨ c.w = 16 ∨ c.w = 32 ∨ c.w = 64) ∧ 1 ≤ c.t ∧
  (c.policy = .wrap ∨ c.policy = .sat) ∧ 1 ≤ c.sqrtIterMax ∧ c.sqrtIterMax ≤ 255 ∧
  ¬NotFinite c.acosA ∧ ¬NotFinite c.acosB ∧ ¬NotFinite c.acosC ∧ ¬NotFinite c.acosD ∧
  ¬NotFinite c.acosPi

/-- A test format of 95_test_vectors.md by (T, F, S, P), with the reference parameters. -/
def unitOf (w t f : Nat) (p : Policy) : Config :=
  { Config.reference with w := w, t := t, f := f, policy := p }

/-- rd and ERR, as read, after a command with `a` in x1. -/
def resultOf (c : Config) (i : Instr) (rd : Reg) (a : Word) : Option (Word × Word) :=
  match exec i { State.resetOf c with x := (State.resetOf c).x.set .x1 a } with
  | .next t => some (t.x.get rd, errWord t.err)
  | _ => none

end Sys2Proof.Spec

open Sys2Proof Sys2Proof.Machine Sys2Proof.Safety Sys2Proof.Spec

/-! ## Encoding -/

/-- R82, R83 with every operand at every value: decoding the encoding of a well-formed command gives it
back. -/
def Obligations.DecodeOfEncodeIsTheCommand : Prop :=
  ∀ (c : Config) (i : Instr), i.wellFormed c = true → decode c (encode i) = .ok i

/-- Each legal word has one meaning and each command one word: a word that decodes is the encoding of a
well-formed command. -/
def Obligations.DecodedWordIsTheEncoding : Prop :=
  ∀ (c : Config) (w : CmdWord) (i : Instr), decode c w = .ok i →
    encode i = w ∧ i.wellFormed c = true

/-- R87: the words the decoder rejects are exactly the illegal ones; the all-zero word is one. -/
def Obligations.IllegalWordsAreThoseListed : Prop :=
  ∀ (c : Config),
    (∀ w : CmdWord, (∃ e, decode c w = .error e) ↔ IllegalWord c w) ∧ IllegalWord c 0

/-- R82, R83, R85 and R86, of every command: bits [7:0] of its word are R86's number for it, rd, rs1, rs2,
nu and the descriptor stand in their places, and a field its row does not use is 0. The last two clauses say
the same of the two layouts by themselves, at every value of every field. -/
def Obligations.FieldsStandAsTheFormatsSay : Prop :=
  (∀ (c : Config) (i : Instr), i.wellFormed c = true → (encode i).toNat = wordOf i) ∧
  (∀ (op : BitVec 8) (rd rs1 : Reg) (rs2 : BitVec 3) (nu : Bool),
    (encodeR op rd rs1 rs2 nu).toNat = wordR op.toNat rd rs1 rs2.toNat nu) ∧
  (∀ (op : BitVec 8) (rd rs1 : Reg) (d : Desc) (nu : Bool), 1 ≤ d.t → d.t ≤ 64 → d.f ≤ 127 →
    (encodeX op rd rs1 d nu).toNat = wordX op.toNat rd rs1 d nu)

/-- Words written out in the spec (30_encoding.md R90; 95_test_vectors.md section 7, V-ENC-7, and section 9,
P5) decode to the commands they stand for by R82, R83, R86 and R88, one of each family, and R90's examples
have R90's text. -/
def Obligations.SpecWordsDecode : Prop :=
  decode Config.reference 0x00008B20#32 = .ok (.fxadd .x3 .x1 .x2) ∧
  decode Config.reference 0x00021103#32 = .ok (.fxfromf .x1 .x2 true) ∧
  decode Config.reference 0x107C1106#32 = .ok (.fxcvtin .x1 .x2 ⟨16, 8, .signed⟩ false) ∧
  decode Config.reference 0x107E2C07#32 = .ok (.fxcvtout .x4 .x5 ⟨16, 8, .signed⟩ true) ∧
  decode Config.reference 0x00003F30#32 = .ok (.fxsqrt .x7 .x7) ∧
  decode Config.reference 0x0000C816#32 = .ok (.fxlt .x0 .x1 .x3) ∧
  decode Config.reference 0x00004B22#32 = .ok (.fxmul .x3 .x1 .x1) ∧
  asm (.fxadd .x3 .x1 .x2) = "fxadd x3, x1, x2" ∧
  asm (.fxfromf .x1 .x2 true) = "fxfromf.nu x1, x2" ∧
  asm (.fxcvtin .x1 .x2 ⟨16, 8, .signed⟩ false) = "fxcvtin x1, x2, s8.8" ∧
  asm (.fxcvtout .x4 .x5 ⟨16, 8, .signed⟩ true) = "fxcvtout.nu x4, x5, s8.8"

/-! ## The step, faults, reset and the host port -/

/-- R304: when an IDLE unit's oldest host operation is the Issue of a word that decodes to `i`, the step is
`exec i`, with the operation taken from the port and STATE = BUSY while it runs. -/
def Obligations.StepRunsTheDecodedCommand : Prop :=
  ∀ (s : State) (w : CmdWord) (rest : List HostOp) (i : Instr), Admitted s.cfg → s.unit = .idle →
    s.port = .issue w :: rest → decode s.cfg w = .ok i →
    step s = exec i { s with port := rest, unit := .busy w }

/-- R87, R272: an illegal word writes nothing but FSR, which records ILLEGAL_OP and the word, and STATE. -/
def Obligations.IllegalWordFaults : Prop :=
  ∀ (s : State) (w : CmdWord) (rest : List HostOp), Admitted s.cfg → s.unit = .idle →
    s.port = .issue w :: rest → IllegalWord s.cfg w →
    step s = .next { s with port := rest, fsr := some ⟨.illegalOp, w⟩, unit := .halted }

/-- R272: whatever fault an issued word raises, FSR records a cause and that very word, STATE is HALTED,
and nothing else is written: no X register and no ERR. As it reads (R44), FSR is FAULT = 1 in bit 0, R271's
code of the cause in [15:8] and the word in [63:32], every other bit 0; and 0 when nothing is recorded. -/
def Obligations.FaultEntryIsPrecise : Prop :=
  (∀ (s t : State) (w : CmdWord) (rest : List HostOp), Admitted s.cfg → s.unit = .idle →
    s.port = .issue w :: rest → step s = .next t → t.unit = .halted →
    ∃ c, t = { s with port := rest, fsr := some ⟨c, w⟩, unit := .halted }) ∧
  (∀ (c : Cause) (w : CmdWord),
    (fsrWord (some ⟨c, w⟩)).toNat = 1 + (match c with
      | .illegalOp => 1 | .divZero => 2 | .fpRange => 3 | .fmtUnsupported => 4 | .sqrtNeg => 5) * 2 ^ 8 +
      w.toNat * 2 ^ 32) ∧
  fsrWord none = 0#64

/-- R304: an issued command either completes, writing rd and perhaps ERR and returning STATE to IDLE, or
faults; a legal one names rd, and every other register, FSR and CFG keep their values. -/
def Obligations.IssueCompletesOrFaults : Prop :=
  ∀ (s : State) (w : CmdWord) (rest : List HostOp) (i : Instr), Admitted s.cfg → s.unit = .idle →
    s.port = .issue w :: rest → decode s.cfg w = .ok i →
    (∃ v e, step s = .next { s with x := s.x.set (destination i) v, written := s.written.set (destination i) true, err := e, unit := .idle, port := rest }) ∨
    ∃ c, step s = .next { s with fsr := some ⟨c, w⟩, unit := .halted, port := rest }

/-- R273: while HALTED an Issue is accepted and discarded. -/
def Obligations.HaltedDiscardsIssue : Prop :=
  ∀ (s : State) (w : CmdWord) (rest : List HostOp), Admitted s.cfg → s.unit = .halted →
    s.port = .issue w :: rest → step s = .next { s with port := rest }

/-- R273: only reset leaves HALTED. Until then FSR holds the first fault, and ERR and CFG keep their
values, whatever the host does. -/
def Obligations.HaltedLastsUntilReset : Prop :=
  ∀ (s t : State), s.unit = .halted → s.port.head? ≠ some .reset → step s = .next t →
    t.unit = .halted ∧ t.fsr = s.fsr ∧ t.err = s.err ∧ t.cfg = s.cfg

/-- R70, R306: a BUSY unit leaves BUSY in one step, in IDLE or in HALTED, and holds every host operation
until then; a reset abandons the command, which then writes nothing (R300).
The model's own choices: BUSY carries the word in execution and no step ends in BUSY, so a BUSY state is a
starting state only (log entry 8); the command takes one step (log entry 5); a Reset behind another waiting
operation waits too (log entry 18); the waiting operations and the last reply survive a Reset (log entry 14);
X0 to X7 are 0 after it (log entry 1). -/
def Obligations.BusyEndsAndHoldsThePort : Prop :=
  ∀ (s : State) (w : CmdWord), Admitted s.cfg → s.unit = .busy w →
    (s.port.head? ≠ some .reset →
      ∃ t, step s = .next t ∧ (t.unit = .idle ∨ t.unit = .halted) ∧ t.port = s.port ∧
        t.reply = s.reply) ∧
    (∀ rest, s.port = .reset :: rest →
      step s = .next { State.resetOf s.cfg with port := rest, reply := s.reply })

/-- The invariant is kept by every step from every state that meets it: the unit stays elaborated,
HALTED ⇔ FAULT = 1 (R49), and ERR holds one of R277's records. CFG never changes (R30). -/
def Obligations.StepKeepsTheInvariant : Prop :=
  ∀ (s t : State), Inv s → step s = .next t → Inv t ∧ t.cfg = s.cfg

/-- The invariant holds right after reset, in every admitted instance and in the reference one. -/
def Obligations.ResetMeetsTheInvariant : Prop :=
  (∀ c : Config, Admitted c → Inv (State.resetOf c)) ∧ Inv State.reset

/-- R300, R55: from any STATE, reset gives ERR = 0x80, FSR = 0 and STATE = IDLE, keeps CFG, and leaves no
register written (the model's own record of writes, log entry 15). Nothing is claimed of the values of X0 to
X7, which are UNSPECIFIED. That the operations waiting behind the Reset survive it is the model's choice (log
entry 14). -/
def Obligations.ResetGivesTheSpecValues : Prop :=
  ∀ (s : State) (rest : List HostOp), Admitted s.cfg → s.port = .reset :: rest →
    ∃ t, step s = .next t ∧ errWord t.err = 0x80#64 ∧ fsrWord t.fsr = 0#64 ∧ t.unit = .idle ∧
      t.cfg = s.cfg ∧ (∀ r, t.written.get r = false) ∧ t.port = rest

/-- R60, R63, R51: a HostRead returns the whole register and changes nothing of the unit, in IDLE and in
HALTED alike. -/
def Obligations.HostReadReturnsTheRegister : Prop :=
  ∀ (s : State) (idx : HostIndex) (rest : List HostOp), Admitted s.cfg → (∀ w, s.unit ≠ .busy w) →
    s.port = .hostRead idx :: rest →
    (∀ r, idx = indexOf r →
      step s = .next { s with port := rest, reply := some (s.x.get r) }) ∧
    (idx = 8 → step s = .next { s with port := rest, reply := some (errWord s.err) }) ∧
    (idx = 9 → step s = .next { s with port := rest, reply := some (fsrWord s.fsr) }) ∧
    (idx = 10 → step s = .next { s with port := rest, reply := some (cfgWord s.cfg) })

/-- R305: a HostWrite to 0..7 sets that register, counts as its write, and changes nothing else. -/
def Obligations.HostWriteSetsTheOperandRegister : Prop :=
  ∀ (s : State) (r : Reg) (v : Word) (rest : List HostOp), Admitted s.cfg →
    (∀ w, s.unit ≠ .busy w) → s.port = .hostWrite (indexOf r) v :: rest →
    ∃ t, step s = .next t ∧ t.x.get r = v ∧ t.written.get r = true ∧
      (∀ q, q ≠ r → t.x.get q = s.x.get q ∧ t.written.get q = s.written.get q) ∧
      t.err = s.err ∧ t.fsr = s.fsr ∧ t.unit = s.unit ∧ t.cfg = s.cfg ∧ t.port = rest ∧
      t.reply = s.reply

/-- R64: a HostWrite to ERR (8), FSR (9) or CFG (10) has no effect; a HostRead or HostWrite of an index
11 to 15 is refused by name. -/
def Obligations.StatusWritesAreIgnoredAndReservedIndicesRefused : Prop :=
  ∀ (s : State) (idx : HostIndex) (v : Word) (rest : List HostOp), Admitted s.cfg →
    (∀ w, s.unit ≠ .busy w) →
    (idx = 8 ∨ idx = 9 ∨ idx = 10 → s.port = .hostWrite idx v :: rest →
      step s = .next { s with port := rest }) ∧
    (11 ≤ idx.toNat → s.port = .hostWrite idx v :: rest ∨ s.port = .hostRead idx :: rest →
      step s = .refused (.reservedHostIndex idx))

/-- R5, R6, R33: exactly the configurations with legal parameters are admitted. In those every command answers
a next state, for it completes or takes its fault; any other the step and every command refuse by name.
Requested by (T, F, S, P), a unit is elaborated, with W = sel(T), exactly within R6's bounds: T > 64 is
"unrepresentable", and the INVALID policy elaborates nothing. That ACOS_PI must be finite is DEDUCED (log entry
11), and the legal parameters of the requested unit come from `base`. -/
def Obligations.InadmissibleConfigIsRefused : Prop :=
  (∀ c : Config, Admitted c ↔ LegalConfig c) ∧
  (∀ (s : State) (i : Instr), LegalConfig s.cfg → ∃ t, exec i s = .next t) ∧
  (∀ (s : State), ¬LegalConfig s.cfg →
    ∃ why, step s = .refused (.notElaborated why) ∧
      ∀ i, exec i s = .refused (.notElaborated why)) ∧
  (∀ (base : Config) (t f : Nat) (sg : Signedness) (p : Policy), LegalConfig base →
    1 ≤ t → t ≤ 64 → f ≤ t → p = .wrap ∨ p = .sat →
    elaborate base t f sg p = .ok { base with w := selWidth t, t := t, f := f, s := sg, policy := p }) ∧
  (∀ (base : Config) (t f : Nat) (sg : Signedness) (p : Policy), t < 1 ∨ t < f →
    ∃ why, elaborate base t f sg p = .error why) ∧
  (∀ (base : Config) (t f : Nat) (sg : Signedness) (p : Policy), 64 < t →
    elaborate base t f sg p = .error .unrepresentable) ∧
  (∀ (base : Config) (t f : Nat) (sg : Signedness), ∃ why, elaborate base t f sg .invalid = .error why)

/-- R304: what a command does is a function of the command, the registers it reads and the configuration:
one write set (rd's value, and the record written to ERR or `none` where ERR is left alone), or one fault.
Nothing else in the state can change its result. -/
def Obligations.EffectDependsOnNamedRegistersOnly : Prop :=
  ∀ (i : Instr) (c : Config) (vals : Reg → Word), Admitted c →
    (∃ (v : Word) (e : Option ErrRecord), (e.isSome = true ↔ Elementary i) ∧
      ∀ s : State, s.cfg = c → (∀ r ∈ reads i, s.x.get r = vals r) →
        exec i s = .next { s with x := s.x.set (destination i) v, written := s.written.set (destination i) true, err := e.getD s.err, unit := .idle }) ∨
    (∃ k, ∀ s : State, s.cfg = c → (∀ r ∈ reads i, s.x.get r = vals r) →
      exec i s = .next { s with fsr := some ⟨k, encode i⟩, unit := .halted })

/-- R42: only the nine elementary commands write ERR; and they write only the records of R277. -/
def Obligations.OnlyElementaryCommandsWriteErr : Prop :=
  ∀ (i : Instr) (s t : State), exec i s = .next t →
    (¬Elementary i → t.err = s.err) ∧ (Elementary i → t.unit = .idle → KnownRecord t.err)

/-- R36: every completed command with a fixed-point result leaves rd below 2^T, padding zero. -/
def Obligations.FixedPointResultsArePadded : Prop :=
  ∀ (i : Instr) (s t : State), FixedPointResult i → exec i s = .next t → t.unit = .idle →
    (t.x.get (destination i)).toNat < 2 ^ s.cfg.t

/-- R53, R274, R279: the strict step stops with UNINIT at an unwritten operand of a legal command whose
format precondition holds, and at a HostRead of an unwritten register. The strict step and its record of
writes are the model's own (log entries 1 and 15). -/
def Obligations.StrictStepStopsAtUnwrittenOperands : Prop :=
  (∀ (s : State) (w : CmdWord) (rest : List HostOp) (i : Instr) (r : Reg), Admitted s.cfg →
    s.unit = .idle → s.port = .issue w :: rest → decode s.cfg w = .ok i →
    formatOk s.cfg.toFormat i = true → r ∈ reads i → s.written.get r = false →
    ∃ q ∈ reads i, s.written.get q = false ∧ strictStep s = .fault (.uninit q)) ∧
  (∀ (s : State) (rest : List HostOp) (r : Reg), Admitted s.cfg → (∀ w, s.unit ≠ .busy w) →
    s.port = .hostRead (indexOf r) :: rest → s.written.get r = false →
    strictStep s = .fault (.uninit r))

/-- R53, R274, R279: exactly when the strict step runs. Where every register that the next operation reads has
been written it IS the step, and so it is where the operation reads none: a HostWrite, a Reset, an Issue to a
HALTED unit, a command that an illegal word or its format precondition stops first. Where one has not, it
stops; and every stop of it is UNINIT and names a register that the operation reads and that has not been
written. What the operation reads is said of the command word and the port alone, apart from the model's own
`reads` and `formatOk`. The strict step and its record of writes are the model's own (log entries 1 and 15). -/
def Obligations.StrictStepRefinesStep : Prop :=
  ∀ (s : State),
    (¬Admitted s.cfg → strictStep s = step s) ∧
    (Admitted s.cfg →
      ((∀ r, ReadsNext s r → s.written.get r = true) → strictStep s = step s) ∧
      ((∃ r, ReadsNext s r ∧ s.written.get r = false) → ∃ r, strictStep s = .fault (.uninit r)) ∧
      (∀ f, strictStep s = .fault f →
        ∃ r, f = .uninit r ∧ ReadsNext s r ∧ s.written.get r = false))

/-! ## Status words -/

/-- R43, with R42's bit positions: VALID is 1 exactly when the code is Normal and no flag is set, and each
stored field stands in its place. -/
def Obligations.ErrWordReportsTheRecord : Prop :=
  ∀ e : ErrRecord,
    ((errWord e).getLsbD 7 = true ↔ e.code = .normal ∧ e.overflow = false ∧ e.underflow = false ∧
      e.divisionByZero = false ∧ e.invalidArgument = false) ∧
    (errWord e).toNat % 4 = (match e.code with
      | .normal => 0 | .positiveInfinity => 1 | .negativeInfinity => 2 | .nan => 3) ∧
    (errWord e).getLsbD 2 = e.overflow ∧ (errWord e).getLsbD 3 = e.underflow ∧
    (errWord e).getLsbD 4 = e.divisionByZero ∧ (errWord e).getLsbD 5 = e.invalidArgument ∧
    (errWord e).getLsbD 6 = false ∧ (errWord e).toNat < 256

/-- R31: where CFG reports each parameter of an admitted instance. -/
def Obligations.CfgWordReportsTheParameters : Prop :=
  ∀ c : Config, Admitted c →
    (cfgWord c).toNat % 2 ^ 8 = c.w ∧ (cfgWord c).toNat / 2 ^ 8 % 2 ^ 8 = c.t ∧
    (cfgWord c).toNat / 2 ^ 16 % 2 ^ 8 = c.f ∧
    ((cfgWord c).getLsbD 24 = true ↔ c.s = .signed) ∧
    (cfgWord c).toNat / 2 ^ 25 % 4 = (if c.policy = .sat then 1 else 0) ∧
    ((cfgWord c).getLsbD 27 = true ↔ c.subwidthRead = .active) ∧
    (cfgWord c).getLsbD 28 = c.sqrtZeroGuard ∧ (cfgWord c).toNat / 2 ^ 29 % 8 = 0 ∧
    (cfgWord c).toNat / 2 ^ 32 = c.sqrtIterMax

/-! ## Representation and conversion -/

/-- R110, R131: FXRAW keeps the T low bits; a raw value of T bits comes back bitwise. -/
def Obligations.FxrawMasksToActiveBits : Prop :=
  ∀ (s : State) (rd a : Reg), Admitted s.cfg →
    Completes (.fxraw rd a) s rd (BitVec.ofNat 64 (raw s a)) s.err ∧
    ((s.x.get a).toNat < 2 ^ s.cfg.t → Completes (.fxraw rd a) s rd (s.x.get a) s.err)

/-- R111: FXFROMI writes n · 2^F mod 2^T. -/
def Obligations.FxfromiScalesTheInteger : Prop :=
  ∀ (s : State) (rd a : Reg), Admitted s.cfg →
    Completes (.fxfromi rd a) s rd (asWord s.cfg ((s.x.get a).toInt * 2 ^ s.cfg.f)) s.err

/-- R112: FXFROMF truncates d · 2^F toward zero, or raises FP_RANGE. -/
def Obligations.FxfromfTruncatesTheExactProduct : Prop :=
  ∀ (s : State) (rd a : Reg) (nu : Bool), Admitted s.cfg →
    (NotFinite (s.x.get a) → Faults (.fxfromf rd a nu) s .fpRange) ∧
    (¬NotFinite (s.x.get a) →
      (¬InBacking s.cfg (truncQ (floatVal (s.x.get a) * 2 ^ s.cfg.f)) →
        Faults (.fxfromf rd a nu) s .fpRange) ∧
      (InBacking s.cfg (truncQ (floatVal (s.x.get a) * 2 ^ s.cfg.f)) →
        Completes (.fxfromf rd a nu) s rd
          (asWord s.cfg (forced nu (truncQ (floatVal (s.x.get a) * 2 ^ s.cfg.f))
            (signQ (floatVal (s.x.get a) * 2 ^ s.cfg.f)))) s.err))

/-- R114: FXIDIV writes n · 2^F / d truncated toward zero, or raises DIV_ZERO. -/
def Obligations.FxidivTruncatesTheQuotient : Prop :=
  ∀ (s : State) (rd a b : Reg) (nu : Bool), Admitted s.cfg →
    ((s.x.get b).toInt = 0 → Faults (.fxidiv rd a b nu) s .divZero) ∧
    ((s.x.get b).toInt ≠ 0 →
      Completes (.fxidiv rd a b nu) s rd
        (asWord s.cfg (forced nu (((s.x.get a).toInt * 2 ^ s.cfg.f).tdiv (s.x.get b).toInt)
          ((s.x.get a).toInt.sign * (s.x.get b).toInt.sign))) s.err)

/-- R115: FXDIVI writes the reading of the value divided by the integer, truncated toward zero, or raises
DIV_ZERO. -/
def Obligations.FxdiviTruncatesTheQuotient : Prop :=
  ∀ (s : State) (rd a b : Reg) (nu : Bool), Admitted s.cfg →
    ((s.x.get b).toInt = 0 → Faults (.fxdivi rd a b nu) s .divZero) ∧
    ((s.x.get b).toInt ≠ 0 →
      Completes (.fxdivi rd a b nu) s rd
        (asWord s.cfg (forced nu ((iv s.cfg (raw s a)).tdiv (s.x.get b).toInt)
          ((iv s.cfg (raw s a)).sign * (s.x.get b).toInt.sign))) s.err)

/-- R116, R118: FXCVTIN rescales the foreign reading toward zero into the unit's format; an illegal
descriptor raises ILLEGAL_OP. -/
def Obligations.FxcvtinRescalesTheForeignValue : Prop :=
  ∀ (s : State) (rd a : Reg) (d : Desc) (nu : Bool), Admitted s.cfg →
    (LegalDesc s.cfg d →
      Completes (.fxcvtin rd a d nu) s rd
        (asWord s.cfg (rescale d.f s.cfg.f nu
          (reading s.cfg.subwidthRead (foreign d) ((s.x.get a).toNat % 2 ^ d.t)))) s.err) ∧
    (¬LegalDesc s.cfg d → Faults (.fxcvtin rd a d nu) s .illegalOp)

/-- R116, R119: FXCVTOUT rescales the unit's reading toward zero into the foreign format, zero above; an
illegal descriptor raises ILLEGAL_OP. -/
def Obligations.FxcvtoutRescalesTheUnitValue : Prop :=
  ∀ (s : State) (rd a : Reg) (d : Desc) (nu : Bool), Admitted s.cfg →
    (LegalDesc s.cfg d →
      Completes (.fxcvtout rd a d nu) s rd
        (BitVec.ofInt 64 (rescale s.cfg.f d.f nu (iv s.cfg (raw s a)) % 2 ^ d.t)) s.err) ∧
    (¬LegalDesc s.cfg d → Faults (.fxcvtout rd a d nu) s .illegalOp)

/-- R132: a conversion to a format at least as fine and at least as wide, of the same signedness, and back
gives the value back, under both settings of `SIGNED_SUBWIDTH_READ`. -/
def Obligations.WideningConversionRoundTrips : Prop :=
  ∀ (ssr : SubwidthRead) (src dst : Format) (r : Nat), src.s = dst.s →
    1 ≤ src.t → src.t ≤ src.w → src.f ≤ src.t → dst.t ≤ dst.w → dst.f ≤ dst.t →
    src.f ≤ dst.f → src.t - src.f ≤ dst.t - dst.f → r < 2 ^ src.t →
    cvt ssr dst src (cvt ssr src dst r false) false = r

/-- R120: FXTOI floors. -/
def Obligations.FxtoiFloors : Prop :=
  ∀ (s : State) (rd a : Reg), Admitted s.cfg →
    Completes (.fxtoi rd a) s rd (BitVec.ofInt 64 (iv s.cfg (raw s a) / 2 ^ s.cfg.f)) s.err

/-- R121: FXTOF completes with a finite pattern, exact when |v| < 2^53; zero gives +0.0. -/
def Obligations.FxtofIsExactBelow53Bits : Prop :=
  ∀ (s : State) (rd a : Reg), Admitted s.cfg → |tv s.cfg (raw s a)| < 2 ^ 53 →
    ∃ w, Completes (.fxtof rd a) s rd w s.err ∧ ¬NotFinite w ∧
      floatVal w = tv s.cfg (raw s a) / 2 ^ s.cfg.f ∧ (raw s a = 0 → w = 0)

/-- R121: a wider value rounds to 53 significant bits, to nearest, ties to even. `q` is the significand and
2^(log2 |v| − 52) the weight of its last bit. -/
def Obligations.FxtofRoundsToNearestEven : Prop :=
  ∀ (s : State) (rd a : Reg), Admitted s.cfg → 2 ^ 53 ≤ |tv s.cfg (raw s a)| →
    ∃ (w : Word) (q u : Nat), Completes (.fxtof rd a) s rd w s.err ∧ ¬NotFinite w ∧
      u = (tv s.cfg (raw s a)).natAbs.log2 - 52 ∧ 2 ^ 52 ≤ q ∧ q ≤ 2 ^ 53 ∧
      floatVal w = (tv s.cfg (raw s a)).sign * q * 2 ^ u / 2 ^ s.cfg.f ∧
      2 * ((q : Int) * 2 ^ u - (tv s.cfg (raw s a)).natAbs).natAbs ≤ 2 ^ u ∧
      (2 * ((q : Int) * 2 ^ u - (tv s.cfg (raw s a)).natAbs).natAbs = 2 ^ u → q % 2 = 0)

/-- R112 after R121: FXFROMF of FXTOF's result gives the raw value back when |v| < 2^53. -/
def Obligations.FloatRoundTripIsExact : Prop :=
  ∀ (s : State) (rd a rd' : Reg) (nu : Bool), Admitted s.cfg → |tv s.cfg (raw s a)| < 2 ^ 53 →
    ∃ t, exec (.fxtof rd a) s = .next t ∧
      Completes (.fxfromf rd' rd nu) t rd' (BitVec.ofNat 64 (raw s a)) s.err

/-! ## Predicates and comparisons -/

/-- R122 to R126: the predicates test the sign of the numeric value; so exactly one of FXISNEG, FXISPOS and
FXISZERO gives 1, and FXISNNEG = FXISPOS OR FXISZERO. -/
def Obligations.PredicatesTestTheNumericValue : Prop :=
  ∀ (s : State) (rd a : Reg), Admitted s.cfg →
    Completes (.fxisneg rd a) s rd (if tv s.cfg (raw s a) < 0 then 1 else 0) s.err ∧
    Completes (.fxispos rd a) s rd (if 0 < tv s.cfg (raw s a) then 1 else 0) s.err ∧
    Completes (.fxiszero rd a) s rd (if tv s.cfg (raw s a) = 0 then 1 else 0) s.err ∧
    Completes (.fxisnneg rd a) s rd (if 0 ≤ tv s.cfg (raw s a) then 1 else 0) s.err

/-- R127 to R130: equality compares the masked raw values, ordering their integer readings. -/
def Obligations.ComparisonsCompareWithinTheFormat : Prop :=
  ∀ (s : State) (rd a b : Reg), Admitted s.cfg →
    Completes (.fxeq rd a b) s rd (if raw s a = raw s b then 1 else 0) s.err ∧
    Completes (.fxne rd a b) s rd (if raw s a = raw s b then 0 else 1) s.err ∧
    Completes (.fxlt rd a b) s rd (if iv s.cfg (raw s a) < iv s.cfg (raw s b) then 1 else 0) s.err ∧
    Completes (.fxle rd a b) s rd (if iv s.cfg (raw s a) ≤ iv s.cfg (raw s b) then 1 else 0) s.err

/-! ## Arithmetic -/

/-- R160, R165 under WRAP: addition of the numeric values mod 2^T. -/
def Obligations.FxaddWrapsUnderWrap : Prop :=
  ∀ (s : State) (rd a b : Reg), Admitted s.cfg → s.cfg.policy = .wrap →
    Completes (.fxadd rd a b) s rd (asWord s.cfg (tv s.cfg (raw s a) + tv s.cfg (raw s b))) s.err

/-- R160, R165 under SAT: the sum clamped to the representable range, for signed and unsigned formats. -/
def Obligations.FxaddClampsUnderSat : Prop :=
  ∀ (s : State) (rd a b : Reg), Admitted s.cfg → s.cfg.policy = .sat →
    (s.cfg.s = .signed →
      Completes (.fxadd rd a b) s rd
        (asWord s.cfg (max (-2 ^ (s.cfg.t - 1))
          (min (tv s.cfg (raw s a) + tv s.cfg (raw s b)) (2 ^ (s.cfg.t - 1) - 1)))) s.err) ∧
    (s.cfg.s = .unsigned →
      Completes (.fxadd rd a b) s rd
        (BitVec.ofNat 64 (min (raw s a + raw s b) (2 ^ s.cfg.t - 1))) s.err)

/-- R165: FXADD is commutative under both policies. -/
def Obligations.FxaddCommutes : Prop :=
  ∀ (s : State) (rd a b : Reg), exec (.fxadd rd a b) s = exec (.fxadd rd b a) s

/-- R161: FXSUB wraps mod 2^T under both policies, the acknowledged gap of saturating subtraction. -/
def Obligations.FxsubWrapsUnderBothPolicies : Prop :=
  ∀ (s : State) (rd a b : Reg), Admitted s.cfg →
    Completes (.fxsub rd a b) s rd (asWord s.cfg (tv s.cfg (raw s a) - tv s.cfg (raw s b))) s.err

/-- R180: FXMUL floors the exact product of the readings shifted by F, mod 2^T. -/
def Obligations.FxmulFloorsTheProduct : Prop :=
  ∀ (s : State) (rd a b : Reg), Admitted s.cfg →
    Completes (.fxmul rd a b) s rd
      (asWord s.cfg (iv s.cfg (raw s a) * iv s.cfg (raw s b) / 2 ^ s.cfg.f)) s.err

/-- R181, R183: FXDIV and FXRCP truncate toward zero, and fault exactly when the divisor's active bits are
zero. -/
def Obligations.FxdivAndFxrcpTruncateOrFault : Prop :=
  ∀ (s : State) (rd a b : Reg), Admitted s.cfg →
    (raw s b = 0 → Faults (.fxdiv rd a b) s .divZero ∧ Faults (.fxrcp rd b) s .divZero) ∧
    (raw s b ≠ 0 →
      Completes (.fxdiv rd a b) s rd
        (asWord s.cfg ((iv s.cfg (raw s a) * 2 ^ s.cfg.f).tdiv (iv s.cfg (raw s b)))) s.err ∧
      Completes (.fxrcp rd b) s rd
        (asWord s.cfg ((iv s.cfg (2 ^ s.cfg.f % 2 ^ s.cfg.t) * 2 ^ s.cfg.f).tdiv
          (iv s.cfg (raw s b)))) s.err)

/-- R182, R184: FXNEG and FXABS of the numeric value, mod 2^T, so that the negation and the absolute value
of MINR are MINR. -/
def Obligations.FxnegAndFxabsWrap : Prop :=
  ∀ (s : State) (rd a : Reg), Admitted s.cfg →
    Completes (.fxneg rd a) s rd (asWord s.cfg (-tv s.cfg (raw s a))) s.err ∧
    Completes (.fxabs rd a) s rd (asWord s.cfg |tv s.cfg (raw s a)|) s.err

/-- R185: the readings, products and dividends of operands fit the calc width, so computing them in any
CW ≥ 2W bits, signed or unsigned as the format is, gives the exact integers; and a quotient is no larger
than its dividend. -/
def Obligations.CalcWidthIsSufficient : Prop :=
  ∀ (c : Config) (a b cw : Nat), Admitted c → a < 2 ^ c.t → b < 2 ^ c.t → 2 * c.w ≤ cw →
    (c.s = .signed →
      |uval c a| ≤ 2 ^ (c.w - 1) ∧ |uval c a * uval c b| ≤ 2 ^ (2 * c.w - 2) ∧
      |uval c a * 2 ^ c.f| ≤ 2 ^ (2 * c.w - 1) ∧
      (|uval c a * 2 ^ c.f| = 2 ^ (2 * c.w - 1) → uval c a = -2 ^ (c.w - 1) ∧ c.f = c.w) ∧
      (uval c a * uval c b).bmod (2 ^ cw) = uval c a * uval c b ∧
      (uval c a * 2 ^ c.f).bmod (2 ^ cw) = uval c a * 2 ^ c.f) ∧
    (c.s = .unsigned →
      0 ≤ uval c a ∧ uval c a < 2 ^ c.w ∧ uval c a * uval c b < 2 ^ (2 * c.w) ∧
      uval c a * 2 ^ c.f < 2 ^ (2 * c.w) ∧
      uval c a * uval c b % 2 ^ cw = uval c a * uval c b ∧
      uval c a * 2 ^ c.f % 2 ^ cw = uval c a * 2 ^ c.f) ∧
    |(uval c a * 2 ^ c.f).tdiv (uval c b)| ≤ |uval c a * 2 ^ c.f|

/-! ## Elementary functions -/

/-- R210(b): each elementary command raises FMT_UNSUPPORTED, on every operand, in a format that breaks its
precondition. -/
def Obligations.NarrowFormatsAreUnsupported : Prop :=
  ∀ (s : State) (rd a b : Reg), Admitted s.cfg →
    (¬(1 ≤ s.cfg.f ∧ WholeBits s.cfg 1) → Faults (.fxsqrt rd a) s .fmtUnsupported) ∧
    (¬WholeBits s.cfg 2 →
      Faults (.fxlog2 rd a) s .fmtUnsupported ∧ Faults (.fxln rd a) s .fmtUnsupported ∧
      Faults (.fxlog10 rd a) s .fmtUnsupported ∧ Faults (.fxpow rd a b) s .fmtUnsupported ∧
      Faults (.fxexp10 rd a) s .fmtUnsupported) ∧
    (¬WholeBits s.cfg 1 →
      Faults (.fxexp2 rd a) s .fmtUnsupported ∧ Faults (.fxexp rd a) s .fmtUnsupported) ∧
    (¬(s.cfg.s = .signed ∧ 1 ≤ s.cfg.f ∧ WholeBits s.cfg 2) →
      Faults (.fxacos rd a) s .fmtUnsupported)

/-- R212, R213: FXSQRT writes the SQRT_ITER_MAX-th Newton iterate (the early exit changes nothing, since an
iterate that equals its predecessor repeats), and faults on a negative operand, on an unguarded zero, and
when an iterate it would divide by is zero. -/
def Obligations.FxsqrtIsTheNewtonIterate : Prop :=
  ∀ (s : State) (rd a : Reg), Admitted s.cfg → 1 ≤ s.cfg.f → WholeBits s.cfg 1 →
    (tv s.cfg (raw s a) < 0 → Faults (.fxsqrt rd a) s .sqrtNeg) ∧
    (raw s a = 0 → s.cfg.sqrtZeroGuard = true →
      Completes (.fxsqrt rd a) s rd 0 ErrRecord.ok) ∧
    (raw s a = 0 → s.cfg.sqrtZeroGuard = false → Faults (.fxsqrt rd a) s .divZero) ∧
    (0 < tv s.cfg (raw s a) → NewtonRuns s.cfg (raw s a) →
      Completes (.fxsqrt rd a) s rd
        (BitVec.ofNat 64 (newton s.cfg (raw s a) s.cfg.sqrtIterMax)) ErrRecord.ok) ∧
    (0 < tv s.cfg (raw s a) → ¬NewtonRuns s.cfg (raw s a) → Faults (.fxsqrt rd a) s .divZero)

/-- R214 with R277's two records, and R278 for FXLN, FXLOG10 and FXPOW (R216, R217, R221): the log2 family
reports a zero or a negative argument in ERR with the value 0, and FXPOW does so whatever its exponent is; no
step after the logarithm can fault. -/
def Obligations.LogDomainErrorsGoToErr : Prop :=
  ∀ (s : State) (rd a b : Reg), Admitted s.cfg → WholeBits s.cfg 2 →
    (raw s a = 0 →
      Completes (.fxlog2 rd a) s rd 0 ⟨.negativeInfinity, false, false, false, true⟩ ∧
      Completes (.fxln rd a) s rd 0 ⟨.negativeInfinity, false, false, false, true⟩ ∧
      Completes (.fxlog10 rd a) s rd 0 ⟨.negativeInfinity, false, false, false, true⟩ ∧
      Completes (.fxpow rd a b) s rd 0 ⟨.negativeInfinity, false, false, false, true⟩) ∧
    (tv s.cfg (raw s a) < 0 →
      Completes (.fxlog2 rd a) s rd 0 ⟨.nan, false, false, false, true⟩ ∧
      Completes (.fxln rd a) s rd 0 ⟨.nan, false, false, false, true⟩ ∧
      Completes (.fxlog10 rd a) s rd 0 ⟨.nan, false, false, false, true⟩ ∧
      Completes (.fxpow rd a b) s rd 0 ⟨.nan, false, false, false, true⟩)

/-- R214, R215: FXLOG2 of a positive value: the leading-bit position and F bits of Turner's recurrence. -/
def Obligations.Fxlog2IsTurnersRecurrence : Prop :=
  ∀ (s : State) (rd a : Reg), Admitted s.cfg → WholeBits s.cfg 2 → 0 < tv s.cfg (raw s a) →
    Completes (.fxlog2 rd a) s rd (asWord s.cfg (log2q s.cfg.f (raw s a))) ErrRecord.ok

/-- R216, R217: FXLN and FXLOG10 of a positive value: the constant times log2, floored. -/
def Obligations.FxlnAndFxlog10ScaleLog2 : Prop :=
  ∀ (s : State) (rd a : Reg), Admitted s.cfg → WholeBits s.cfg 2 → 0 < tv s.cfg (raw s a) →
    Completes (.fxln rd a) s rd
      (BitVec.ofNat 64 (mulq s.cfg (cfq s.cfg 0x3FE62E42FEFA39EF#64)
        (red s.cfg (log2q s.cfg.f (raw s a))))) ErrRecord.ok ∧
    Completes (.fxlog10 rd a) s rd
      (BitVec.ofNat 64 (mulq s.cfg (cfq s.cfg 0x3FD34413509F79FF#64)
        (red s.cfg (log2q s.cfg.f (raw s a))))) ErrRecord.ok

/-- R218, R223: FXEXP2 adds all F + 2 terms that R223 allows, so the early exit changes nothing. -/
def Obligations.Fxexp2IsTheTaylorProduct : Prop :=
  ∀ (s : State) (rd a : Reg), Admitted s.cfg → WholeBits s.cfg 1 →
    EndsAsExp2 (.fxexp2 rd a) s rd (raw s a)

/-- R219, R220: FXEXP and FXEXP10 are exp2 of the operand scaled by log2 e and log2 10. -/
def Obligations.FxexpAndFxexp10ScaleThenExp2 : Prop :=
  ∀ (s : State) (rd a : Reg), Admitted s.cfg →
    (WholeBits s.cfg 1 →
      EndsAsExp2 (.fxexp rd a) s rd (mulq s.cfg (cfq s.cfg 0x3FF71547652B82FE#64) (raw s a))) ∧
    (WholeBits s.cfg 2 →
      EndsAsExp2 (.fxexp10 rd a) s rd (mulq s.cfg (cfq s.cfg 0x400A934F0979A371#64) (raw s a)))

/-- R221: FXPOW of a positive base is exp2 of the exponent times the base's logarithm. -/
def Obligations.FxpowIsExp2OfTheProduct : Prop :=
  ∀ (s : State) (rd a b : Reg), Admitted s.cfg → WholeBits s.cfg 2 → 0 < tv s.cfg (raw s a) →
    EndsAsExp2 (.fxpow rd a b) s rd
      (mulq s.cfg (raw s b) (red s.cfg (log2q s.cfg.f (raw s a))))

/-- R222, R271: FXACOS completes for every x inside (−1, 1), with the polynomial of |x| times the Newton root
of 1 − |x|, mirrored for a negative x: no iterate is 0 there. At |x| = 1 it is the square root of zero, and
outside it raises SQRT_NEG.
It ranges over every admitted ACOS_A to ACOS_D and ACOS_PI: that one outside the backing range is reduced by
R113's formula without a fault is DEDUCED (log entry 7), and the value `cfq` reads from their patterns is
IEEE 754's, PRESUMED (log entry 6). -/
def Obligations.FxacosIsThePolynomialTimesTheRoot : Prop :=
  ∀ (s : State) (rd a : Reg), Admitted s.cfg → s.cfg.s = .signed → 1 ≤ s.cfg.f →
    WholeBits s.cfg 2 →
    (|tv s.cfg (raw s a)| < 2 ^ s.cfg.f →
      Completes (.fxacos rd a) s rd
        (BitVec.ofNat 64
          (if tv s.cfg (raw s a) < 0 then
            red s.cfg (cfq s.cfg s.cfg.acosPi - (mulq s.cfg (acosq s.cfg (tv s.cfg (raw s a)).natAbs) (newton s.cfg (2 ^ s.cfg.f - (tv s.cfg (raw s a)).natAbs) s.cfg.sqrtIterMax) : Nat))
          else
            mulq s.cfg (acosq s.cfg (tv s.cfg (raw s a)).natAbs) (newton s.cfg (2 ^ s.cfg.f - (tv s.cfg (raw s a)).natAbs) s.cfg.sqrtIterMax)))
        ErrRecord.ok) ∧
    (|tv s.cfg (raw s a)| = 2 ^ s.cfg.f → s.cfg.sqrtZeroGuard = true →
      Completes (.fxacos rd a) s rd
        (if tv s.cfg (raw s a) < 0 then BitVec.ofNat 64 (cfq s.cfg s.cfg.acosPi) else 0)
        ErrRecord.ok) ∧
    (|tv s.cfg (raw s a)| = 2 ^ s.cfg.f → s.cfg.sqrtZeroGuard = false →
      Faults (.fxacos rd a) s .divZero) ∧
    (2 ^ s.cfg.f < |tv s.cfg (raw s a)| → Faults (.fxacos rd a) s .sqrtNeg)

/-- R224 for every power of two from 1 up that the format holds: FXEXP2 of FXLOG2 gives it back exactly. -/
def Obligations.Exp2InvertsLog2OnPowersOfTwo : Prop :=
  ∀ (s : State) (rd a rd' : Reg) (k : Nat), Admitted s.cfg → WholeBits s.cfg 2 → s.cfg.f ≤ k →
    raw s a = 2 ^ k → 0 < tv s.cfg (raw s a) →
    ∃ t, exec (.fxlog2 rd a) s = .next t ∧
      Completes (.fxexp2 rd' rd) t rd' (BitVec.ofNat 64 (2 ^ k)) ErrRecord.ok

/-- R224's own values: in s16.16 under WRAP and under SAT, and in s8.8, exp2(log2 x) = x for x = 1, 2, 4
and 0.5, with the logarithms R224 names; in u16.16 log2(0.5) wraps and the law fails there. -/
def Obligations.InverseLawHoldsForTheSpecValues : Prop :=
  (∀ p ∈ [Policy.wrap, Policy.sat],
    ∀ xl ∈ [(0x10000#64, 0#64), (0x20000#64, 0x10000#64), (0x40000#64, 0x20000#64),
        (0x8000#64, 0xFFFF0000#64)],
      resultOf (unitOf 32 32 16 p) (.fxlog2 .x2 .x1) .x2 xl.1 = some (xl.2, 0x80#64) ∧
      resultOf (unitOf 32 32 16 p) (.fxexp2 .x2 .x1) .x2 xl.2 = some (xl.1, 0x80#64)) ∧
  (∀ xl ∈ [(0x100#64, 0#64), (0x200#64, 0x100#64), (0x400#64, 0x200#64), (0x80#64, 0xFF00#64)],
      resultOf (unitOf 16 16 8 .wrap) (.fxlog2 .x2 .x1) .x2 xl.1 = some (xl.2, 0x80#64) ∧
      resultOf (unitOf 16 16 8 .wrap) (.fxexp2 .x2 .x1) .x2 xl.2 = some (xl.1, 0x80#64)) ∧
  (∀ p ∈ [Policy.wrap, Policy.sat], ∃ v,
    resultOf { unitOf 32 32 16 p with s := .unsigned } (.fxlog2 .x2 .x1) .x2 0x8000#64 =
      some (0xFFFF0000#64, 0x80#64) ∧
    resultOf { unitOf 32 32 16 p with s := .unsigned } (.fxexp2 .x2 .x1) .x2 0xFFFF0000#64 =
      some (v, 0x80#64) ∧ v ≠ 0x8000#64)

/-! ## Sequences of commands -/

/-- R91, R92, R66: every pseudo-instruction, issued as its expansion to an IDLE unit under either policy, for
every choice of registers, equal ones included. `fxadd.i`, which the name says, is one of the sixteen scalar
forms: each converts the scalar in place and then does the one base operation, and its clause says both
commands' whole effect. A copy, a swapped comparison and `fxone` are one command; `fxone` gives 1 where rt holds
the integer 1, as R91 asks of it. A binary64 pattern's value is IEEE 754's (PRESUMED, log entry 6); the port
queue is the model's own (log entry 3). -/
def Obligations.ScalarAddConvertsThenAdds : Prop :=
  ∀ (s : State) (rest : List HostOp) (p : Pseudo), Admitted s.cfg → s.unit = .idle →
    s.port = issueAll (expand p) ++ rest →
    match p with
    | .fxmov rd rs => EndsWith s rest rd (BitVec.ofNat 64 (raw s rs))
    | .fxgt rd a b =>
      EndsWith s rest rd (if iv s.cfg (raw s a) > iv s.cfg (raw s b) then 1 else 0)
    | .fxge rd a b =>
      EndsWith s rest rd (if iv s.cfg (raw s a) ≥ iv s.cfg (raw s b) then 1 else 0)
    | .fxone rd rt =>
      EndsWith s rest rd (asWord s.cfg ((s.x.get rt).toInt * 2 ^ s.cfg.f)) ∧
        (s.x.get rt = 1 → EndsWith s rest rd (asWord s.cfg (2 ^ s.cfg.f)))
    | .valInt op rd rv rk =>
      EndsAsScalar s rest op rd rv rk rk ((s.x.get rk).toInt * 2 ^ s.cfg.f)
    | .intVal op rd rk rv =>
      EndsAsScalar s rest op rd rk rv rk ((s.x.get rk).toInt * 2 ^ s.cfg.f)
    | .valFloat op rd rv rk => EndsAsFloatScalar s rest op rd rv rk rk
    | .floatVal op rd rk rv => EndsAsFloatScalar s rest op rd rk rv rk
end

