-- ==== Sys2Proof/Laws/State.lean ====
section
/-! SUPPORT. Small laws of the state: a bank after a write, each field after each named update, and how a
command ends. -/

namespace Sys2Proof.Laws

open Sys2Proof.Machine

/-! ## Banks -/

@[simp] theorem bank_get_set_same {α : Type} (b : Bank α) (i : Reg) (a : α) :
    (b.set i a).get i = a := by
  cases i <;> rfl

theorem bank_get_set_of_ne {α : Type} (b : Bank α) {i j : Reg} (a : α) (h : j ≠ i) :
    (b.set i a).get j = b.get j := by
  cases i <;> cases j <;> first | rfl | exact absurd rfl h

theorem bank_get_set {α : Type} (b : Bank α) (i j : Reg) (a : α) :
    (b.set i a).get j = if j = i then a else b.get j := by
  split
  · next h => subst h; simp
  · next h => exact bank_get_set_of_ne b a h

/-- Two banks with the same readings are the same bank. -/
theorem bank_ext {α : Type} {b b' : Bank α} (h : ∀ i, b.get i = b'.get i) : b = b' := by
  cases b; cases b'
  simp only [Bank.mk.injEq]
  exact ⟨h .x0, h .x1, h .x2, h .x3, h .x4, h .x5, h .x6, h .x7⟩

@[simp] theorem bank_get_all {α : Type} (a : α) (i : Reg) : (Bank.all a).get i = a := by
  cases i <;> rfl

/-! ## Fields after a register write -/

@[simp] theorem writeX_cfg (i : Reg) (v : Word) (s : State) : (writeX i v s).cfg = s.cfg := rfl
@[simp] theorem writeX_x (i : Reg) (v : Word) (s : State) : (writeX i v s).x = s.x.set i v := rfl
@[simp] theorem writeX_written (i : Reg) (v : Word) (s : State) :
    (writeX i v s).written = s.written.set i true := rfl
@[simp] theorem writeX_err (i : Reg) (v : Word) (s : State) : (writeX i v s).err = s.err := rfl
@[simp] theorem writeX_fsr (i : Reg) (v : Word) (s : State) : (writeX i v s).fsr = s.fsr := rfl
@[simp] theorem writeX_unit (i : Reg) (v : Word) (s : State) : (writeX i v s).unit = s.unit := rfl
@[simp] theorem writeX_port (i : Reg) (v : Word) (s : State) : (writeX i v s).port = s.port := rfl
@[simp] theorem writeX_reply (i : Reg) (v : Word) (s : State) : (writeX i v s).reply = s.reply := rfl

/-! ## Fields after a command completes -/

@[simp] theorem commit_cfg (ws : Writes) (s : State) : (commit ws s).cfg = s.cfg := rfl
@[simp] theorem commit_x (ws : Writes) (s : State) : (commit ws s).x = s.x.set ws.rd ws.val := rfl
@[simp] theorem commit_written (ws : Writes) (s : State) :
    (commit ws s).written = s.written.set ws.rd true := rfl
@[simp] theorem commit_err (ws : Writes) (s : State) : (commit ws s).err = ws.err.getD s.err := rfl
@[simp] theorem commit_fsr (ws : Writes) (s : State) : (commit ws s).fsr = s.fsr := rfl
@[simp] theorem commit_unit (ws : Writes) (s : State) : (commit ws s).unit = .idle := rfl
@[simp] theorem commit_port (ws : Writes) (s : State) : (commit ws s).port = s.port := rfl
@[simp] theorem commit_reply (ws : Writes) (s : State) : (commit ws s).reply = s.reply := rfl

/-! ## Fields after a fault -/

@[simp] theorem takeFault_cfg (c : Cause) (w : CmdWord) (s : State) :
    (takeFault c w s).cfg = s.cfg := rfl
@[simp] theorem takeFault_x (c : Cause) (w : CmdWord) (s : State) :
    (takeFault c w s).x = s.x := rfl
@[simp] theorem takeFault_written (c : Cause) (w : CmdWord) (s : State) :
    (takeFault c w s).written = s.written := rfl
@[simp] theorem takeFault_err (c : Cause) (w : CmdWord) (s : State) :
    (takeFault c w s).err = s.err := rfl
@[simp] theorem takeFault_fsr (c : Cause) (w : CmdWord) (s : State) :
    (takeFault c w s).fsr = some ⟨c, w⟩ := rfl
@[simp] theorem takeFault_unit (c : Cause) (w : CmdWord) (s : State) :
    (takeFault c w s).unit = .halted := rfl
@[simp] theorem takeFault_port (c : Cause) (w : CmdWord) (s : State) :
    (takeFault c w s).port = s.port := rfl
@[simp] theorem takeFault_reply (c : Cause) (w : CmdWord) (s : State) :
    (takeFault c w s).reply = s.reply := rfl

/-! ## Fields after a reset -/

@[simp] theorem resetUnit_cfg (s : State) : (resetUnit s).cfg = s.cfg := rfl
@[simp] theorem resetUnit_x (s : State) : (resetUnit s).x = Bank.all 0 := rfl
@[simp] theorem resetUnit_written (s : State) : (resetUnit s).written = Bank.all false := rfl
@[simp] theorem resetUnit_err (s : State) : (resetUnit s).err = ErrRecord.ok := rfl
@[simp] theorem resetUnit_fsr (s : State) : (resetUnit s).fsr = none := rfl
@[simp] theorem resetUnit_unit (s : State) : (resetUnit s).unit = .idle := rfl
@[simp] theorem resetUnit_port (s : State) : (resetUnit s).port = s.port := rfl
@[simp] theorem resetUnit_reply (s : State) : (resetUnit s).reply = s.reply := rfl

/-! ## How a command ends -/

theorem conclude_ok {i : Instr} {s : State} (h : Admitted s.cfg) (ws : Writes) :
    conclude i s (.ok ws) = .next (commit ws s) := by
  simp [conclude, show rejectConfig s.cfg = none from h]

theorem conclude_error {i : Instr} {s : State} (h : Admitted s.cfg) (c : Cause) :
    conclude i s (.error c) = .next (takeFault c (encode i) s) := by
  simp [conclude, show rejectConfig s.cfg = none from h]

theorem conclude_refused {i : Instr} {s : State} {why : ElabRefusal}
    (h : rejectConfig s.cfg = some why) (r : Except Cause Writes) :
    conclude i s r = .refused (.notElaborated why) := by
  simp [conclude, h]

/-- All a command can do: one completed write set, one fault, or the refusal of the configuration. -/
theorem conclude_cases (i : Instr) (s : State) (r : Except Cause Writes) :
    (∃ ws, r = .ok ws ∧ Admitted s.cfg ∧ conclude i s r = .next (commit ws s)) ∨
    (∃ c, r = .error c ∧ Admitted s.cfg ∧
      conclude i s r = .next (takeFault c (encode i) s)) ∨
    ∃ why, rejectConfig s.cfg = some why ∧ conclude i s r = .refused (.notElaborated why) := by
  cases h : rejectConfig s.cfg with
  | some why => exact .inr (.inr ⟨why, rfl, conclude_refused h r⟩)
  | none =>
    cases r with
    | ok ws => exact .inl ⟨ws, rfl, h, conclude_ok h ws⟩
    | error c => exact .inr (.inl ⟨c, rfl, h, conclude_error h c⟩)

/-- A command never ends in a fault of the model. -/
theorem conclude_not_fault (i : Instr) (s : State) (r : Except Cause Writes) (f : Fault) :
    conclude i s r ≠ .fault f := by
  rcases conclude_cases i s r with ⟨ws, -, -, h⟩ | ⟨c, -, -, h⟩ | ⟨why, -, h⟩ <;> simp [h]

/-- Every instruction's meaning is `conclude` of some result of the operands it reads. -/
theorem exec_eq_conclude (i : Instr) (s : State) : ∃ r, exec i s = conclude i s r := by
  cases i <;>
    (simp only [exec, execFxraw, execFxfromi, execFxfromf, execFxidiv, execFxdivi, execFxcvtin,
      execFxcvtout, execFxtoi, execFxtof, execFxispos, execFxisneg, execFxisnneg,
      execFxiszero, execFxeq, execFxne, execFxlt, execFxle, execFxadd, execFxsub,
      execFxmul, execFxdiv, execFxneg, execFxrcp, execFxabs, execFxsqrt, execFxlog2,
      execFxln, execFxlog10, execFxexp2, execFxexp, execFxexp10, execFxpow, execFxacos]
     exact ⟨_, rfl⟩)

/-- All a command can do to the state, for every command at once. -/
theorem exec_cases (i : Instr) (s : State) :
    (∃ ws, Admitted s.cfg ∧ exec i s = .next (commit ws s)) ∨
    (∃ c, Admitted s.cfg ∧ exec i s = .next (takeFault c (encode i) s)) ∨
    ∃ why, rejectConfig s.cfg = some why ∧ exec i s = .refused (.notElaborated why) := by
  obtain ⟨r, hr⟩ := exec_eq_conclude i s
  rw [hr]
  rcases conclude_cases i s r with ⟨ws, -, ha, h⟩ | ⟨c, -, ha, h⟩ | ⟨why, hw, h⟩
  · exact .inl ⟨ws, ha, h⟩
  · exact .inr (.inl ⟨c, ha, h⟩)
  · exact .inr (.inr ⟨why, hw, h⟩)

end Sys2Proof.Laws
end

