-- ==== Sys2Proof/Laws/Format.lean ====
section
/-! SUPPORT. Laws of formats and raw values: what an admitted configuration gives, reduction as a
remainder, and the two integer readings. -/

namespace Sys2Proof.Laws

open Sys2Proof.Machine

/-! ## Admitted configurations -/

/-- What R6 asks of the format, the policy and the iteration cap. -/
theorem admitted_spec {c : Config} (h : Admitted c) :
    (c.w = 8 ∨ c.w = 16 ∨ c.w = 32 ∨ c.w = 64) ∧ 1 ≤ c.t ∧ c.t ≤ c.w ∧ c.f ≤ c.t ∧
      c.policy ≠ .invalid ∧ 1 ≤ c.sqrtIterMax ∧ c.sqrtIterMax ≤ 255 := by
  unfold Admitted rejectConfig at h
  split at h <;> try simp at h
  split at h <;> try simp at h
  split at h <;> try simp at h
  split at h <;> try simp at h
  split at h <;> try simp at h
  split at h <;> try simp at h
  split at h <;> try simp at h
  refine ⟨by tauto, by omega, by omega, by omega, by assumption, by omega, by omega⟩

theorem admitted_t_pos {c : Config} (h : Admitted c) : 1 ≤ c.t := (admitted_spec h).2.1
theorem admitted_t_le_w {c : Config} (h : Admitted c) : c.t ≤ c.w := (admitted_spec h).2.2.1
theorem admitted_f_le_t {c : Config} (h : Admitted c) : c.f ≤ c.t := (admitted_spec h).2.2.2.1
theorem admitted_w_le {c : Config} (h : Admitted c) : c.w ≤ 64 := by
  rcases (admitted_spec h).1 with h | h | h | h <;> omega
theorem admitted_t_le {c : Config} (h : Admitted c) : c.t ≤ 64 :=
  (admitted_t_le_w h).trans (admitted_w_le h)

theorem le_backingWidth {n : Nat} (h : n ≤ 64) : n ≤ backingWidth n := by
  unfold backingWidth; split_ifs <;> omega

/-! ## Reduction and operands -/

theorem land_mask (fm : Format) (n : Nat) : n &&& mask fm = n % 2 ^ fm.t :=
  Nat.and_two_pow_sub_one_eq_mod n fm.t

/-- R37: because 2^T divides 2^W, reduction is the remainder mod 2^T. -/
theorem reduce_eq_emod {fm : Format} (h : fm.t ≤ fm.w) (v : Int) :
    (reduce fm v : Int) = v % 2 ^ fm.t := by
  have hw : (0 : Int) < 2 ^ fm.w := by positivity
  have hd : (2 : Int) ^ fm.t ∣ 2 ^ fm.w := pow_dvd_pow 2 h
  rw [reduce, land_mask, Int.natCast_mod, Int.toNat_of_nonneg (Int.emod_nonneg _ hw.ne')]
  push_cast
  exact Int.emod_emod_of_dvd _ hd

theorem reduce_lt (fm : Format) (v : Int) : reduce fm v < 2 ^ fm.t := by
  rw [reduce, land_mask]; exact Nat.mod_lt _ (by positivity)

/-- Reduction depends on an integer's residue mod 2^T alone. -/
theorem reduce_congr {fm : Format} (h : fm.t ≤ fm.w) {u v : Int}
    (huv : u % 2 ^ fm.t = v % 2 ^ fm.t) : reduce fm u = reduce fm v := by
  have := reduce_eq_emod h u
  have := reduce_eq_emod h v
  omega

theorem reduce_natCast {fm : Format} (h : fm.t ≤ fm.w) {n : Nat} (hn : n < 2 ^ fm.t) :
    reduce fm (n : Int) = n := by
  have := reduce_eq_emod h (n : Int)
  rw [Int.emod_eq_of_lt (by positivity) (by exact_mod_cast hn)] at this
  exact_mod_cast this

/-- R34: reading an operand keeps the T active bits. -/
theorem opnd_eq_mod {s : State} (h : Admitted s.cfg) (i : Reg) :
    opnd s i = (s.x.get i).toNat % 2 ^ s.cfg.t := by
  rw [opnd, land_mask]
  exact Nat.mod_mod_of_dvd _ (pow_dvd_pow 2 (admitted_t_le_w h))

theorem opnd_lt (s : State) (i : Reg) : opnd s i < 2 ^ s.cfg.t := by
  rw [opnd, land_mask]; exact Nat.mod_lt _ (by positivity)

/-- R35: a raw value below 2^T, T ≤ 64, is written zero-extended. -/
theorem toNat_ofNat_raw {c : Config} (h : Admitted c) {r : Nat} (hr : r < 2 ^ c.t) :
    (BitVec.ofNat 64 r).toNat = r := by
  rw [BitVec.toNat_ofNat]
  exact Nat.mod_eq_of_lt (hr.trans_le (Nat.pow_le_pow_right (by norm_num) (admitted_t_le h)))

/-! ## Integer readings -/

theorem two_pow_pred {n : Nat} (h : 1 ≤ n) : 2 ^ n = 2 * 2 ^ (n - 1) := by
  rw [← pow_succ', Nat.sub_add_cancel h]

/-- R9: `sext_N` of a value of N bits. -/
theorem sext_of_lt {n : Nat} {v : Nat} (hv : v < 2 ^ n) :
    sext n v = if 2 * v < 2 ^ n then (v : Int) else (v : Int) - 2 ^ n := by
  rw [sext, BitVec.toInt_eq_toNat_cond, BitVec.toNat_ofNat, Nat.mod_eq_of_lt hv]
  push_cast; rfl

theorem sext_emod {n : Nat} {v : Nat} (hv : v < 2 ^ n) : sext n v % 2 ^ n = v := by
  have hv' : (v : Int) < 2 ^ n := by exact_mod_cast hv
  rw [sext_of_lt hv]
  split
  · exact Int.emod_eq_of_lt (by positivity) hv'
  · rw [Int.sub_emod_right]; exact Int.emod_eq_of_lt (by positivity) hv'

/-- R38: the numeric value is the raw value mod 2^T. -/
theorem tval_emod {fm : Format} {r : Nat} (hr : r < 2 ^ fm.t) : tval fm r % 2 ^ fm.t = r := by
  unfold tval
  split
  · exact sext_emod hr
  · exact Int.emod_eq_of_lt (by positivity) (by exact_mod_cast hr)

/-- R39: under STORAGE a sub-width signed value reads as its non-negative storage. -/
theorem sext_of_two_mul_le {n : Nat} {v : Nat} (hv : 2 * v < 2 ^ n) : sext n v = v := by
  rw [sext_of_lt (by omega)]; simp [hv]

/-- R39 in one line: the reading is the T-bit two's-complement value, or the raw value itself. -/
theorem ival_eq {ssr : SubwidthRead} {fm : Format} (h : fm.t ≤ fm.w) {r : Nat}
    (hr : r < 2 ^ fm.t) :
    ival ssr fm r =
      if fm.s = .signed ∧ (fm.t = fm.w ∨ ssr = .active) then sext fm.t r else (r : Int) := by
  unfold ival
  cases hs : fm.s with
  | unsigned => simp
  | signed =>
    by_cases hc : fm.t = fm.w ∨ ssr = .active
    · simp [hc]
    · have hlt : fm.t < fm.w := by
        rcases lt_or_eq_of_le h with h | h
        · exact h
        · exact absurd (.inl h) hc
      have : 2 * r < 2 ^ fm.w := by
        have h2 : 2 ^ (fm.t + 1) ≤ 2 ^ fm.w := Nat.pow_le_pow_right (by norm_num) hlt
        rw [pow_succ] at h2; omega
      simp [hc, sext_of_two_mul_le this]

theorem ival_emod {ssr : SubwidthRead} {fm : Format} (h : fm.t ≤ fm.w) {r : Nat}
    (hr : r < 2 ^ fm.t) : ival ssr fm r % 2 ^ fm.t = r := by
  rw [ival_eq h hr]
  split
  · exact sext_emod hr
  · exact Int.emod_eq_of_lt (by positivity) (by exact_mod_cast hr)

/-- A raw value below 2^(T−1) reads as itself in every reading. -/
theorem ival_of_small {ssr : SubwidthRead} {fm : Format} (h : fm.t ≤ fm.w) {r : Nat}
    (hr : 2 * r < 2 ^ fm.t) : ival ssr fm r = r := by
  rw [ival_eq h (by omega)]
  split
  · exact sext_of_two_mul_le hr
  · rfl

/-- A reading is zero exactly for the zero pattern. -/
theorem ival_eq_zero_iff {ssr : SubwidthRead} {fm : Format} (h : fm.t ≤ fm.w) {r : Nat}
    (hr : r < 2 ^ fm.t) : ival ssr fm r = 0 ↔ r = 0 := by
  constructor
  · intro h0
    have := ival_emod (ssr := ssr) h hr
    rw [h0] at this; simpa using this.symm
  · rintro rfl
    rw [ival_of_small h (by simp)]; rfl

/-- R122: the sign bit is the sign of the numeric value. -/
theorem isNeg_iff {fm : Format} (ht : 1 ≤ fm.t) {r : Nat} (hr : r < 2 ^ fm.t) :
    isNeg fm r = true ↔ tval fm r < 0 := by
  unfold isNeg tval
  cases hs : fm.s with
  | unsigned => simp
  | signed =>
    have h2 := two_pow_pred ht
    have hb : r.testBit (fm.t - 1) = decide (2 ^ (fm.t - 1) ≤ r) := by
      rw [Nat.testBit_eq_decide_div_mod_eq]
      by_cases hle : 2 ^ (fm.t - 1) ≤ r
      · have : r / 2 ^ (fm.t - 1) = 1 :=
          Nat.div_eq_of_lt_le (by omega) (by omega)
        simp [this, hle]
      · rw [Nat.div_eq_of_lt (by omega)]; simp [hle]
    have hr' : (r : Int) < 2 ^ fm.t := by exact_mod_cast hr
    rw [sext_of_lt hr]
    simp only [beq_self_eq_true, Bool.true_and, hb, decide_eq_true_eq]
    split <;> omega

theorem isNeg_of_small {fm : Format} (ht : 1 ≤ fm.t) {r : Nat} (hr : 2 * r < 2 ^ fm.t) :
    isNeg fm r = false := by
  have hn : ¬ isNeg fm r = true := by
    rw [isNeg_iff ht (by omega)]
    unfold tval
    split
    · rw [sext_of_two_mul_le hr]; omega
    · omega
  simpa using hn

end Sys2Proof.Laws
end

