-- ==== Sys2Proof/Laws/Arith.lean ====
section
/-! SUPPORT. Laws of the semantic functions on raw values: each one's result as one reduction of an exact
integer, and when it faults. -/

namespace Sys2Proof.Laws

open Sys2Proof.Machine

/-! ## Congruence mod 2^T -/

/-- Two integers that differ by a multiple of 2^T reduce alike. -/
theorem reduce_eq_of_dvd {fm : Format} (h : fm.t ≤ fm.w) {u v : Int} (hd : (2 ^ fm.t : Int) ∣ u - v) :
    reduce fm u = reduce fm v :=
  reduce_congr h (Int.emod_eq_emod_iff_emod_sub_eq_zero.mpr (Int.emod_eq_zero_of_dvd hd))

theorem dvd_sub_of_emod_eq {u m r : Int} (h : u % m = r) : m ∣ u - r :=
  ⟨u / m, by have := Int.mul_ediv_add_emod u m; rw [h] at this; linarith⟩

theorem dvd_trans_eq {m u v : Int} (h : m ∣ u) (e : u = v) : m ∣ v := e ▸ h

/-- A raw value and its numeric value differ by a multiple of 2^T. -/
theorem dvd_tval_sub {fm : Format} {r : Nat} (hr : r < 2 ^ fm.t) : (2 ^ fm.t : Int) ∣ tval fm r - r :=
  dvd_sub_of_emod_eq (tval_emod hr)

/-- A raw value and its integer reading differ by a multiple of 2^T. -/
theorem dvd_uval_sub {c : Config} (h : Admitted c) {r : Nat} (hr : r < 2 ^ c.t) :
    (2 ^ c.t : Int) ∣ uval c r - r :=
  dvd_sub_of_emod_eq (ival_emod (admitted_t_le_w h) hr)

theorem uval_eq_zero_iff {c : Config} (h : Admitted c) {r : Nat} (hr : r < 2 ^ c.t) :
    uval c r = 0 ↔ r = 0 :=
  ival_eq_zero_iff (admitted_t_le_w h) hr

/-- A raw value below 2^(T−1) reads as itself. -/
theorem uval_of_small {c : Config} (h : Admitted c) {r : Nat} (hr : 2 * r < 2 ^ c.t) : uval c r = r :=
  ival_of_small (admitted_t_le_w h) hr

theorem one_eq {c : Config} (h : Admitted c) : one c.toFormat = 2 ^ c.f % 2 ^ c.t := by
  have := reduce_eq_emod (admitted_t_le_w h) (2 ^ c.f)
  unfold one; exact_mod_cast this

/-! ## Add, subtract, negate, abs -/

/-- R165, WRAP. -/
theorem add_wrap {c : Config} (h : Admitted c) (hp : c.policy = .wrap) {a b : Nat} (ha : a < 2 ^ c.t)
    (hb : b < 2 ^ c.t) :
    add c a b = reduce c.toFormat (tval c.toFormat a + tval c.toFormat b) := by
  rw [show add c a b = reduce c.toFormat ((a : Int) + b) by simp [add, hp]]
  refine reduce_eq_of_dvd (admitted_t_le_w h) ?_
  exact dvd_trans_eq (dvd_neg.mpr (dvd_add (dvd_tval_sub (fm := c.toFormat) ha)
    (dvd_tval_sub (fm := c.toFormat) hb))) (by ring)

/-- R38, R40: the range of a signed numeric value. -/
theorem sext_range {n v : Nat} (hn : 1 ≤ n) (hv : v < 2 ^ n) :
    -2 ^ (n - 1) ≤ sext n v ∧ sext n v ≤ 2 ^ (n - 1) - 1 := by
  have h2 := two_pow_pred hn
  rw [sext_of_lt hv]
  zify at h2 hv
  split <;> rename_i hc <;> zify at hc <;> omega

/-- R165, SAT signed: the sum clamped to the range. -/
theorem add_sat_signed {c : Config} (h : Admitted c) (hp : c.policy = .sat) (hs : c.s = .signed)
    {a b : Nat} (ha : a < 2 ^ c.t) (hb : b < 2 ^ c.t) :
    add c a b = reduce c.toFormat
      (max (-2 ^ (c.t - 1)) (min (sext c.t a + sext c.t b) (2 ^ (c.t - 1) - 1))) := by
  have h2 : (2 : Int) ^ c.t = 2 * 2 ^ (c.t - 1) := by exact_mod_cast two_pow_pred (admitted_t_pos h)
  have hw := admitted_t_le_w h
  obtain ⟨a1, a2⟩ := sext_range (admitted_t_pos h) ha
  obtain ⟨b1, b2⟩ := sext_range (admitted_t_pos h) hb
  have hpos : (0 : Int) < 2 ^ (c.t - 1) := by positivity
  simp only [add, hp, hs, maxRaw, minRaw]
  split
  · next hc =>
    rw [max_eq_right (by omega), min_eq_right (by omega)]
    have hn : (1 : Nat) ≤ 2 ^ (c.t - 1) := Nat.one_le_two_pow
    have := two_pow_pred (admitted_t_pos h)
    have e := reduce_natCast (fm := c.toFormat) hw (n := 2 ^ (c.t - 1) - 1) (by omega)
    rw [Nat.cast_sub hn] at e
    push_cast at e
    exact e.symm
  · split
    · next hc =>
      rw [max_eq_left (by omega)]
      have := two_pow_pred (admitted_t_pos h)
      have e := reduce_natCast (fm := c.toFormat) hw (n := 2 ^ (c.t - 1))
        (by have : (1 : Nat) ≤ 2 ^ (c.t - 1) := Nat.one_le_two_pow
            omega)
      rw [← e]
      push_cast
      refine reduce_eq_of_dvd hw ⟨1, ?_⟩
      simp only [h2]; ring
    · rw [max_eq_right (by omega), min_eq_left (by omega)]
      refine reduce_eq_of_dvd hw ?_
      exact dvd_trans_eq (dvd_neg.mpr (dvd_add (dvd_sub_of_emod_eq (sext_emod ha))
        (dvd_sub_of_emod_eq (sext_emod hb)))) (by ring)

/-- R165, SAT unsigned. -/
theorem add_sat_unsigned {c : Config} (h : Admitted c) (hp : c.policy = .sat) (hs : c.s = .unsigned)
    (a b : Nat) : add c a b = min (a + b) (2 ^ c.t - 1) := by
  have h1 : 1 ≤ 2 ^ c.t := Nat.one_le_two_pow
  simp only [add, hp, hs, maxRaw]
  split
  · next hc => omega
  · next hc =>
    rw [← Nat.cast_add, reduce_natCast (admitted_t_le_w h) (by omega)]
    omega

theorem add_lt (c : Config) (a b : Nat) : add c a b < 2 ^ c.t := by
  have h1 : 1 ≤ 2 ^ c.t := Nat.one_le_two_pow
  have h2 : (2 : Nat) ^ (c.t - 1) ≤ 2 ^ c.t := Nat.pow_le_pow_right (by norm_num) (by omega)
  unfold add maxRaw minRaw
  split
  · next hs =>
    simp only [hs]
    split
    · have : 1 ≤ 2 ^ (c.t - 1) := Nat.one_le_two_pow
      omega
    · split
      · next hc =>
        by_cases ht : c.t = 0
        · have h0 : ∀ v : Nat, sext c.t v = 0 := by rw [ht]; intro v; simp [sext, BitVec.of_length_zero]
          rw [h0] at hc; omega
        · have := two_pow_pred (n := c.t) (by omega)
          have : 1 ≤ 2 ^ (c.t - 1) := Nat.one_le_two_pow
          omega
      · exact reduce_lt _ _
  · next hs =>
    simp only [hs]
    split
    · omega
    · exact reduce_lt _ _
  · exact reduce_lt _ _

theorem sub_lt (c : Config) (a b : Nat) : sub c a b < 2 ^ c.t := reduce_lt _ _
theorem mul_lt (c : Config) (a b : Nat) : mul c a b < 2 ^ c.t := reduce_lt _ _
theorem neg_lt (c : Config) (a : Nat) : neg c a < 2 ^ c.t := reduce_lt _ _
theorem cf_lt (c : Config) (d : Word) : cf c d < 2 ^ c.t := reduce_lt _ _

theorem absVal_lt {c : Config} {a : Nat} (ha : a < 2 ^ c.t) : absVal c a < 2 ^ c.t := by
  unfold absVal; split
  · exact neg_lt c a
  · exact ha

/-- R182: the negation of the numeric value. -/
theorem neg_eq {c : Config} (h : Admitted c) {a : Nat} (ha : a < 2 ^ c.t) :
    neg c a = reduce c.toFormat (-tval c.toFormat a) := by
  refine reduce_eq_of_dvd (admitted_t_le_w h) ?_
  exact dvd_trans_eq (dvd_tval_sub (fm := c.toFormat) ha) (by ring)

/-! ## Multiply, divide -/

/-- R180 for operands that read as themselves: the product of two naturals, floor-shifted. -/
theorem mul_natCast {c : Config} (h : Admitted c) {a b : Nat} (ha : uval c a = a) (hb : uval c b = b) :
    mul c a b = a * b / 2 ^ c.f % 2 ^ c.t := by
  have := reduce_eq_emod (admitted_t_le_w h) ((a * b / 2 ^ c.f : Nat) : Int)
  rw [mul, shiftRight, ha, hb]
  push_cast at this
  exact_mod_cast this

/-- R181: the two ways a division ends. -/
theorem div_cases (c : Config) (a b : Nat) :
    (uval c b = 0 ∧ div c a b = .error .divZero) ∨
      (uval c b ≠ 0 ∧
        div c a b = .ok (reduce c.toFormat ((uval c a * 2 ^ c.f).tdiv (uval c b)))) := by
  unfold div truncDiv
  by_cases hb : uval c b = 0 <;> simp [hb]

theorem div_error {c : Config} {a b : Nat} {e : Cause} (h : div c a b = .error e) : e = .divZero := by
  rcases div_cases c a b with ⟨-, h'⟩ | ⟨-, h'⟩ <;> rw [h'] at h <;> simp at h; exact h.symm

theorem div_lt {c : Config} {a b q : Nat} (h : div c a b = .ok q) : q < 2 ^ c.t := by
  rcases div_cases c a b with ⟨-, h'⟩ | ⟨-, h'⟩ <;> rw [h'] at h <;> simp at h
  rw [← h]; exact reduce_lt _ _

/-- R210(a): a small value divided by a positive integer. -/
theorem divi_natCast {c : Config} (h : Admitted c) {a n : Nat} (ha : uval c a = a) :
    divi c a n = a / n % 2 ^ c.t := by
  have := reduce_eq_emod (admitted_t_le_w h) ((a / n : Nat) : Int)
  rw [divi, truncDiv, ha, Int.tdiv_eq_ediv_of_nonneg (by positivity)]
  push_cast at this
  exact_mod_cast this

/-! ## Constructions and conversions -/

/-- R114's derived form: the whole part and the remainder apart give the quotient of the shifted dividend. -/
theorem tdiv_whole_add_rem (n d : Int) (k : Nat) (hd : d ≠ 0) :
    n.tdiv d * 2 ^ k + ((n - d * n.tdiv d) * 2 ^ k).tdiv d = (n * 2 ^ k).tdiv d := by
  have pos : ∀ n : Int, 0 ≤ n →
      n.tdiv d * 2 ^ k + (n.tmod d * 2 ^ k).tdiv d = (n * 2 ^ k).tdiv d := by
    intro n hn
    have hr : 0 ≤ n.tmod d := Int.tmod_nonneg _ hn
    have hs : n * 2 ^ k = n.tmod d * 2 ^ k + d * (n.tdiv d * 2 ^ k) := by
      have := Int.mul_tdiv_add_tmod n d
      linear_combination (-(2 : Int) ^ k) * this
    rw [Int.tdiv_eq_ediv_of_nonneg (a := n.tmod d * 2 ^ k) (by positivity),
      Int.tdiv_eq_ediv_of_nonneg (a := n * 2 ^ k) (by positivity), hs, Int.add_mul_ediv_left _ _ hd]
    ring
  rw [show n - d * n.tdiv d = n.tmod d from (Int.tmod_def n d).symm]
  rcases le_total 0 n with hn | hn
  · exact pos n hn
  · have := pos (-n) (by omega)
    rw [Int.neg_tmod, Int.neg_tdiv, neg_mul, neg_mul, neg_mul, Int.neg_tdiv, Int.neg_tdiv] at this
    linarith

/-- R117: what the no-underflow flag does; without it nothing. -/
@[simp] theorem nuFix_false (q s : Int) : nuFix q s false = q := by simp [nuFix]

theorem nuFix_of_ne {q : Int} (h : q ≠ 0) (s : Int) (nu : Bool) : nuFix q s nu = q := by
  simp [nuFix, h]

theorem nuFix_zero (s : Int) (nu : Bool) : nuFix 0 s nu = if nu then s else 0 := by
  cases nu <;> simp [nuFix]; intro h; exact h.symm

/-- R116: the magnitude's shift is the truncated rescaling of the reading, with the sign of R117. -/
theorem cvt_eq_reduce (ssr : SubwidthRead) (src dst : Format) (r : Nat) (nu : Bool) :
    cvt ssr src dst r nu = reduce dst
      (nuFix (if src.f ≤ dst.f then ival ssr src r * 2 ^ (dst.f - src.f)
          else (ival ssr src r).tdiv (2 ^ (src.f - dst.f))) (ival ssr src r).sign nu) := by
  unfold cvt
  generalize ival ssr src r = v
  simp only
  rcases eq_or_ne v 0 with rfl | hv0
  · simp [nuFix]
  have hq : (if src.f ≤ dst.f then v * 2 ^ (dst.f - src.f) else v.tdiv (2 ^ (src.f - dst.f))) =
      v.sign * ((if src.f ≤ dst.f then v.natAbs * 2 ^ (dst.f - src.f)
        else v.natAbs / 2 ^ (src.f - dst.f) : Nat) : Int) := by
    rcases lt_or_ge v 0 with hv | hv
    · obtain ⟨n, rfl⟩ : ∃ n : Nat, v = -n := ⟨v.natAbs, by omega⟩
      rw [Int.sign_eq_neg_one_of_neg hv]
      simp only [Int.natAbs_neg, Int.natAbs_natCast]
      split
      · push_cast; ring
      · rw [Int.neg_tdiv, Int.tdiv_eq_ediv_of_nonneg (by positivity)]; push_cast; ring
    · obtain ⟨n, rfl⟩ : ∃ n : Nat, v = n := ⟨v.natAbs, by omega⟩
      simp only [Int.natAbs_natCast]
      rcases Nat.eq_zero_or_pos n with rfl | hn
      · simp
      · rw [Int.sign_eq_one_of_pos (by exact_mod_cast hn)]
        split
        · push_cast; ring
        · rw [Int.tdiv_eq_ediv_of_nonneg (by positivity)]; push_cast; ring
  rw [hq]
  generalize (if src.f ≤ dst.f then v.natAbs * 2 ^ (dst.f - src.f)
    else v.natAbs / 2 ^ (src.f - dst.f)) = m
  have h1 : v.natAbs ≠ 0 := by omega
  rcases lt_or_gt_of_ne hv0 with hv | hv
  · cases nu <;> by_cases hm : m = 0 <;>
      simp [nuFix, hv, hm, h1, Int.sign_eq_neg_one_of_neg hv]
  · have h2 : ¬v < 0 := by omega
    cases nu <;> by_cases hm : m = 0 <;>
      simp [nuFix, hm, h1, h2, Int.sign_eq_one_of_pos hv]

theorem cvt_lt (ssr : SubwidthRead) (src dst : Format) (r : Nat) (nu : Bool) :
    cvt ssr src dst r nu < 2 ^ dst.t := by
  rw [cvt_eq_reduce]; exact reduce_lt _ _

end Sys2Proof.Laws
end

