-- ==== Sys2Proof/Laws/Decode.lean ====
section
/-! SUPPORT. Laws of the fields of a command word. -/

namespace Sys2Proof.Laws

@[simp] theorem reg_ofBits_bits (r : Reg) : Reg.ofBits r.bits = r := by cases r <;> rfl

@[simp] theorem reg_bits_ofBits (b : BitVec 3) : (Reg.ofBits b).bits = b := by revert b; decide

@[simp] theorem sign_ofBit_bit (s : Signedness) : Signedness.ofBit s.bit = s := by cases s <;> rfl

@[simp] theorem sign_bit_ofBit (b : BitVec 1) : (Signedness.ofBit b).bit = b := by revert b; decide

theorem sign_bit_toNat (s : Signedness) : s.bit.toNat = if s = .signed then 1 else 0 := by
  cases s <;> rfl

/-- R8: bits hi..lo of a word are a quotient's remainder. -/
theorem extract_toNat (w : CmdWord) (lo n : Nat) :
    (w.extractLsb' lo n).toNat = w.toNat / 2 ^ lo % 2 ^ n := by
  rw [BitVec.extractLsb'_toNat, Nat.shiftRight_eq_div_pow]

theorem fieldNu_eq (w : CmdWord) : fieldNu w = decide (w.toNat / 2 ^ 17 % 2 = 1) := by
  rw [fieldNu, ← BitVec.testBit_toNat, Nat.testBit_eq_decide_div_mod_eq]

/-- Two fields that do not overlap: their OR is their sum. -/
theorem or_shiftLeft_eq_add {a b k : Nat} (h : a < 2 ^ k) : a ||| b <<< k = a + b * 2 ^ k := by
  rw [Nat.shiftLeft_eq, mul_comm b, Nat.or_comm, ← Nat.two_pow_add_eq_or_of_lt h, add_comm]

/-- What the decoder does once the opcode's row is known. -/
theorem decode_of_shape {c : Config} {w : CmdWord} {sh : Shape} (h : shapeOf (fieldOp w) = some sh) :
    decode c w = decodeShape c w sh := by
  simp [decode, h]

theorem decode_of_no_shape {c : Config} {w : CmdWord} (h : shapeOf (fieldOp w) = none) :
    decode c w = .error .unknownOp := by
  simp [decode, h]

end Sys2Proof.Laws
end

