-- ==== Sys2Proof/Laws/Elementary.lean ====
section
/-! SUPPORT. Laws of the elementary cores: where range reduction lands, why Turner's early exit is never
taken, why F + 2 Taylor terms suffice (43_elementary.md R223), and how each core can end. -/

namespace Sys2Proof.Laws

open Sys2Proof.Machine

/-! ## Range reduction (R214, R223) -/

/-- `n` doublings suffice when they can reach 2^f: `k` of them are done, and none past 2^(f+1). -/
theorem doubleUp_spec (f : Nat) : ∀ (n z : Nat) (y : Int), 2 ^ f ≤ z * 2 ^ n →
    ∃ k ≤ n, doubleUp f n (z, y) = (z * 2 ^ k, y - k * 2 ^ f) ∧ 2 ^ f ≤ z * 2 ^ k ∧
      (k = 0 ∨ z * 2 ^ k < 2 ^ (f + 1))
  | 0, z, y, h => ⟨0, le_refl 0, by simp [doubleUp], by simpa using h, .inl rfl⟩
  | n + 1, z, y, h => by
    unfold doubleUp
    split
    · next hz =>
      obtain ⟨k, hk, he, hl, hu⟩ := doubleUp_spec f n (z * 2) (y - 2 ^ f)
        (by rw [mul_assoc, ← pow_succ']; exact h)
      have hp : z * 2 * 2 ^ k = z * 2 ^ (k + 1) := by ring
      refine ⟨k + 1, by omega, ?_, hp ▸ hl, .inr ?_⟩
      · rw [he, hp]; push_cast; congr 1; ring
      · rcases hu with rfl | hu
        · have := pow_succ 2 f
          have : z < 2 ^ f := hz
          omega
        · exact hp ▸ hu
    · next hz =>
      exact ⟨0, Nat.zero_le _, by simp, by simpa using hz, .inl rfl⟩

/-- `n` halvings suffice when they can come below 2^(f+1). -/
theorem halveDown_spec (f : Nat) : ∀ (n z : Nat) (y : Int), 2 ^ f ≤ z → z < 2 ^ (f + 1 + n) →
    ∃ k ≤ n, halveDown f n (z, y) = (z / 2 ^ k, y + k * 2 ^ f) ∧ 2 ^ f ≤ z / 2 ^ k ∧
      z / 2 ^ k < 2 ^ (f + 1)
  | 0, z, y, h, hu => ⟨0, le_refl 0, by simp [halveDown], by simpa using h, by simpa using hu⟩
  | n + 1, z, y, h, hu => by
    unfold halveDown
    split
    · next hz =>
      have h2 : 2 ^ (f + 1 + (n + 1)) = 2 ^ (f + 1 + n) * 2 := by rw [← pow_succ]; rfl
      have h3 := pow_succ 2 f
      have hz' : 2 ^ (f + 1) ≤ z := hz
      obtain ⟨k, hk, he, hl, hu'⟩ := halveDown_spec f n (z / 2) (y + 2 ^ f) (by omega) (by omega)
      have hp : z / 2 / 2 ^ k = z / 2 ^ (k + 1) := by rw [Nat.div_div_eq_div_mul, pow_succ']
      refine ⟨k + 1, by omega, ?_, hp ▸ hl, hp ▸ hu'⟩
      rw [he, hp]; push_cast; congr 1; ring
    · next hz =>
      exact ⟨0, Nat.zero_le _, by simp, by simpa using h, by simpa using hz⟩

/-- R215: range reduction of a positive raw value lands in [1.0, 2.0), and the counts it is given suffice. -/
theorem rangeReduce_spec {c : Config} {x : Nat} (hx : 1 ≤ x) (hlt : x < 2 ^ c.t) :
    2 ^ c.f ≤ (rangeReduce c x).1 ∧ (rangeReduce c x).1 < 2 ^ (c.f + 1) := by
  obtain ⟨k, -, he, hl, hu⟩ := doubleUp_spec c.f c.f x 0 (Nat.le_mul_of_pos_left _ hx)
  have hb : x * 2 ^ k < 2 ^ (c.f + 1 + c.t) := by
    rcases hu with rfl | hu
    · calc x * 2 ^ 0 < 2 ^ c.t := by simpa using hlt
        _ ≤ 2 ^ (c.f + 1 + c.t) := Nat.pow_le_pow_right (by norm_num) (by omega)
    · exact hu.trans_le (Nat.pow_le_pow_right (by norm_num) (by omega))
  obtain ⟨j, -, he', hl', hu'⟩ := halveDown_spec c.f c.t (x * 2 ^ k) (0 - k * 2 ^ c.f) hl hb
  unfold rangeReduce
  rw [he, he']
  exact ⟨hl', hu'⟩

/-! ## Turner's recurrence (R215) -/

/-- R32: two magnitude whole bits, as a bound on T. -/
theorem logFormat_spec {c : Config} (h : logFormat c.toFormat = true) :
    c.f + 2 ≤ c.t ∧ (c.s = .signed → c.f + 3 ≤ c.t) := by
  unfold logFormat magnitudeBits at h
  cases hs : c.s <;> simp [hs] at h
  · exact ⟨by omega, by simp⟩
  · exact ⟨by omega, by omega⟩

theorem expFormat_spec {c : Config} (h : expFormat c.toFormat = true) :
    c.f + 1 ≤ c.t ∧ (c.s = .signed → c.f + 2 ≤ c.t) := by
  unfold expFormat magnitudeBits at h
  cases hs : c.s <;> simp [hs] at h
  · exact ⟨by omega, by simp⟩
  · exact ⟨by omega, by omega⟩

/-- An unsigned raw value reads as itself. -/
theorem uval_of_unsigned {c : Config} (hs : c.s = .unsigned) (r : Nat) : uval c r = r := by
  simp [uval, ival, hs]

/-- R215: a value in [1.0, 2.0) squares exactly, floor-shifted, into [1.0, 4.0). -/
theorem mul_self_reduced {c : Config} (h : Admitted c) (hf : logFormat c.toFormat = true) {z : Nat}
    (hl : 2 ^ c.f ≤ z) (hu : z < 2 ^ (c.f + 1)) :
    mul c z z = z * z / 2 ^ c.f ∧ 2 ^ c.f ≤ mul c z z ∧ mul c z z < 2 ^ (c.f + 2) := by
  obtain ⟨h2, h3⟩ := logFormat_spec hf
  have hz : uval c z = z := by
    cases hs : c.s with
    | unsigned => exact uval_of_unsigned hs z
    | signed =>
      have : 2 ^ (c.f + 3) ≤ 2 ^ c.t := Nat.pow_le_pow_right (by norm_num) (h3 hs)
      have : 2 ^ (c.f + 3) = 2 ^ (c.f + 1) * 4 := by rw [show c.f + 3 = c.f + 1 + 2 by rfl, pow_add]; norm_num
      exact uval_of_small h (by omega)
  have hp : 0 < 2 ^ c.f := by positivity
  have hlo : 2 ^ c.f ≤ z * z / 2 ^ c.f := by
    rw [Nat.le_div_iff_mul_le hp]; exact Nat.mul_le_mul hl hl
  have hhi : z * z / 2 ^ c.f < 2 ^ (c.f + 2) := by
    rw [Nat.div_lt_iff_lt_mul hp]
    calc z * z < 2 ^ (c.f + 1) * 2 ^ (c.f + 1) := Nat.mul_lt_mul'' hu hu
      _ = 2 ^ (c.f + 2) * 2 ^ c.f := by rw [← pow_add, ← pow_add]; congr 1; omega
  have he : mul c z z = z * z / 2 ^ c.f := by
    rw [mul_natCast h hz hz]
    exact Nat.mod_eq_of_lt (hhi.trans_le (Nat.pow_le_pow_right (by norm_num) h2))
  rw [he]; exact ⟨rfl, hlo, hhi⟩

/-- R215: one squaring of Turner's loop; the exit on zero is not taken, and z stays in [1.0, 2.0). -/
theorem turner_succ {c : Config} (h : Admitted c) (hf : logFormat c.toFormat = true) {z : Nat}
    (hl : 2 ^ c.f ≤ z) (hu : z < 2 ^ (c.f + 1)) (n : Nat) (y : Int) (b : Nat) :
    ∃ z', 2 ^ c.f ≤ z' ∧ z' < 2 ^ (c.f + 1) ∧
      ((2 ^ (c.f + 1) ≤ z * z / 2 ^ c.f ∧ z' = z * z / 2 ^ c.f / 2 ∧
          turner c (n + 1) z y b = turner c n z' (y + b) (b / 2)) ∨
        (z * z / 2 ^ c.f < 2 ^ (c.f + 1) ∧ z' = z * z / 2 ^ c.f ∧
          turner c (n + 1) z y b = turner c n z' y (b / 2))) := by
  obtain ⟨he, hlo, hhi⟩ := mul_self_reduced h hf hl hu
  rw [he] at hlo hhi
  have hp : 0 < 2 ^ c.f := by positivity
  have h1 := pow_succ 2 c.f
  have h2 := pow_succ 2 (c.f + 1)
  rw [show c.f + 1 + 1 = c.f + 2 by rfl] at h2
  simp only [turner, he]
  rw [if_neg (by omega)]
  by_cases hc : 2 ^ (c.f + 1) ≤ z * z / 2 ^ c.f
  · exact ⟨z * z / 2 ^ c.f / 2, by omega, by omega, .inl ⟨hc, rfl, by rw [if_pos hc]⟩⟩
  · exact ⟨z * z / 2 ^ c.f, hlo, by omega, .inr ⟨by omega, rfl, by rw [if_neg hc]⟩⟩

/-- R214: the three ways log2_core ends. -/
theorem log2Core_cases (c : Config) (x : Nat) :
    (x = 0 ∧ log2Core c x = (0, errZeroArgument)) ∨
      (x ≠ 0 ∧ isNeg c.toFormat x = true ∧ log2Core c x = (0, errNegativeArgument)) ∨
      (x ≠ 0 ∧ isNeg c.toFormat x = false ∧
        log2Core c x = (reduce c.toFormat (log2Sum c x), ErrRecord.ok)) := by
  unfold log2Core isZero
  by_cases hx : x = 0
  · simp [hx]
  · cases hn : isNeg c.toFormat x <;> simp [hx]

/-! ## The Taylor series (R218, R223) -/

/-- A fuel that exceeds the bits of the last term is enough: from there on more fuel changes nothing. -/
theorem taylorLoop_stable {c : Config} (h : Admitted c) {q : Nat} (hq : q < 2 ^ c.f)
    (hqs : uval c q = q) (hsmall : ∀ a, a < 2 ^ c.f → uval c a = a) (hft : c.f ≤ c.t) :
    ∀ (m k n term sum : Nat), 2 ≤ n → term < 2 ^ m → term < 2 ^ c.f →
      taylorLoop c q (m + 1 + k) n term sum = taylorLoop c q (m + 1) n term sum
  | 0, k, n, term, sum, _, ht, htf => by
    have : term = 0 := by simpa using ht
    have hd : divi c (mul c term q) n = 0 := by
      have hm : mul c term q = 0 := by
        rw [mul_natCast h (hsmall _ htf) hqs, this]; simp
      rw [hm, divi_natCast h (hsmall 0 (by positivity))]; simp
    rw [show 0 + 1 + k = k + 1 by omega]
    simp [taylorLoop, hd]
  | m + 1, k, n, term, sum, hn, ht, htf => by
    have hp : 0 < 2 ^ c.f := by positivity
    have hm : mul c term q ≤ term := by
      rw [mul_natCast h (hsmall _ htf) hqs]
      refine (Nat.mod_le _ _).trans ?_
      rw [Nat.div_le_iff_le_mul_add_pred hp]
      nlinarith
    have hd : divi c (mul c term q) n ≤ term / 2 := by
      rw [divi_natCast h (hsmall _ (by omega))]
      refine (Nat.mod_le _ _).trans ?_
      calc mul c term q / n ≤ mul c term q / 2 := Nat.div_le_div_left hn (by norm_num)
        _ ≤ term / 2 := Nat.div_le_div_right hm
    have h2 := pow_succ 2 m
    rw [show m + 1 + 1 + k = (m + 1 + k) + 1 by omega]
    simp only [taylorLoop]
    split
    · rfl
    · exact taylorLoop_stable h hq hqs hsmall hft m k (n + 1) _ _ (by omega) (by omega) (by omega)

/-- The exact ln 2 of R211 is below 1, so its raw value is below 2^F. -/
theorem truncScaled_ln2 (f : Nat) : 0 ≤ truncScaled ln2Const f ∧ truncScaled ln2Const f < 2 ^ f := by
  have hsg : floatSign ln2Const = false := by decide
  have hm : floatSignificand ln2Const = 6243314768165359 := by decide
  have hsc : floatScale ln2Const = -53 := by decide
  simp only [truncScaled, hsg, hm, hsc, Bool.false_eq_true, if_false]
  refine ⟨by positivity, ?_⟩
  split
  · next he =>
    obtain ⟨k, rfl⟩ : ∃ k, f = 53 + k := ⟨f - 53, by omega⟩
    rw [show (-53 + ((53 + k : Nat) : Int)).toNat = k by omega]
    push_cast
    rw [pow_add]
    have : (0 : Int) < 2 ^ k := by positivity
    nlinarith
  · next he =>
    obtain ⟨k, hk⟩ : ∃ k, 53 = f + k := ⟨53 - f, by omega⟩
    rw [show (-(-53 + (f : Int))).toNat = k by omega]
    have : 6243314768165359 / 2 ^ k < 2 ^ f := by
      rw [Nat.div_lt_iff_lt_mul (by positivity), ← pow_add, ← hk]; norm_num
    exact_mod_cast this

/-- R32: with one magnitude whole bit a raw value below 2.0 reads as itself. -/
theorem uval_of_lt_two {c : Config} (h : Admitted c) (hf : expFormat c.toFormat = true) {a : Nat}
    (ha : a < 2 ^ (c.f + 1)) : uval c a = a := by
  obtain ⟨-, h3⟩ := expFormat_spec hf
  cases hs : c.s with
  | unsigned => exact uval_of_unsigned hs a
  | signed =>
    have : 2 ^ (c.f + 2) ≤ 2 ^ c.t := Nat.pow_le_pow_right (by norm_num) (h3 hs)
    have := pow_succ 2 (c.f + 1)
    rw [show c.f + 1 + 1 = c.f + 2 by rfl] at this
    exact uval_of_small h (by omega)

theorem cf_ln2_lt {c : Config} (h : Admitted c) :
    cf c ln2Const < 2 ^ c.f := by
  obtain ⟨h0, h1⟩ := truncScaled_ln2 c.f
  have e := reduce_eq_emod (admitted_t_le_w h) (truncScaled ln2Const c.f)
  have hle : (2 : Int) ^ c.f ≤ 2 ^ c.t :=
    pow_le_pow_right₀ (by norm_num) (admitted_f_le_t h)
  rw [Int.emod_eq_of_lt h0 (h1.trans_le hle)] at e
  have : (cf c ln2Const : Int) < 2 ^ c.f := by rw [cf, e]; exact h1
  exact_mod_cast this

/-- R223: ln 2 times the fraction is below 1.0. -/
theorem taylorScale_lt {c : Config} (h : Admitted c) (hf : expFormat c.toFormat = true) {fr : Nat}
    (hfr : fr < 2 ^ c.f) : mul c (cf c ln2Const) fr < 2 ^ c.f := by
  have hp : 0 < 2 ^ c.f := by positivity
  have h1 := pow_succ 2 c.f
  have hl := cf_ln2_lt h
  rw [mul_natCast h (uval_of_lt_two h hf (by omega)) (uval_of_lt_two h hf (by omega))]
  refine (Nat.mod_le _ _).trans_lt ?_
  rw [Nat.div_lt_iff_lt_mul hp]
  exact Nat.mul_lt_mul'' hl hfr

/-- R223: after F + 2 terms the series has stopped, whatever further fuel it is given. -/
theorem taylorSum_stable {c : Config} (h : Admitted c) (hf : expFormat c.toFormat = true) {q : Nat}
    (hq : q < 2 ^ c.f) (k : Nat) (sum : Nat) :
    taylorLoop c q (c.f + 2 + k) 1 (one c.toFormat) sum =
      taylorLoop c q (c.f + 2) 1 (one c.toFormat) sum := by
  have hp : 0 < 2 ^ c.f := by positivity
  have h1 := pow_succ 2 c.f
  have hone : one c.toFormat = 2 ^ c.f := by
    rw [one_eq h]
    exact Nat.mod_eq_of_lt (Nat.pow_lt_pow_right (by norm_num) (expFormat_spec hf).1)
  have hqt : q < 2 ^ c.t := hq.trans_le (Nat.pow_le_pow_right (by norm_num) (admitted_f_le_t h))
  have hm : mul c (one c.toFormat) q = q := by
    rw [hone, mul_natCast h (uval_of_lt_two h hf (by omega)) (uval_of_lt_two h hf (by omega)),
      Nat.mul_div_cancel_left _ hp, Nat.mod_eq_of_lt hqt]
  have hd : divi c (mul c (one c.toFormat) q) 1 = q := by
    rw [hm, divi_natCast h (uval_of_lt_two h hf (by omega)), Nat.div_one, Nat.mod_eq_of_lt hqt]
  rw [show c.f + 2 + k = (c.f + 1 + k) + 1 by omega]
  simp only [taylorLoop, hd]
  split
  · rfl
  · exact taylorLoop_stable h hq (uval_of_lt_two h hf (by omega))
      (fun a ha => uval_of_lt_two h hf (by omega)) (admitted_f_le_t h) c.f k 2 q _ le_rfl hq hq

/-! ## The Newton iteration inside (−1, 1) (R212, R222) -/

/-- The exact 0.5 of R211 is half of ONE where a fraction bit can hold it. -/
theorem cf_half {c : Config} (h : Admitted c) (hf : 1 ≤ c.f) : cf c halfConst = 2 ^ (c.f - 1) := by
  have ht : truncScaled halfConst c.f = ((2 ^ (c.f - 1) : Nat) : Int) := by
    have hsg : floatSign halfConst = false := by decide
    have hm : floatSignificand halfConst = 2 ^ 52 := by decide
    have hsc : floatScale halfConst = -53 := by decide
    simp only [truncScaled, hsg, hm, hsc, Bool.false_eq_true, if_false]
    split
    · obtain ⟨k, hk⟩ : ∃ k, c.f = 53 + k := ⟨c.f - 53, by omega⟩
      rw [show (-53 + (c.f : Int)).toNat = k by omega, show c.f - 1 = 52 + k by omega, pow_add]
    · obtain ⟨k, hk⟩ : ∃ k, 53 = c.f + k := ⟨53 - c.f, by omega⟩
      rw [show (-(-53 + (c.f : Int))).toNat = k by omega, show 52 = (c.f - 1) + k by omega, pow_add,
        Nat.mul_div_cancel _ (by positivity)]
  rw [cf, ht]
  exact reduce_natCast (admitted_t_le_w h)
    (Nat.pow_lt_pow_right (by norm_num) (by have := admitted_f_le_t h; omega))

/-- One Newton step never falls below the integer square root. -/
theorem sqrt_le_newton {M X r : Nat} (hX : 1 ≤ X) (hr : r * r ≤ M) : r ≤ (X + M / X) / 2 := by
  have h1 : M < X * (M / X + 1) := by
    have := Nat.div_add_mod M X
    have := Nat.mod_lt M hX
    rw [mul_add]; omega
  generalize M / X = q at *
  by_contra hc
  have h2 := Nat.mul_le_mul (show X + q + 1 ≤ 2 * r by omega) (show X + q + 1 ≤ 2 * r by omega)
  have h3 : 4 * (X * (q + 1)) ≤ (X + q + 1) * (X + q + 1) := by
    zify; nlinarith [sq_nonneg ((X : Int) - (q + 1))]
  nlinarith

/-- R212 on values the signed format holds with two whole bits to spare: the step is exact, and no sum
overflows, under either policy. -/
theorem newtonStep_exact {c : Config} (h : Admitted c) (hs : c.s = .signed) (hf : 1 ≤ c.f)
    (ht : c.f + 3 ≤ c.t) {x X : Nat} (hx : x ≤ 2 ^ c.f) (hX : 1 ≤ X) (hXu : X ≤ 2 ^ c.f + 1)
    (hq : x * 2 ^ c.f / X ≤ 2 ^ c.f + 2) :
    newtonStep c x X = .ok ((X + x * 2 ^ c.f / X) / 2) := by
  have hw := admitted_t_le_w h
  have hp : 2 ^ c.f * 8 ≤ 2 ^ c.t := by
    rw [show 8 = 2 ^ 3 by rfl, ← pow_add]; exact Nat.pow_le_pow_right (by norm_num) ht
  have hp2 : 2 ≤ 2 ^ c.f := by simpa using Nat.pow_le_pow_right (n := 2) (by norm_num) hf
  have hpred := two_pow_pred (n := c.t) (by omega)
  have hd : div c x X = .ok (x * 2 ^ c.f / X) := by
    unfold div
    rw [uval_of_small h (by omega), uval_of_small h (by omega), if_neg (by omega)]
    rw [truncDiv, Int.tdiv_eq_ediv_of_nonneg (by positivity)]
    congr 1
    exact_mod_cast reduce_natCast hw (n := x * 2 ^ c.f / X) (by omega)
  unfold newtonStep
  rw [hd]
  generalize x * 2 ^ c.f / X = q at *
  have hadd : add c X q = X + q := by
    have hplain : reduce c.toFormat ((X : Int) + q) = X + q := by
      exact_mod_cast reduce_natCast hw (n := X + q) (by omega)
    cases hpol : c.policy <;> simp only [add, hpol, hs]
    · exact hplain
    · have hm : (X : Int) + q ≤ 2 ^ (c.t - 1) - 1 := by
        have : X + q + 1 ≤ 2 ^ (c.t - 1) := by omega
        zify at this; linarith
      rw [sext_of_two_mul_le (by omega), sext_of_two_mul_le (by omega),
        if_neg (by rintro ⟨-, -, h3⟩; linarith), if_neg (by rintro ⟨h3, -⟩; omega)]
      exact hplain
    · exact hplain
  have hhalf : 2 * 2 ^ (c.f - 1) = 2 ^ c.f := (two_pow_pred hf).symm
  simp only
  rw [hadd, cf_half h hf, mul_natCast h (uval_of_small h (by omega)) (uval_of_small h (by omega))]
  congr 1
  rw [← hhalf, Nat.mul_comm 2, Nat.mul_div_mul_left _ _ (by positivity)]
  exact Nat.mod_eq_of_lt (by omega)

/-- Inside (−1, 1) FXACOS takes the root of x = 1 − |x|, 1 ≤ x ≤ 2^F: the iteration divides by no zero, from
x itself or from any iterate, and its result is positive. -/
theorem newtonLoop_ok {c : Config} (h : Admitted c) (hs : c.s = .signed) (hf : 1 ≤ c.f)
    (ht : c.f + 3 ≤ c.t) {x : Nat} (h1 : 1 ≤ x) (hx : x ≤ 2 ^ c.f) :
    ∀ (n X : Nat), X = x ∨ ((x * 2 ^ c.f).sqrt ≤ X ∧ X ≤ 2 ^ c.f + 1) →
      ∃ v, 1 ≤ v ∧ newtonLoop c x n X = .ok v := by
  have hr := Nat.sqrt_le (x * 2 ^ c.f)
  have hru := Nat.sqrt_le_add (x * 2 ^ c.f)
  have hM : x * 2 ^ c.f ≤ 2 ^ c.f * 2 ^ c.f := Nat.mul_le_mul_right _ hx
  have hp : 1 ≤ 2 ^ c.f := Nat.one_le_two_pow
  have hr1 : 1 ≤ (x * 2 ^ c.f).sqrt := by rw [Nat.le_sqrt]; nlinarith
  have hrf : (x * 2 ^ c.f).sqrt ≤ 2 ^ c.f := by
    by_contra hc
    have := Nat.mul_le_mul (show 2 ^ c.f + 1 ≤ (x * 2 ^ c.f).sqrt by omega)
      (show 2 ^ c.f + 1 ≤ (x * 2 ^ c.f).sqrt by omega)
    nlinarith
  intro n
  induction n with
  | zero => intro X hX; exact ⟨X, by omega, rfl⟩
  | succ n ih =>
    intro X hX
    have hb : x * 2 ^ c.f / X ≤ 2 ^ c.f + 2 ∧ (X + x * 2 ^ c.f / X) / 2 ≤ 2 ^ c.f + 1 := by
      rcases hX with rfl | ⟨hl, hu⟩
      · rw [Nat.mul_div_cancel_left _ h1]; omega
      · have : x * 2 ^ c.f / X ≤ (x * 2 ^ c.f).sqrt + 2 := by
          generalize (x * 2 ^ c.f).sqrt = r at *
          generalize x * 2 ^ c.f = M at *
          rw [Nat.div_le_iff_le_mul_add_pred (by omega)]
          nlinarith
        omega
    unfold newtonLoop
    rw [newtonStep_exact h hs hf ht hx (by omega) (by omega) hb.1]
    simp only
    split
    · exact ⟨X, by omega, rfl⟩
    · exact ih _ (.inr ⟨sqrt_le_newton (by omega) hr, hb.2⟩)

/-! ## How the cores can end -/

/-- Every iterate is a raw value. -/
theorem newtonLoop_cases (c : Config) (x : Nat) : ∀ (n X : Nat), X < 2 ^ c.t →
    newtonLoop c x n X = .error .divZero ∨ ∃ v, v < 2 ^ c.t ∧ newtonLoop c x n X = .ok v
  | 0, X, hX => .inr ⟨X, hX, rfl⟩
  | n + 1, X, hX => by
    unfold newtonLoop newtonStep
    cases hd : div c x X with
    | error e => rw [div_error hd]; exact .inl rfl
    | ok q =>
      simp only
      split
      · exact .inr ⟨X, hX, rfl⟩
      · exact newtonLoop_cases c x n _ (mul_lt _ _ _)

/-- R212: sqrt_core returns a raw value, or raises SQRT_NEG or DIV_ZERO. -/
theorem sqrtCore_cases (c : Config) {x : Nat} (hx : x < 2 ^ c.t) :
    sqrtCore c x = .error .sqrtNeg ∨ sqrtCore c x = .error .divZero ∨
      ∃ v, v < 2 ^ c.t ∧ sqrtCore c x = .ok v := by
  unfold sqrtCore
  split
  · exact .inl rfl
  · split
    · exact .inr (.inr ⟨0, by positivity, rfl⟩)
    · exact .inr (newtonLoop_cases c x _ _ hx)

/-- R218: exp2_core returns a raw value or raises DIV_ZERO. -/
theorem exp2Core_cases (c : Config) (x : Nat) :
    exp2Core c x = .error .divZero ∨ ∃ v, v < 2 ^ c.t ∧ exp2Core c x = .ok v := by
  unfold exp2Core
  split
  · cases hd : div c (one c.toFormat) (exp2Product c (neg c x)) with
    | error e => rw [div_error hd]; exact .inl rfl
    | ok q => exact .inr ⟨q, div_lt hd, rfl⟩
  · exact .inr ⟨_, mul_lt _ _ _, rfl⟩

/-- R222: acos inherits sqrt_core's faults. -/
theorem acosCore_cases (c : Config) (x : Nat) :
    acosCore c x = .error .sqrtNeg ∨ acosCore c x = .error .divZero ∨
      ∃ v, v < 2 ^ c.t ∧ acosCore c x = .ok v := by
  unfold acosCore
  simp only
  rcases sqrtCore_cases c (sub_lt c (one c.toFormat) (if isNeg c.toFormat x = true then neg c x else x))
    with h | h | ⟨v, -, h⟩ <;> rw [h]
  · exact .inl rfl
  · exact .inr (.inl rfl)
  · refine .inr (.inr ⟨_, ?_, rfl⟩)
    split
    · exact sub_lt _ _ _
    · exact mul_lt _ _ _

end Sys2Proof.Laws
end

