-- ==== Sys2Proof/Laws/PerInstr.lean ====
section
/-! SUPPORT. The per-instruction family `Opcode`: bits [7:0] of a command's word are the number its row of
30_encoding.md R86 gives it. -/

namespace Sys2Proof.Laws

/-- The opcode number of each row of R86. -/
def opcodeOf : Instr → BitVec 8
  | .fxraw _ _ => 0x01
  | .fxfromi _ _ => 0x02
  | .fxfromf _ _ _ => 0x03
  | .fxidiv _ _ _ _ => 0x04
  | .fxdivi _ _ _ _ => 0x05
  | .fxcvtin _ _ _ _ => 0x06
  | .fxcvtout _ _ _ _ => 0x07
  | .fxtoi _ _ => 0x08
  | .fxtof _ _ => 0x09
  | .fxispos _ _ => 0x10
  | .fxisneg _ _ => 0x11
  | .fxisnneg _ _ => 0x12
  | .fxiszero _ _ => 0x13
  | .fxeq _ _ _ => 0x14
  | .fxne _ _ _ => 0x15
  | .fxlt _ _ _ => 0x16
  | .fxle _ _ _ => 0x17
  | .fxadd _ _ _ => 0x20
  | .fxsub _ _ _ => 0x21
  | .fxmul _ _ _ => 0x22
  | .fxdiv _ _ _ => 0x23
  | .fxneg _ _ => 0x24
  | .fxrcp _ _ => 0x25
  | .fxabs _ _ => 0x26
  | .fxsqrt _ _ => 0x30
  | .fxlog2 _ _ => 0x31
  | .fxln _ _ => 0x32
  | .fxlog10 _ _ => 0x33
  | .fxexp2 _ _ => 0x34
  | .fxexp _ _ => 0x35
  | .fxexp10 _ _ => 0x36
  | .fxpow _ _ _ => 0x37
  | .fxacos _ _ => 0x38

/-- R81: the low byte of a format R word is its opcode. -/
theorem fieldOp_encodeR (op : BitVec 8) (rd rs1 : Reg) (rs2 : BitVec 3) (nu : Bool) :
    fieldOp (encodeR op rd rs1 rs2 nu) = op := by
  ext i hi
  have h8 : i < 8 := hi
  have h32 : i < 32 := by omega
  simp [fieldOp, encodeR, h8, h32, show i < 11 by omega, show i < 14 by omega, show i < 17 by omega]

/-- R81: the low byte of a format X word is its opcode. -/
theorem fieldOp_encodeX (op : BitVec 8) (rd rs1 : Reg) (d : Desc) (nu : Bool) :
    fieldOp (encodeX op rd rs1 d nu) = op := by
  ext i hi
  have h8 : i < 8 := hi
  have h32 : i < 32 := by omega
  simp [fieldOp, encodeX, h8, h32, show i < 11 by omega, show i < 17 by omega, show i < 18 by omega,
    show i < 19 by omega, show i < 25 by omega]

/-- R81, R86: the low byte of the command's word is its row's opcode. -/
def Opcode.Statement (i : Instr) : Prop := fieldOp (encode i) = opcodeOf i

theorem Opcode.fxraw (a : Reg) (b : Reg) : Opcode.Statement (.fxraw a b) :=
  fieldOp_encodeR _ _ _ _ _

theorem Opcode.fxfromi (a : Reg) (b : Reg) : Opcode.Statement (.fxfromi a b) :=
  fieldOp_encodeR _ _ _ _ _

theorem Opcode.fxfromf (a : Reg) (b : Reg) (nu : Bool) : Opcode.Statement (.fxfromf a b nu) :=
  fieldOp_encodeR _ _ _ _ _

theorem Opcode.fxidiv (a : Reg) (b : Reg) (d : Reg) (nu : Bool) : Opcode.Statement (.fxidiv a b d nu) :=
  fieldOp_encodeR _ _ _ _ _

theorem Opcode.fxdivi (a : Reg) (b : Reg) (d : Reg) (nu : Bool) : Opcode.Statement (.fxdivi a b d nu) :=
  fieldOp_encodeR _ _ _ _ _

theorem Opcode.fxcvtin (a : Reg) (b : Reg) (desc : Desc) (nu : Bool) : Opcode.Statement (.fxcvtin a b desc nu) :=
  fieldOp_encodeX _ _ _ _ _

theorem Opcode.fxcvtout (a : Reg) (b : Reg) (desc : Desc) (nu : Bool) : Opcode.Statement (.fxcvtout a b desc nu) :=
  fieldOp_encodeX _ _ _ _ _

theorem Opcode.fxtoi (a : Reg) (b : Reg) : Opcode.Statement (.fxtoi a b) :=
  fieldOp_encodeR _ _ _ _ _

theorem Opcode.fxtof (a : Reg) (b : Reg) : Opcode.Statement (.fxtof a b) :=
  fieldOp_encodeR _ _ _ _ _

theorem Opcode.fxispos (a : Reg) (b : Reg) : Opcode.Statement (.fxispos a b) :=
  fieldOp_encodeR _ _ _ _ _

theorem Opcode.fxisneg (a : Reg) (b : Reg) : Opcode.Statement (.fxisneg a b) :=
  fieldOp_encodeR _ _ _ _ _

theorem Opcode.fxisnneg (a : Reg) (b : Reg) : Opcode.Statement (.fxisnneg a b) :=
  fieldOp_encodeR _ _ _ _ _

theorem Opcode.fxiszero (a : Reg) (b : Reg) : Opcode.Statement (.fxiszero a b) :=
  fieldOp_encodeR _ _ _ _ _

theorem Opcode.fxeq (a : Reg) (b : Reg) (d : Reg) : Opcode.Statement (.fxeq a b d) :=
  fieldOp_encodeR _ _ _ _ _

theorem Opcode.fxne (a : Reg) (b : Reg) (d : Reg) : Opcode.Statement (.fxne a b d) :=
  fieldOp_encodeR _ _ _ _ _

theorem Opcode.fxlt (a : Reg) (b : Reg) (d : Reg) : Opcode.Statement (.fxlt a b d) :=
  fieldOp_encodeR _ _ _ _ _

theorem Opcode.fxle (a : Reg) (b : Reg) (d : Reg) : Opcode.Statement (.fxle a b d) :=
  fieldOp_encodeR _ _ _ _ _

theorem Opcode.fxadd (a : Reg) (b : Reg) (d : Reg) : Opcode.Statement (.fxadd a b d) :=
  fieldOp_encodeR _ _ _ _ _

theorem Opcode.fxsub (a : Reg) (b : Reg) (d : Reg) : Opcode.Statement (.fxsub a b d) :=
  fieldOp_encodeR _ _ _ _ _

theorem Opcode.fxmul (a : Reg) (b : Reg) (d : Reg) : Opcode.Statement (.fxmul a b d) :=
  fieldOp_encodeR _ _ _ _ _

theorem Opcode.fxdiv (a : Reg) (b : Reg) (d : Reg) : Opcode.Statement (.fxdiv a b d) :=
  fieldOp_encodeR _ _ _ _ _

theorem Opcode.fxneg (a : Reg) (b : Reg) : Opcode.Statement (.fxneg a b) :=
  fieldOp_encodeR _ _ _ _ _

theorem Opcode.fxrcp (a : Reg) (b : Reg) : Opcode.Statement (.fxrcp a b) :=
  fieldOp_encodeR _ _ _ _ _

theorem Opcode.fxabs (a : Reg) (b : Reg) : Opcode.Statement (.fxabs a b) :=
  fieldOp_encodeR _ _ _ _ _

theorem Opcode.fxsqrt (a : Reg) (b : Reg) : Opcode.Statement (.fxsqrt a b) :=
  fieldOp_encodeR _ _ _ _ _

theorem Opcode.fxlog2 (a : Reg) (b : Reg) : Opcode.Statement (.fxlog2 a b) :=
  fieldOp_encodeR _ _ _ _ _

theorem Opcode.fxln (a : Reg) (b : Reg) : Opcode.Statement (.fxln a b) :=
  fieldOp_encodeR _ _ _ _ _

theorem Opcode.fxlog10 (a : Reg) (b : Reg) : Opcode.Statement (.fxlog10 a b) :=
  fieldOp_encodeR _ _ _ _ _

theorem Opcode.fxexp2 (a : Reg) (b : Reg) : Opcode.Statement (.fxexp2 a b) :=
  fieldOp_encodeR _ _ _ _ _

theorem Opcode.fxexp (a : Reg) (b : Reg) : Opcode.Statement (.fxexp a b) :=
  fieldOp_encodeR _ _ _ _ _

theorem Opcode.fxexp10 (a : Reg) (b : Reg) : Opcode.Statement (.fxexp10 a b) :=
  fieldOp_encodeR _ _ _ _ _

theorem Opcode.fxpow (a : Reg) (b : Reg) (d : Reg) : Opcode.Statement (.fxpow a b d) :=
  fieldOp_encodeR _ _ _ _ _

theorem Opcode.fxacos (a : Reg) (b : Reg) : Opcode.Statement (.fxacos a b) :=
  fieldOp_encodeR _ _ _ _ _

end Sys2Proof.Laws
end

