-- ==== Sys2Proof/Laws/Step.lean ====
section
/-! SUPPORT. Laws of the port and the step: everything a running command and a step can do to the state. -/

namespace Sys2Proof.Laws

open Sys2Proof.Machine

/-- R304: a running command completes, or faults with the word it runs recorded as its own encoding or, for
an illegal word, as it was issued. -/
theorem runCommand_cases {s : State} (h : Admitted s.cfg) (w : CmdWord) :
    (∃ i ws, decode s.cfg w = .ok i ∧ runCommand w s = .next (commit ws s)) ∨
    (∃ i c, decode s.cfg w = .ok i ∧ runCommand w s = .next (takeFault c (encode i) s)) ∨
    ∃ e, decode s.cfg w = .error e ∧ runCommand w s = .next (takeFault .illegalOp w s) := by
  unfold runCommand
  cases hd : decode s.cfg w with
  | error e => exact .inr (.inr ⟨e, rfl, rfl⟩)
  | ok i =>
    rcases exec_cases i s with ⟨ws, -, he⟩ | ⟨c, -, he⟩ | ⟨why, hw, -⟩
    · exact .inl ⟨i, ws, rfl, he⟩
    · exact .inr (.inl ⟨i, c, rfl, he⟩)
    · rw [show rejectConfig s.cfg = none from h] at hw; cases hw

/-- R305, R64: a HostWrite sets one operand register, is ignored, or is refused. -/
theorem hostWrite_cases (idx : HostIndex) (v : Word) (s : State) :
    (∃ r, hostReg idx = some r ∧ hostWrite idx v s = .next (writeX r v s)) ∨
    (hostReg idx = none ∧ idx.toNat ≤ 10 ∧ hostWrite idx v s = .next s) ∨
    (hostReg idx = none ∧ 10 < idx.toNat ∧
      hostWrite idx v s = .refused (.reservedHostIndex idx)) := by
  unfold hostWrite
  cases hr : hostReg idx with
  | some r => exact .inl ⟨r, rfl, rfl⟩
  | none =>
    by_cases hi : idx.toNat ≤ 10
    · exact .inr (.inl ⟨rfl, hi, by simp [hi]⟩)
    · exact .inr (.inr ⟨rfl, by omega, by simp [hi]⟩)

/-- R63, R64: a HostRead gives the host a word and changes nothing else, or is refused. -/
theorem hostRead_cases (idx : HostIndex) (s : State) :
    (∃ v, hostReadWord s idx = some v ∧ hostRead idx s = .next { s with reply := some v }) ∨
    (hostReadWord s idx = none ∧ hostRead idx s = .refused (.reservedHostIndex idx)) := by
  unfold hostRead
  cases hr : hostReadWord s idx with
  | some v => exact .inl ⟨v, rfl, rfl⟩
  | none => exact .inr ⟨rfl, rfl⟩

/-- A step of a configuration that elaborates no unit is refused. -/
theorem step_refused {s : State} {why : ElabRefusal} (h : rejectConfig s.cfg = some why) :
    step s = .refused (.notElaborated why) := by
  simp [step, portStep, h]

/-- R300: a reset at the head of the port is served in every STATE. -/
theorem step_reset {s : State} (h : Admitted s.cfg) {rest : List HostOp} (hp : s.port = .reset :: rest) :
    step s = .next (resetUnit { s with port := rest }) := by
  simp only [step, portStep, show rejectConfig s.cfg = none from h, hp]
  cases hu : s.unit <;> rfl

/-- R70: a BUSY unit runs its command and the port holds every operation but a reset. -/
theorem step_busy {s : State} (h : Admitted s.cfg) {w : CmdWord} (hu : s.unit = .busy w)
    (hp : s.port.head? ≠ some .reset) : step s = runCommand w s := by
  simp only [step, portStep, show rejectConfig s.cfg = none from h, hu]
  cases hq : s.port with
  | nil => rfl
  | cons op rest =>
    rw [hq] at hp
    cases op with
    | reset => exact absurd rfl hp
    | hostWrite idx v => rfl
    | hostRead idx => rfl
    | issue w' => rfl

/-- R301: with no operation waiting, a unit that is not BUSY stays as it is. -/
theorem step_empty {s : State} (h : Admitted s.cfg) (hu : ∀ w, s.unit ≠ .busy w) (hp : s.port = []) :
    step s = .next s := by
  unfold step portStep
  rw [show rejectConfig s.cfg = none from h, hp]
  cases hu' : s.unit with
  | busy w => exact absurd hu' (hu w)
  | idle => rfl
  | halted => rfl

/-- A unit that is not BUSY serves the oldest waiting operation. -/
theorem step_hostOp {s : State} (h : Admitted s.cfg) (hu : ∀ w, s.unit ≠ .busy w) {op : HostOp}
    {rest : List HostOp} (hp : s.port = op :: rest) : step s = hostOp op { s with port := rest } := by
  simp only [step, portStep, show rejectConfig s.cfg = none from h, hp]
  cases hu' : s.unit with
  | busy w => exact absurd hu' (hu w)
  | idle => rfl
  | halted => rfl

/-- The model never stops in a fault of its own: an architectural fault is a next state (R272). -/
theorem step_not_fault (s : State) (f : Fault) : step s ≠ .fault f := by
  cases hr : rejectConfig s.cfg with
  | some why => simp [step_refused hr]
  | none =>
    have hrun : ∀ (w : CmdWord) (b : State), b.cfg = s.cfg → runCommand w b ≠ .fault f := by
      intro w b hb
      have h : Admitted b.cfg := by rw [hb]; exact hr
      rcases runCommand_cases h w with ⟨_, _, _, e⟩ | ⟨_, _, _, e⟩ | ⟨_, _, e⟩ <;> simp [e]
    by_cases hb : ∃ w, s.unit = .busy w
    · obtain ⟨w, hw⟩ := hb
      by_cases hp : s.port.head? = some .reset
      · obtain ⟨rest, hq⟩ := List.head?_eq_some_iff.mp hp
        simp [step_reset hr hq]
      · rw [step_busy hr hw hp]; exact hrun w s rfl
    · have hu : ∀ w, s.unit ≠ .busy w := fun w hw => hb ⟨w, hw⟩
      cases hq : s.port with
      | nil => simp [step_empty hr hu hq]
      | cons op rest =>
        rw [step_hostOp hr hu hq]
        cases op with
        | hostWrite idx v =>
          rcases hostWrite_cases idx v { s with port := rest } with ⟨_, _, e⟩ | ⟨_, _, e⟩ | ⟨_, _, e⟩ <;>
            simp [hostOp, e]
        | hostRead idx =>
          rcases hostRead_cases idx { s with port := rest } with ⟨_, _, e⟩ | ⟨_, e⟩ <;> simp [hostOp, e]
        | reset => simp [hostOp]
        | issue w =>
          simp only [hostOp, issue]
          split
          · simp
          all_goals exact hrun w _ rfl

/-- A step that goes on is of an elaborated unit. -/
theorem admitted_of_step {s t : State} (h : step s = .next t) : Admitted s.cfg := by
  cases hr : rejectConfig s.cfg with
  | none => exact hr
  | some why => rw [step_refused hr] at h; cases h

/-- Everything one step can do, said once: the unit waits; a HostWrite, a HostRead or an ignored write is
served; a discarded Issue is dropped; a reset is taken; or a command runs, completing or faulting, from the
port or from BUSY. -/
theorem step_cases {s t : State} (h : step s = .next t) :
    (t = s) ∨
    (∃ rest, t = { s with port := rest }) ∨
    (∃ r v rest, t = writeX r v { s with port := rest }) ∨
    (∃ v rest, t = { s with port := rest, reply := some v }) ∨
    (∃ rest, t = resetUnit { s with port := rest }) ∨
    (s.unit ≠ .halted ∧ ∃ w rest, ∃ b : State, b = { s with unit := .busy w, port := rest } ∧
      runCommand w b = .next t) := by
  have ha := admitted_of_step h
  by_cases hb : ∃ w, s.unit = .busy w
  · obtain ⟨w, hw⟩ := hb
    by_cases hp : s.port.head? = some .reset
    · cases hq : s.port with
      | nil => rw [hq] at hp; cases hp
      | cons op rest =>
        rw [hq] at hp
        simp only [List.head?_cons, Option.some.injEq] at hp
        rw [hp] at hq
        rw [step_reset ha hq] at h
        cases h
        exact .inr (.inr (.inr (.inr (.inl ⟨rest, rfl⟩))))
    · rw [step_busy ha hw hp] at h
      refine .inr (.inr (.inr (.inr (.inr ⟨by simp [hw], w, s.port, s, ?_, h⟩))))
      rw [← hw]
  · have hu : ∀ w, s.unit ≠ .busy w := fun w hw => hb ⟨w, hw⟩
    cases hq : s.port with
    | nil => rw [step_empty ha hu hq] at h; cases h; exact .inl rfl
    | cons op rest =>
      rw [step_hostOp ha hu hq] at h
      cases op with
      | hostWrite idx v =>
        rcases hostWrite_cases idx v { s with port := rest } with ⟨r, -, he⟩ | ⟨-, -, he⟩ | ⟨-, -, he⟩ <;>
          rw [hostOp, he] at h <;> cases h
        · exact .inr (.inr (.inl ⟨r, v, rest, rfl⟩))
        · exact .inr (.inl ⟨rest, rfl⟩)
      | hostRead idx =>
        rcases hostRead_cases idx { s with port := rest } with ⟨v, -, he⟩ | ⟨-, he⟩ <;>
          rw [hostOp, he] at h <;> cases h
        exact .inr (.inr (.inr (.inl ⟨v, rest, rfl⟩)))
      | reset => cases h; exact .inr (.inr (.inr (.inr (.inl ⟨rest, rfl⟩))))
      | issue w =>
        simp only [hostOp, issue] at h
        cases hu' : s.unit with
        | busy w' => exact absurd hu' (hu w')
        | halted => simp only [hu'] at h; cases h; exact .inr (.inl ⟨rest, by rw [← hu']⟩)
        | idle =>
          simp only [hu'] at h
          exact .inr (.inr (.inr (.inr (.inr ⟨by simp, w, rest, _, rfl, h⟩))))

end Sys2Proof.Laws
end

