-- ==== Sys2Proof/Laws/Safety.lean ====
section
/-! SUPPORT. Laws of the strict step (10_state.md R53, 60_exceptions.md R274, R279): when it is the step, and
what a stop of it names. -/

namespace Sys2Proof.Laws

open Sys2Proof.Machine Sys2Proof.Safety

/-- R274: the operand UNINIT names belongs to a legal command whose format precondition holds, and has not
been written. -/
theorem uninitOperand_some {w : CmdWord} {s : State} {r : Reg} (h : uninitOperand w s = some r) :
    ∃ i, decode s.cfg w = .ok i ∧ formatOk s.cfg.toFormat i = true ∧ r ∈ reads i ∧
      s.written.get r = false := by
  unfold uninitOperand at h
  cases hd : decode s.cfg w with
  | error e => simp [hd] at h
  | ok i =>
    simp only [hd] at h
    split at h
    · next hf => exact ⟨i, rfl, hf, List.mem_of_find?_eq_some h, by simpa using List.find?_some h⟩
    · cases h

/-- R274: with no such operand, the word is illegal, its format precondition fails, or every operand has been
written. -/
theorem uninitOperand_none {w : CmdWord} {s : State} (h : uninitOperand w s = none) {i : Instr}
    (hd : decode s.cfg w = .ok i) (hf : formatOk s.cfg.toFormat i = true) :
    ∀ r ∈ reads i, s.written.get r = true := by
  simp only [uninitOperand, hd, hf, if_true] at h
  simpa using h

/-- Where nothing unwritten is read, the strict step is the step. -/
theorem strictStep_of_none {s : State} (h : uninitRead s = none) : strictStep s = step s := by
  unfold strictStep
  rw [h]
  cases rejectConfig s.cfg <;> rfl

/-- Where something unwritten is read, it stops and names it. -/
theorem strictStep_of_some {s : State} (ha : Admitted s.cfg) {r : Reg} (h : uninitRead s = some r) :
    strictStep s = .fault (.uninit r) := by
  unfold strictStep
  rw [h, show rejectConfig s.cfg = none from ha]

/-- A configuration that elaborates no unit is refused by the strict step too. -/
theorem strictStep_refused {s : State} (h : ¬Admitted s.cfg) : strictStep s = step s := by
  unfold strictStep
  cases hr : rejectConfig s.cfg with
  | none => exact absurd hr h
  | some why => rfl

/-- Everything the strict step can do beside the step. -/
theorem strictStep_cases (s : State) :
    strictStep s = step s ∨ ∃ r, uninitRead s = some r ∧ strictStep s = .fault (.uninit r) := by
  by_cases ha : Admitted s.cfg
  · cases hr : uninitRead s with
    | none => exact .inl (strictStep_of_none hr)
    | some r => exact .inr ⟨r, rfl, strictStep_of_some ha hr⟩
  · exact .inl (strictStep_refused ha)

/-- Every stop of the strict step is UNINIT of the register `uninitRead` gives. -/
theorem strictStep_fault {s : State} {f : Fault} (h : strictStep s = .fault f) :
    ∃ r, uninitRead s = some r ∧ f = .uninit r := by
  rcases strictStep_cases s with he | ⟨r, hr, he⟩
  · exact absurd (he.symm.trans h) (step_not_fault s f)
  · rw [he] at h; cases h; exact ⟨r, hr, rfl⟩

end Sys2Proof.Laws
end

