-- ==== Sys2Proof/Tests/Slice0.lean ====
section
/-! SUPPORT. The model's own tests: the smoke test of WellFormed, words written out from 30_encoding.md,
vectors of 95_test_vectors.md (at most two an instruction), the port, and a witness for the hypotheses of
every statement. -/

namespace Sys2Proof.Tests

open Sys2Proof.Machine Sys2Proof.Safety Sys2Proof.Spec

/-! ## Units and states -/

/-- An instance by (T, F, S, P) with W = sel(T) and the reference parameters (10_state.md R33). -/
def unit (t f : Nat) (s : Signedness) (p : Policy) (ssr : SubwidthRead := .active) : Config :=
  match elaborate { Config.reference with subwidthRead := ssr } t f s p with
  | .ok c => c
  | .error _ => Config.reference

def s16 : Config := unit 32 16 .signed .wrap
def s16sat : Config := unit 32 16 .signed .sat
def u16 : Config := unit 32 16 .unsigned .wrap
def s2 : Config := unit 4 2 .signed .wrap
def s2sat : Config := unit 4 2 .signed .sat
def s2sto : Config := unit 4 2 .signed .wrap .storage
def u2sat : Config := unit 4 2 .unsigned .sat
def s8 : Config := unit 16 8 .signed .wrap
def s8sto : Config := unit 16 8 .signed .wrap .storage
def s64 : Config := unit 64 0 .signed .wrap
def s2f14 : Config := unit 16 14 .signed .wrap

/-- The unit after reset and HostWrites of x1, x2 and x3 = 0xAAAA. -/
def regs (c : Config) (a b : Word) : State :=
  writeX .x3 0xAAAA (writeX .x2 b (writeX .x1 a (State.resetOf c)))

/-- The same, with host operations waiting. -/
def waiting (c : Config) (a b : Word) (ops : List HostOp) : State := { regs c a b with port := ops }

/-- The three outcomes of a step, apart. -/
def nextOf (o : Host.Outcome State Fault Refusal) : Option State :=
  match o with | .next t => some t | .fault _ => none | .refused _ => none
def faultOf (o : Host.Outcome State Fault Refusal) : Option Fault :=
  match o with | .next _ => none | .fault f => some f | .refused _ => none
def refusalOf (o : Host.Outcome State Fault Refusal) : Option Refusal :=
  match o with | .next _ => none | .fault _ => none | .refused r => some r

/-- x3, and ERR and FSR as read, after one step of Issue(w). -/
def issued (c : Config) (w : CmdWord) (a b : Word) : Option (Word × Word × Word) :=
  match step (waiting c a b [.issue w]) with
  | .next t => some (t.x.get .x3, errWord t.err, fsrWord t.fsr)
  | _ => none

/-! ## WellFormed smoke: one ill-formed term for each check -/

theorem test_wf_zero_width :
    (Instr.fxcvtin .x1 .x2 ⟨0, 0, .signed⟩ false).wellFormed Config.reference = false := by decide
theorem test_wf_field_width :
    (Instr.fxcvtin .x1 .x2 ⟨65, 0, .signed⟩ false).wellFormed { Config.reference with w := 128 } = false := by
  decide
theorem test_wf_fraction :
    (Instr.fxcvtout .x1 .x2 ⟨16, 17, .signed⟩ false).wellFormed Config.reference = false := by decide
theorem test_wf_unit_width :
    (Instr.fxcvtout .x1 .x2 ⟨33, 0, .unsigned⟩ true).wellFormed Config.reference = false := by decide
theorem test_wf_legal :
    (Instr.fxcvtout .x1 .x2 ⟨32, 32, .unsigned⟩ true).wellFormed Config.reference = true := by decide

/-! ## Words written out from R82, R83 and R86 decode to the commands they stand for -/

theorem test_decode_construction :
    decode Config.reference 0x00001501#32 = .ok (.fxraw .x5 .x2) ∧
    decode Config.reference 0x00001E02#32 = .ok (.fxfromi .x6 .x3) ∧
    decode Config.reference 0x00022703#32 = .ok (.fxfromf .x7 .x4 true) ∧
    decode Config.reference 0x00032804#32 = .ok (.fxidiv .x0 .x5 .x4 true) ∧
    decode Config.reference 0x0002F105#32 = .ok (.fxdivi .x1 .x6 .x3 true) := by
  decide

theorem test_decode_conversion :
    decode Config.reference 0x125E1506#32 = .ok (.fxcvtin .x5 .x2 ⟨12, 9, .signed⟩ true) ∧
    decode Config.reference 0x3EF01E07#32 = .ok (.fxcvtout .x6 .x3 ⟨31, 31, .unsigned⟩ false) ∧
    decode Config.reference 0x00002708#32 = .ok (.fxtoi .x7 .x4) ∧
    decode Config.reference 0x00002809#32 = .ok (.fxtof .x0 .x5) := by
  decide

theorem test_decode_predicates :
    decode Config.reference 0x00001510#32 = .ok (.fxispos .x5 .x2) ∧
    decode Config.reference 0x00001E11#32 = .ok (.fxisneg .x6 .x3) ∧
    decode Config.reference 0x00002712#32 = .ok (.fxisnneg .x7 .x4) ∧
    decode Config.reference 0x00002813#32 = .ok (.fxiszero .x0 .x5) := by
  decide

theorem test_decode_comparisons :
    decode Config.reference 0x0001D514#32 = .ok (.fxeq .x5 .x2 .x7) ∧
    decode Config.reference 0x00019E15#32 = .ok (.fxne .x6 .x3 .x6) ∧
    decode Config.reference 0x00016716#32 = .ok (.fxlt .x7 .x4 .x5) ∧
    decode Config.reference 0x00012817#32 = .ok (.fxle .x0 .x5 .x4) := by
  decide

theorem test_decode_overflow_engine :
    decode Config.reference 0x0001D520#32 = .ok (.fxadd .x5 .x2 .x7) ∧
    decode Config.reference 0x00019E21#32 = .ok (.fxsub .x6 .x3 .x6) := by
  decide

theorem test_decode_arithmetic :
    decode Config.reference 0x0001D522#32 = .ok (.fxmul .x5 .x2 .x7) ∧
    decode Config.reference 0x00019E23#32 = .ok (.fxdiv .x6 .x3 .x6) ∧
    decode Config.reference 0x00002724#32 = .ok (.fxneg .x7 .x4) ∧
    decode Config.reference 0x00002825#32 = .ok (.fxrcp .x0 .x5) ∧
    decode Config.reference 0x00003126#32 = .ok (.fxabs .x1 .x6) := by
  decide

theorem test_decode_roots_and_logarithms :
    decode Config.reference 0x00001530#32 = .ok (.fxsqrt .x5 .x2) ∧
    decode Config.reference 0x00001E31#32 = .ok (.fxlog2 .x6 .x3) ∧
    decode Config.reference 0x00002732#32 = .ok (.fxln .x7 .x4) ∧
    decode Config.reference 0x00002833#32 = .ok (.fxlog10 .x0 .x5) := by
  decide

theorem test_decode_exponentials :
    decode Config.reference 0x00001534#32 = .ok (.fxexp2 .x5 .x2) ∧
    decode Config.reference 0x00001E35#32 = .ok (.fxexp .x6 .x3) ∧
    decode Config.reference 0x00002736#32 = .ok (.fxexp10 .x7 .x4) ∧
    decode Config.reference 0x00012837#32 = .ok (.fxpow .x0 .x5 .x4) ∧
    decode Config.reference 0x00003138#32 = .ok (.fxacos .x1 .x6) := by
  decide

/-- V-ENC of 95_test_vectors.md. -/
theorem test_decode_spec_words :
    decode Config.reference 0x0002D104#32 = .ok (.fxidiv .x1 .x2 .x3 true) ∧
    decode Config.reference 0x0000D137#32 = .ok (.fxpow .x1 .x2 .x3) ∧
    decode Config.reference 0x00001138#32 = .ok (.fxacos .x1 .x2) ∧
    decode Config.reference 0x00FC1106#32 = .ok (.fxcvtin .x1 .x2 ⟨32, 0, .signed⟩ false) ∧
    decode Config.reference 0x40F81107#32 = .ok (.fxcvtout .x1 .x2 ⟨32, 32, .unsigned⟩ false) ∧
    decode Config.reference 0x00041106#32 = .ok (.fxcvtin .x1 .x2 ⟨1, 0, .signed⟩ false) := by
  decide

/-- V-ILL-1, V-ILL-2: unlisted opcodes. -/
theorem test_decode_unlisted_ops :
    decode Config.reference 0x00000000#32 = .error .unknownOp ∧
    decode Config.reference 0x0000000A#32 = .error .unknownOp ∧
    decode Config.reference 0x00000018#32 = .error .unknownOp ∧
    decode Config.reference 0x00000027#32 = .error .unknownOp ∧
    decode Config.reference 0x00000039#32 = .error .unknownOp ∧
    decode Config.reference 0x000000FF#32 = .error .unknownOp := by
  decide

/-- V-ILL-3 to V-ILL-6: nonzero reserved and unused fields of format R, each by its own name. -/
theorem test_decode_unused_fields :
    decode Config.reference 0x00048B20#32 = .error .reservedBits ∧
    decode Config.reference 0x00028B20#32 = .error .unusedNu ∧
    decode Config.reference 0x0000CA24#32 = .error .unusedRs2 ∧
    decode Config.reference 0x00025103#32 = .error .unusedRs2 := by
  decide

/-- V-ILL-7 to V-ILL-10: illegal words of format X. -/
theorem test_decode_illegal_descriptors :
    decode Config.reference 0x10181106#32 = .error .illegalDescriptor ∧
    decode Config.reference 0x01041106#32 = .error .illegalDescriptor ∧
    decode Config.reference 0x107C5106#32 = .error .reservedBits ∧
    decode Config.reference 0xFE7C1106#32 = .error .illegalDescriptor := by
  decide

theorem test_decodeTableWord :
    decodeTableWord 32 0x00008B20 = some (.fxadd .x3 .x1 .x2) ∧ decodeTableWord 32 0 = none := by decide

/-- R90, R91, R92: the assembler text and two expansions. -/
theorem test_assembly :
    asm (.fxidiv .x1 .x2 .x3 true) = "fxidiv.nu x1, x2, x3" ∧
    asm (.fxcvtout .x1 .x2 ⟨32, 32, .unsigned⟩ false) = "fxcvtout x1, x2, u0.32" ∧
    expand (.fxgt .x0 .x1 .x2) = [.fxlt .x0 .x2 .x1] ∧
    expand (.floatVal .div .x0 .x1 .x2) = [.fxfromf .x1 .x1 false, .fxdiv .x0 .x1 .x2] :=
  ⟨by decide, by decide, by decide, by decide⟩

/-! ## One step of each instruction: vectors of 95_test_vectors.md

Each theorem names its vector. The word is written out from R82 or R83 with rd = x3, rs1 = x1, rs2 = x2. -/

/-- V-RAW-1 -/
theorem test_fxraw_1 :
    issued s16 0x00000B01#32 0x123456789#64 0x0#64 = some (0x23456789#64, 0x80#64, 0x0#64) := by decide
/-- V-RAW-2 -/
theorem test_fxraw_2 :
    issued s2 0x00000B01#32 0xFF#64 0x0#64 = some (0xF#64, 0x80#64, 0x0#64) := by decide
/-- V-FROMI-2 -/
theorem test_fxfromi_1 :
    issued s16 0x00000B02#32 0xFFFFFFFFFFFFFFFD#64 0x0#64 = some (0xFFFD0000#64, 0x80#64, 0x0#64) := by decide
/-- V-FROMI-3 -/
theorem test_fxfromi_2 :
    issued s16 0x00000B02#32 0x9C40#64 0x0#64 = some (0x9C400000#64, 0x80#64, 0x0#64) := by decide
/-- V-FROMF-4 -/
theorem test_fxfromf_1 :
    issued s16 0x00000B03#32 0xBFB999999999999A#64 0x0#64 = some (0xFFFFE667#64, 0x80#64, 0x0#64) := by decide
/-- V-FROMF-5 -/
theorem test_fxfromf_2 :
    issued s16 0x00020B03#32 0xBEB0C6F7A0B5ED8D#64 0x0#64 = some (0xFFFFFFFF#64, 0x80#64, 0x0#64) := by decide
/-- V-IDIV-3 -/
theorem test_fxidiv_1 :
    issued s16 0x00008B04#32 0xFFFFFFFFFFFFFFF9#64 0x2#64 = some (0xFFFC8000#64, 0x80#64, 0x0#64) := by decide
/-- V-IDIV-6 -/
theorem test_fxidiv_2 :
    issued s16 0x00008B04#32 0x1#64 0x0#64 = some (0xAAAA#64, 0x80#64, 0x8B0400000201#64) := by decide
/-- V-DIVI-7, ACTIVE -/
theorem test_fxdivi_1 :
    issued s2 0x00008B05#32 0xC#64 0x2#64 = some (0xE#64, 0x80#64, 0x0#64) := by decide
/-- V-DIVI-7, STORAGE -/
theorem test_fxdivi_2 :
    issued s2sto 0x00008B05#32 0xC#64 0x2#64 = some (0x6#64, 0x80#64, 0x0#64) := by decide
/-- V-CVT-1 -/
theorem test_fxcvtin_1 :
    issued s16 0x107C0B06#32 0xFE80#64 0x0#64 = some (0xFFFE8000#64, 0x80#64, 0x0#64) := by decide
/-- V-CVT-8, STORAGE -/
theorem test_fxcvtin_2 :
    issued s8sto 0x041C0B06#32 0xC#64 0x0#64 = some (0x300#64, 0x80#64, 0x0#64) := by decide
/-- V-CVT-4 -/
theorem test_fxcvtout_1 :
    issued s16 0x107E0B07#32 0xFFFFFFFF#64 0x0#64 = some (0xFFFF#64, 0x80#64, 0x0#64) := by decide
/-- V-CVT-6 -/
theorem test_fxcvtout_2 :
    issued s16 0x20F80B07#32 0xFFFF0000#64 0x0#64 = some (0xFFFF0000#64, 0x80#64, 0x0#64) := by decide
/-- V-TOI-2 -/
theorem test_fxtoi_1 :
    issued s16 0x00000B08#32 0xFFFD8000#64 0x0#64 = some (0xFFFFFFFFFFFFFFFD#64, 0x80#64, 0x0#64) := by decide
/-- V-TOI-6, STORAGE -/
theorem test_fxtoi_2 :
    issued s2sto 0x00000B08#32 0xC#64 0x0#64 = some (0x3#64, 0x80#64, 0x0#64) := by decide
/-- V-TOF-1 -/
theorem test_fxtof_1 :
    issued s16 0x00000B09#32 0xFFFD4000#64 0x0#64 = some (0xC006000000000000#64, 0x80#64, 0x0#64) := by decide
/-- V-TOF-7 -/
theorem test_fxtof_2 :
    issued s64 0x00000B09#32 0x20000000000003#64 0x0#64 = some (0x4340000000000002#64, 0x80#64, 0x0#64) := by decide
/-- V-PRED-3 -/
theorem test_fxispos_1 :
    issued s16 0x00000B10#32 0x7FFFFFFF#64 0x0#64 = some (0x1#64, 0x80#64, 0x0#64) := by decide
/-- V-PRED-4 -/
theorem test_fxispos_2 :
    issued s16 0x00000B10#32 0x80000000#64 0x0#64 = some (0x0#64, 0x80#64, 0x0#64) := by decide
/-- V-PRED-6 -/
theorem test_fxisneg_1 :
    issued s2 0x00000B11#32 0x8#64 0x0#64 = some (0x1#64, 0x80#64, 0x0#64) := by decide
/-- V-PRED-7 -/
theorem test_fxisneg_2 :
    issued u2sat 0x00000B11#32 0x8#64 0x0#64 = some (0x0#64, 0x80#64, 0x0#64) := by decide
/-- V-PRED-1 -/
theorem test_fxisnneg_1 :
    issued s16 0x00000B12#32 0x0#64 0x0#64 = some (0x1#64, 0x80#64, 0x0#64) := by decide
/-- V-PRED-5 -/
theorem test_fxisnneg_2 :
    issued s16 0x00000B12#32 0xFFFD4000#64 0x0#64 = some (0x0#64, 0x80#64, 0x0#64) := by decide
/-- V-PRED-8 -/
theorem test_fxiszero_1 :
    issued s16 0x00000B13#32 0x100000000#64 0x0#64 = some (0x1#64, 0x80#64, 0x0#64) := by decide
/-- V-PRED-2 -/
theorem test_fxiszero_2 :
    issued s16 0x00000B13#32 0x1#64 0x0#64 = some (0x0#64, 0x80#64, 0x0#64) := by decide
/-- V-CMP-5 -/
theorem test_fxeq_1 :
    issued s16 0x00008B14#32 0x500018000#64 0x18000#64 = some (0x1#64, 0x80#64, 0x0#64) := by decide
/-- V-CMP-2 -/
theorem test_fxne_1 :
    issued s16 0x00008B15#32 0x18000#64 0x24000#64 = some (0x1#64, 0x80#64, 0x0#64) := by decide
/-- V-CMP-6, ACTIVE -/
theorem test_fxlt_1 :
    issued s2 0x00008B16#32 0xC#64 0x2#64 = some (0x1#64, 0x80#64, 0x0#64) := by decide
/-- V-CMP-6, STORAGE -/
theorem test_fxlt_2 :
    issued s2sto 0x00008B16#32 0xC#64 0x2#64 = some (0x0#64, 0x80#64, 0x0#64) := by decide
/-- V-CMP-1 -/
theorem test_fxle_1 :
    issued s16 0x00008B17#32 0x18000#64 0x18000#64 = some (0x1#64, 0x80#64, 0x0#64) := by decide
/-- V-CMP-3 -/
theorem test_fxle_2 :
    issued s16 0x00008B17#32 0xFFFD4000#64 0x18000#64 = some (0x1#64, 0x80#64, 0x0#64) := by decide
/-- V-ADD-2, SAT -/
theorem test_fxadd_1 :
    issued s2sat 0x00008B20#32 0x9#64 0xE#64 = some (0x8#64, 0x80#64, 0x0#64) := by decide
/-- V-ADD-8, SAT -/
theorem test_fxadd_2 :
    issued u2sat 0x00008B20#32 0xE#64 0x4#64 = some (0xF#64, 0x80#64, 0x0#64) := by decide
/-- V-SUB-3 -/
theorem test_fxsub_1 :
    issued s2sat 0x00008B21#32 0x9#64 0x2#64 = some (0x7#64, 0x80#64, 0x0#64) := by decide
/-- V-SUB-6, SAT -/
theorem test_fxsub_2 :
    issued u2sat 0x00008B21#32 0x0#64 0x1#64 = some (0xF#64, 0x80#64, 0x0#64) := by decide
/-- V-MUL-3 -/
theorem test_fxmul_1 :
    issued s16 0x00008B22#32 0x1#64 0xFFFFFFFF#64 = some (0xFFFFFFFF#64, 0x80#64, 0x0#64) := by decide
/-- V-MUL-9, STORAGE -/
theorem test_fxmul_2 :
    issued s2sto 0x00008B22#32 0xF#64 0x1#64 = some (0x3#64, 0x80#64, 0x0#64) := by decide
/-- V-DIV-2 -/
theorem test_fxdiv_1 :
    issued s16 0x00008B23#32 0xFFFF0000#64 0x30000#64 = some (0xFFFFAAAB#64, 0x80#64, 0x0#64) := by decide
/-- V-DIV-6 -/
theorem test_fxdiv_2 :
    issued s16 0x00008B23#32 0x10000#64 0x100000000#64 = some (0xAAAA#64, 0x80#64, 0x8B2300000201#64) := by decide
/-- V-NEG-1 -/
theorem test_fxneg_1 :
    issued s16 0x00000B24#32 0x18000#64 0x0#64 = some (0xFFFE8000#64, 0x80#64, 0x0#64) := by decide
/-- V-NEG-2 -/
theorem test_fxneg_2 :
    issued s16 0x00000B24#32 0x80000000#64 0x0#64 = some (0x80000000#64, 0x80#64, 0x0#64) := by decide
/-- V-RCP-1 -/
theorem test_fxrcp_1 :
    issued s16 0x00000B25#32 0xFFFF8000#64 0x0#64 = some (0xFFFE0000#64, 0x80#64, 0x0#64) := by decide
/-- V-RCP-5 -/
theorem test_fxrcp_2 :
    issued s2 0x00000B25#32 0x2#64 0x0#64 = some (0x8#64, 0x80#64, 0x0#64) := by decide
/-- V-ABS-1 -/
theorem test_fxabs_1 :
    issued s16 0x00000B26#32 0xFFFD4000#64 0x0#64 = some (0x2C000#64, 0x80#64, 0x0#64) := by decide
/-- V-ABS-2 -/
theorem test_fxabs_2 :
    issued s16 0x00000B26#32 0x80000000#64 0x0#64 = some (0x80000000#64, 0x80#64, 0x0#64) := by decide
/-- V-SQRT-1 -/
theorem test_fxsqrt_1 :
    issued s16 0x00000B30#32 0x20000#64 0x0#64 = some (0x16A09#64, 0x80#64, 0x0#64) := by decide
/-- V-SQRT-10, WRAP -/
theorem test_fxsqrt_2 :
    issued s16 0x00000B30#32 0x7FFF0000#64 0x0#64 = some (0xFF4AFAA0#64, 0x80#64, 0x0#64) := by decide
/-- V-LOG2-3 -/
theorem test_fxlog2_1 :
    issued s16 0x00000B31#32 0x30000#64 0x0#64 = some (0x195C0#64, 0x80#64, 0x0#64) := by decide
/-- V-LOG2-10 -/
theorem test_fxlog2_2 :
    issued u16 0x00000B31#32 0x8000#64 0x0#64 = some (0xFFFF0000#64, 0x80#64, 0x0#64) := by decide
/-- V-LN-2 -/
theorem test_fxln_1 :
    issued s16 0x00000B32#32 0x2B7E1#64 0x0#64 = some (0xFFFE#64, 0x80#64, 0x0#64) := by decide
/-- V-LN-4 -/
theorem test_fxln_2 :
    issued s16 0x00000B32#32 0x0#64 0x0#64 = some (0x0#64, 0x22#64, 0x0#64) := by decide
/-- V-LOG10-2 -/
theorem test_fxlog10_1 :
    issued s16 0x00000B33#32 0x1999#64 0x0#64 = some (0xFFFEFFFD#64, 0x80#64, 0x0#64) := by decide
/-- V-LOG10-4 -/
theorem test_fxlog10_2 :
    issued s8 0x00000B33#32 0xA00#64 0x0#64 = some (0xFF#64, 0x80#64, 0x0#64) := by decide
/-- V-EXP2-3 -/
theorem test_fxexp2_1 :
    issued s16 0x00000B34#32 0xFFFE8000#64 0x0#64 = some (0x5A83#64, 0x80#64, 0x0#64) := by decide
/-- V-EXP2-8 -/
theorem test_fxexp2_2 :
    issued s16 0x00000B34#32 0xFFF00000#64 0x0#64 = some (0xAAAA#64, 0x80#64, 0xB3400000201#64) := by decide
/-- V-EXP-3 -/
theorem test_fxexp_1 :
    issued s16 0x00000B35#32 0xA0000#64 0x0#64 = some (0x56088000#64, 0x80#64, 0x0#64) := by decide
/-- V-EXP-3 -/
theorem test_fxexp_2 :
    issued s16 0x00000B35#32 0xFFF60000#64 0x0#64 = some (0x2#64, 0x80#64, 0x0#64) := by decide
/-- V-EXP10-1 -/
theorem test_fxexp10_1 :
    issued s16 0x00000B36#32 0x10000#64 0x0#64 = some (0x9FFE8#64, 0x80#64, 0x0#64) := by decide
/-- V-EXP10-2 -/
theorem test_fxexp10_2 :
    issued s16 0x00000B36#32 0xFFFF0000#64 0x0#64 = some (0x1999#64, 0x80#64, 0x0#64) := by decide
/-- V-POW-1 -/
theorem test_fxpow_1 :
    issued s16 0x00008B37#32 0x30000#64 0x20000#64 = some (0x8FFE8#64, 0x80#64, 0x0#64) := by decide
/-- V-POW-5 -/
theorem test_fxpow_2 :
    issued s16 0x00008B37#32 0xFFFE0000#64 0x8000#64 = some (0x0#64, 0x23#64, 0x0#64) := by decide
/-- V-ACOS-2 -/
theorem test_fxacos_1 :
    issued s16 0x00000B38#32 0xFFFF8000#64 0x0#64 = some (0x2182F#64, 0x80#64, 0x0#64) := by decide
/-- V-ACOS-10 -/
theorem test_fxacos_2 :
    issued u16 0x00000B38#32 0x8000#64 0x0#64 = some (0xAAAA#64, 0x80#64, 0xB3800000401#64) := by decide

/-! ## The port, faults, reset and configuration -/

/-- R271's codes as FSR reads: V-FLT-5 (illegal word), V-FLT-7 (FXFROMF of NaN), V-FLT-8 (FXSQRT of −1.0). -/
theorem test_fault_codes :
    issued s16 0x0000CB24#32 0 0 = some (0xAAAA, 0x80, 0x0000CB2400000101) ∧
    issued s16 0x00000B03#32 0x7FF8000000000000 0 = some (0xAAAA, 0x80, 0x00000B0300000301) ∧
    issued s16 0x00000B30#32 0xFFFF0000 0 = some (0xAAAA, 0x80, 0x00000B3000000501) := by
  decide

/-- V-FLT-1: the fault writes FSR and STATE alone. -/
theorem test_fault_entry :
    nextOf (step (waiting s16 7 0 [.issue 0x00009404#32])) =
      some { regs s16 7 0 with fsr := some ⟨.divZero, 0x00009404#32⟩, unit := .halted } := by decide

/-- V-FLT-2: an Issue while HALTED is discarded. -/
theorem test_halted_discards :
    nextOf (step { waiting s16 7 0 [.issue 0x0000DB20#32] with fsr := some ⟨.divZero, 0#32⟩, unit := .halted }) =
      some { regs s16 7 0 with fsr := some ⟨.divZero, 0#32⟩, unit := .halted } := by decide

/-- V-FLT-3: HostRead(9) while HALTED returns FSR. -/
theorem test_halted_read :
    nextOf (step { waiting s16 7 0 [.hostRead 9] with fsr := some ⟨.divZero, 0x00014C04#32⟩, unit := .halted }) =
      some { regs s16 7 0 with fsr := some ⟨.divZero, 0x00014C04#32⟩, unit := .halted, reply := some 0x00014C0400000201#64 } := by
  decide

/-- V-FLT-4: FMT_UNSUPPORTED comes before any operand is read, UNINIT included. -/
theorem test_format_before_uninit :
    nextOf (strictStep { State.resetOf s2f14 with port := [.issue 0x00000A31#32] }) =
      some { State.resetOf s2f14 with fsr := some ⟨.fmtUnsupported, 0x00000A31#32⟩, unit := .halted } := by decide

/-- V-FLT-5: ILLEGAL_OP comes before UNINIT. -/
theorem test_illegal_before_uninit :
    nextOf (strictStep { State.reset with port := [.issue 0x0000CA24#32] }) =
      some { State.reset with fsr := some ⟨.illegalOp, 0x0000CA24#32⟩, unit := .halted } := by decide

/-- V-FLT-6: fxadd x3, x1, x2 with x2 never written is UNINIT to the strict step. -/
theorem test_uninit :
    faultOf (strictStep { writeX .x1 5 State.reset with port := [.issue 0x00008B20#32] }) = some (.uninit .x2) := by
  decide

/-- V-RST-1: reset from BUSY abandons the command. -/
theorem test_reset_from_busy :
    nextOf (step { waiting s16 7 5 [.reset] with unit := .busy 0x00008B20#32, err := errZeroArgument }) =
      some (State.resetOf s16) := by decide

/-- V-RST-2, V-RST-3: writes of ERR are ignored, and index 11 is refused. -/
theorem test_host_indices :
    nextOf (step (waiting s16 7 5 [.hostWrite 8 0xFF])) = some (regs s16 7 5) ∧
    refusalOf (step (waiting s16 7 5 [.hostRead 11])) = some (.reservedHostIndex 11) := by decide

/-- R31: CFG of the reference instance. -/
theorem test_cfg_word : cfgWord Config.reference = 0x0000000A09102020#64 := by decide

/-- V-ALIAS-2: fxpow x1, x1, x1 reads both operands before it writes. -/
theorem test_alias :
    (nextOf (step (waiting s16 0x20000 0 [.issue 0x00004937#32]))).map (fun t => t.x.get .x1) =
      some 0x40000#64 := by decide

theorem test_withFetchWord :
    nextOf (step (State.reset.withFetchWord 32 0x00000102)) =
      some { writeX .x1 0 State.reset with unit := .idle } := by decide

/-- R6: every bound of the admission rule is checked, each refusal by its own name. -/
theorem test_rejected_configs :
    rejectConfig { Config.reference with t := 65 } = some .unrepresentable ∧
    rejectConfig { Config.reference with w := 24, t := 24 } = some .backingWidth ∧
    rejectConfig { Config.reference with t := 0, f := 0 } = some .noActiveBits ∧
    rejectConfig { Config.reference with w := 16 } = some .activeExceedsBacking ∧
    rejectConfig { Config.reference with f := 33 } = some .fractionExceedsActive ∧
    rejectConfig { Config.reference with policy := .invalid } = some .invalidPolicy ∧
    rejectConfig { Config.reference with sqrtIterMax := 256 } = some .iterationCap ∧
    rejectConfig { Config.reference with acosA := 0x7FF0000000000000#64 } = some .acosConstant := by decide

/-! ## Witnesses: a concrete state and operands that meet the hypotheses of each statement, clause by clause -/

theorem nextOf_eq {o : Host.Outcome State Fault Refusal} {t : State} (h : nextOf o = some t) : o = .next t := by
  cases o <;> simp [nextOf] at h; rw [h]

/-- s16.16 with two Newton steps, guarded and unguarded. -/
def s16short : Config := { s16 with sqrtIterMax := 2 }
def s16guard : Config := { s16 with sqrtZeroGuard := true }
def u44 : Config := unit 8 4 .unsigned .wrap

theorem witness_DecodeOfEncodeIsTheCommand :
    (Instr.fxcvtout .x7 .x0 ⟨32, 32, .signed⟩ true).wellFormed Config.reference = true ∧
      (Instr.fxcvtin .x7 .x0 ⟨1, 0, .unsigned⟩ true).wellFormed Config.reference = true ∧
      (Instr.fxpow .x7 .x0 .x7).wellFormed Config.reference = true :=
  by decide

theorem witness_DecodedWordIsTheEncoding :
    decode Config.reference 0x40F81107#32 = .ok (.fxcvtout .x1 .x2 ⟨32, 32, .unsigned⟩ false) :=
  by decide

theorem witness_FieldsStandAsTheFormatsSay :
    (Instr.fxpow .x7 .x6 .x5).wellFormed s16 = true ∧
      (Instr.fxcvtin .x7 .x6 ⟨64, 64, .signed⟩ true).wellFormed s64 = true ∧
    1 ≤ (⟨64, 127, .signed⟩ : Desc).t ∧ (⟨64, 127, .signed⟩ : Desc).t ≤ 64 ∧
      (⟨64, 127, .signed⟩ : Desc).f ≤ 127 ∧ 1 ≤ (⟨1, 0, .unsigned⟩ : Desc).t :=
  by decide

theorem witness_StepRunsTheDecodedCommand :
    Admitted (waiting s16 7 5 [.issue 0x00008B20#32]).cfg ∧ (waiting s16 7 5 [.issue 0x00008B20#32]).unit = .idle ∧
      (waiting s16 7 5 [.issue 0x00008B20#32]).port = .issue 0x00008B20#32 :: [] ∧
      decode s16 0x00008B20#32 = .ok (.fxadd .x3 .x1 .x2) :=
  by decide

theorem witness_IllegalWordFaults :
    Admitted (waiting s16 7 5 [.issue 0#32]).cfg ∧ (waiting s16 7 5 [.issue 0#32]).unit = .idle ∧
      (waiting s16 7 5 [.issue 0#32]).port = .issue 0#32 :: [] ∧ IllegalWord s16 0#32 :=
  ⟨by decide, rfl, rfl, .inl (by decide)⟩

theorem witness_FaultEntryIsPrecise :
    Admitted (waiting s16 7 0 [.issue 0x00009404#32]).cfg ∧ (waiting s16 7 0 [.issue 0x00009404#32]).unit = .idle ∧
      (waiting s16 7 0 [.issue 0x00009404#32]).port = .issue 0x00009404#32 :: [] ∧
      step (waiting s16 7 0 [.issue 0x00009404#32]) =
        .next { regs s16 7 0 with fsr := some ⟨.divZero, 0x00009404#32⟩, unit := .halted } :=
  ⟨by decide, rfl, rfl, nextOf_eq (by decide)⟩

theorem witness_IssueCompletesOrFaults :
    Admitted (waiting s16 7 5 [.issue 0x00008B20#32]).cfg ∧ (waiting s16 7 5 [.issue 0x00008B20#32]).unit = .idle ∧
      (waiting s16 7 5 [.issue 0x00008B20#32]).port = .issue 0x00008B20#32 :: [] ∧
      decode s16 0x00008B20#32 = .ok (.fxadd .x3 .x1 .x2) :=
  by decide

theorem witness_HaltedDiscardsIssue :
    let s : State := { waiting s16 7 5 [.issue 0x00008B20#32] with fsr := some ⟨.divZero, 0#32⟩, unit := .halted }
    Admitted s.cfg ∧ s.unit = .halted ∧ s.port = .issue 0x00008B20#32 :: [] :=
  by decide

theorem witness_HaltedLastsUntilReset :
    let s : State := { waiting s16 7 5 [.hostWrite 0 9] with fsr := some ⟨.divZero, 0#32⟩, unit := .halted }
    s.unit = .halted ∧ s.port.head? ≠ some .reset ∧
      step s = .next (writeX .x0 9 { s with port := [] }) :=
  ⟨rfl, by decide, nextOf_eq (by decide)⟩

theorem witness_BusyEndsAndHoldsThePort :
    let s : State := { waiting s16 7 5 [.hostRead 3] with unit := .busy 0x00008B20#32 }
    let r : State := { waiting s16 7 5 [.reset] with unit := .busy 0x00008B20#32 }
    Admitted s.cfg ∧ s.unit = .busy 0x00008B20#32 ∧ s.port.head? ≠ some .reset ∧
      Admitted r.cfg ∧ r.unit = .busy 0x00008B20#32 ∧ r.port = .reset :: [] :=
  by decide

theorem witness_StepKeepsTheInvariant :
    let s : State := waiting s16 7 0 [.issue 0x00009404#32]
    Inv s ∧
      step s = .next { regs s16 7 0 with fsr := some ⟨.divZero, 0x00009404#32⟩, unit := .halted } :=
  ⟨by decide, nextOf_eq (by decide)⟩

theorem witness_ResetMeetsTheInvariant :
    Admitted Config.reference ∧ Admitted s64 ∧ Admitted s2sto :=
  by decide

theorem witness_ResetGivesTheSpecValues :
    let s : State := { waiting s16 7 5 [.reset] with fsr := some ⟨.divZero, 0#32⟩, unit := .halted }
    Admitted s.cfg ∧ s.port = .reset :: [] :=
  by decide

theorem witness_HostReadReturnsTheRegister :
    let s : State := waiting s16 7 5 [.hostRead 7]
    Admitted s.cfg ∧ (∀ w, s.unit ≠ .busy w) ∧ s.port = .hostRead 7 :: [] ∧ (7 : HostIndex) = indexOf .x7 ∧
      (waiting s16 7 5 [.hostRead 8]).port = .hostRead 8 :: [] ∧
      (waiting s16 7 5 [.hostRead 9]).port = .hostRead 9 :: [] ∧
      (waiting s16 7 5 [.hostRead 10]).port = .hostRead 10 :: [] :=
  ⟨by decide, (fun _ h => by cases h), rfl, rfl, rfl, rfl, rfl⟩

theorem witness_HostWriteSetsTheOperandRegister :
    let s : State := waiting s16 7 5 [.hostWrite (indexOf .x7) 9]
    Admitted s.cfg ∧ (∀ w, s.unit ≠ .busy w) ∧ s.port = .hostWrite (indexOf .x7) 9 :: [] :=
  ⟨by decide, (fun _ h => by cases h), rfl⟩

theorem witness_StatusWritesAreIgnoredAndReservedIndicesRefused :
    let s : State := waiting s16 7 5 [.hostWrite 10 9]
    let r : State := waiting s16 7 5 [.hostRead 11]
    Admitted s.cfg ∧ (∀ w, s.unit ≠ .busy w) ∧ s.port = .hostWrite 10 9 :: [] ∧
      (∀ w, r.unit ≠ .busy w) ∧ 11 ≤ (11 : HostIndex).toNat ∧ r.port = .hostRead 11 :: [] :=
  ⟨by decide, (fun _ h => by cases h), rfl, (fun _ h => by cases h), by decide, rfl⟩

theorem witness_InadmissibleConfigIsRefused :
    LegalConfig s16 ∧ LegalConfig { s64 with sqrtIterMax := 255 } ∧
      LegalConfig { unit 1 1 .unsigned .sat with sqrtIterMax := 1 } ∧
      ¬LegalConfig { s16 with f := 33 } ∧ ¬LegalConfig { s16 with w := 16 } ∧ ¬LegalConfig { s16 with t := 0, f := 0 } ∧
      ¬LegalConfig { s16 with w := 40 } ∧ ¬LegalConfig { s16 with policy := .invalid } ∧
      ¬LegalConfig { s16 with sqrtIterMax := 0 } ∧ ¬LegalConfig { s16 with acosD := 0x7FF8000000000000 } := by
  simp only [LegalConfig, NotFinite]
  refine ⟨?_, ?_, ?_, ?_, ?_, ?_, ?_, ?_, ?_, ?_⟩ <;> decide +kernel

theorem witness_EffectDependsOnNamedRegistersOnly :
    Admitted s16 ∧ (regs s16 7 5).cfg = s16 ∧
      ∀ r ∈ reads (.fxadd .x3 .x1 .x2), (regs s16 7 5).x.get r = (regs s16 7 5).x.get r :=
  ⟨by decide, rfl, fun _ _ => rfl⟩

theorem witness_OnlyElementaryCommandsWriteErr :
    exec (.fxadd .x3 .x1 .x2) (regs s16 7 5) = .next (writeX .x3 12 (regs s16 7 5)) ∧
      ¬Elementary (.fxadd .x3 .x1 .x2) ∧ Elementary (.fxlog2 .x3 .x1) ∧
      exec (.fxlog2 .x3 .x1) (regs s16 0 5) =
        .next { writeX .x3 0 (regs s16 0 5) with err := errZeroArgument } :=
  ⟨nextOf_eq (by decide), id, trivial, nextOf_eq (by decide)⟩

theorem witness_FixedPointResultsArePadded :
    FixedPointResult (.fxneg .x3 .x1) ∧
      exec (.fxneg .x3 .x1) (regs s2 1 0) = .next (writeX .x3 15 (regs s2 1 0)) :=
  ⟨trivial, nextOf_eq (by decide)⟩

theorem witness_StrictStepStopsAtUnwrittenOperands :
    let s : State := { writeX .x1 5 State.reset with port := [.issue 0x00008B20#32] }
    let r : State := { State.reset with port := [.hostRead (indexOf .x7)] }
    Admitted s.cfg ∧ s.unit = .idle ∧ s.port = .issue 0x00008B20#32 :: [] ∧
      decode s.cfg 0x00008B20#32 = .ok (.fxadd .x3 .x1 .x2) ∧
      formatOk s.cfg.toFormat (.fxadd .x3 .x1 .x2) = true ∧ Reg.x2 ∈ reads (.fxadd .x3 .x1 .x2) ∧
      s.written.get .x2 = false ∧ Admitted r.cfg ∧ r.port = .hostRead (indexOf .x7) :: [] ∧
      r.unit = .idle ∧ r.written.get .x7 = false :=
  by decide

theorem witness_StrictStepRefinesStep :
    let s : State := { regs s16 5 7 with port := [.issue 0x00008B20#32] }
    let q : State := { writeX .x1 5 State.reset with port := [.issue 0x00008B20#32] }
    let e : State := { State.reset with port := [.hostRead 7] }
    Admitted s.cfg ∧ (∀ r, ReadsNext s r → s.written.get r = true) ∧ ReadsNext s .x2 ∧
      Admitted q.cfg ∧ ReadsNext q .x2 ∧ q.written.get .x2 = false ∧
      faultOf (strictStep q) = some (.uninit .x2) ∧
      ReadsNext e .x7 ∧ e.written.get .x7 = false ∧
      ¬Admitted (State.resetOf { s16 with t := 0 }).cfg := by
  intro s q e
  have legal : ¬IllegalWord s16 0x00008B20#32 := by unfold IllegalWord bits; decide
  have fmt : FormatHolds s16 0x00008B20#32 := by simp [FormatHolds, bits]
  have names : NamesOperand 0x00008B20#32 .x2 := .inr (by unfold bits; decide)
  refine ⟨by decide, fun r hr => ?_, .inl ⟨_, .inr ⟨rfl, rfl⟩, legal, fmt, names⟩, by decide,
    .inl ⟨_, .inr ⟨rfl, rfl⟩, legal, fmt, names⟩, by decide, by decide, .inr ⟨by simp [e, State.reset, State.resetOf], rfl⟩, by decide, by decide⟩
  rcases hr with ⟨w, ⟨hb, -⟩ | ⟨-, hp⟩, -, -, hn⟩ | ⟨-, hp⟩
  · cases hb
  · cases hp
    revert hn; cases r <;> simp [NamesOperand, indexOf, bits, s, regs, writeX, Bank.get, Bank.set, rs2Ops]
  · cases hp

theorem witness_CfgWordReportsTheParameters :
    Admitted s64 ∧ Admitted u2sat ∧ Admitted s16guard :=
  by decide

theorem witness_FxrawMasksToActiveBits :
    Admitted (regs s2sto 0xF 0x8).cfg ∧ Admitted (regs u2sat 0xF 0x8).cfg ∧ ((regs s2sto 0xF 0x8).x.get .x1).toNat < 2 ^ s2sto.t :=
  by decide

theorem witness_FxfromiScalesTheInteger :
    Admitted (regs s2sto 0xF 0x8).cfg ∧ Admitted (regs u2sat 0xF 0x8).cfg :=
  by decide

theorem witness_FxtoiFloors :
    Admitted (regs s2sto 0xF 0x8).cfg ∧ Admitted (regs u2sat 0xF 0x8).cfg :=
  by decide

theorem witness_PredicatesTestTheNumericValue :
    Admitted (regs s2sto 0xF 0x8).cfg ∧ Admitted (regs u2sat 0xF 0x8).cfg :=
  by decide

theorem witness_ComparisonsCompareWithinTheFormat :
    Admitted (regs s2sto 0xF 0x8).cfg ∧ Admitted (regs u2sat 0xF 0x8).cfg :=
  by decide

theorem witness_FxsubWrapsUnderBothPolicies :
    Admitted (regs s2sto 0xF 0x8).cfg ∧ Admitted (regs u2sat 0xF 0x8).cfg :=
  by decide

theorem witness_FxmulFloorsTheProduct :
    Admitted (regs s2sto 0xF 0x8).cfg ∧ Admitted (regs u2sat 0xF 0x8).cfg :=
  by decide

theorem witness_FxnegAndFxabsWrap :
    Admitted (regs s2sto 0xF 0x8).cfg ∧ Admitted (regs u2sat 0xF 0x8).cfg :=
  by decide

theorem witness_FxfromfTruncatesTheExactProduct :
    Admitted s16 ∧ NotFinite ((regs s16 0x7FF8000000000000 0).x.get .x1) ∧
      ¬NotFinite ((regs s16 0x40DFFFFFFFC00000 0).x.get .x1) ∧
      InBacking s16 (truncQ (floatVal ((regs s16 0x40DFFFFFFFC00000 0).x.get .x1) * 2 ^ s16.f)) ∧
      ¬NotFinite ((regs s16 0x40E0000000000000 0).x.get .x1) ∧
      ¬InBacking s16 (truncQ (floatVal ((regs s16 0x40E0000000000000 0).x.get .x1) * 2 ^ s16.f)) :=
  by
  refine ⟨by decide, ?_, ?_, ?_, ?_, ?_⟩
  · show _ = _; decide
  · show ¬_ = _; decide
  · show _ ≤ _ ∧ _ ≤ _; decide +kernel
  · show ¬_ = _; decide
  · show ¬(_ ≤ _ ∧ _ ≤ _); decide +kernel

theorem witness_FxidivTruncatesTheQuotient :
    Admitted (regs s2sto 0xC 0).cfg ∧ ((regs s2sto 0xC 0).x.get .x2).toInt = 0 ∧
      ((regs s2sto 0xC 0xFFFFFFFFFFFFFFFF).x.get .x2).toInt ≠ 0 :=
  by decide

theorem witness_FxdiviTruncatesTheQuotient :
    Admitted (regs s2sto 0xC 0).cfg ∧ ((regs s2sto 0xC 0).x.get .x2).toInt = 0 ∧
      ((regs s2sto 0xC 0xFFFFFFFFFFFFFFFF).x.get .x2).toInt ≠ 0 :=
  by decide

theorem witness_FxcvtinRescalesTheForeignValue :
    Admitted (regs s16 7 0).cfg ∧ LegalDesc s16 ⟨32, 32, .signed⟩ ∧ LegalDesc s16 ⟨1, 0, .unsigned⟩ ∧
      ¬LegalDesc s16 ⟨33, 0, .signed⟩ ∧ ¬LegalDesc s16 ⟨16, 17, .signed⟩ :=
  by
  refine ⟨by decide, ?_, ?_, ?_, ?_⟩ <;> unfold LegalDesc <;> decide

theorem witness_FxcvtoutRescalesTheUnitValue :
    Admitted (regs s16 7 0).cfg ∧ LegalDesc s16 ⟨32, 32, .signed⟩ ∧ LegalDesc s16 ⟨1, 0, .unsigned⟩ ∧
      ¬LegalDesc s16 ⟨33, 0, .signed⟩ ∧ ¬LegalDesc s16 ⟨16, 17, .signed⟩ :=
  by
  refine ⟨by decide, ?_, ?_, ?_, ?_⟩ <;> unfold LegalDesc <;> decide

theorem witness_WideningConversionRoundTrips :
    let src : Format := ⟨8, 4, 2, .signed⟩
    let dst : Format := ⟨16, 16, 8, .signed⟩
    src.s = dst.s ∧ 1 ≤ src.t ∧ src.t ≤ src.w ∧ src.f ≤ src.t ∧ dst.t ≤ dst.w ∧ dst.f ≤ dst.t ∧
      src.f ≤ dst.f ∧ src.t - src.f ≤ dst.t - dst.f ∧ 12 < 2 ^ src.t :=
  by decide

theorem witness_FxtofIsExactBelow53Bits :
    Admitted (regs s64 0 0).cfg ∧ raw (regs s64 0 0) .x1 = 0 ∧ |tv s64 (raw (regs s64 0 0) .x1)| < 2 ^ 53 ∧
      |tv s64 (raw (regs s64 0x1FFFFFFFFFFFFF 0) .x1)| < 2 ^ 53 :=
  by decide +kernel

theorem witness_FxtofRoundsToNearestEven :
    Admitted (regs s64 0x20000000000001 0).cfg ∧
      2 ^ 53 ≤ |tv s64 (raw (regs s64 0x20000000000001 0) .x1)| ∧
      2 ^ 53 ≤ |tv s64 (raw (regs s64 0x8000000000000000 0) .x1)| :=
  by decide +kernel

theorem witness_FloatRoundTripIsExact :
    Admitted (regs s64 0x1FFFFFFFFFFFFF 0).cfg ∧
      |tv s64 (raw (regs s64 0x1FFFFFFFFFFFFF 0) .x1)| < 2 ^ 53 :=
  by decide +kernel

theorem witness_FxaddWrapsUnderWrap :
    Admitted (regs s2 7 1).cfg ∧ (regs s2 7 1).cfg.policy = .wrap :=
  by decide

theorem witness_FxaddClampsUnderSat :
    Admitted (regs s2sat 7 1).cfg ∧ (regs s2sat 7 1).cfg.policy = .sat ∧ (regs s2sat 7 1).cfg.s = .signed ∧
      Admitted (regs u2sat 15 1).cfg ∧ (regs u2sat 15 1).cfg.policy = .sat ∧ (regs u2sat 15 1).cfg.s = .unsigned :=
  by decide

theorem witness_FxdivAndFxrcpTruncateOrFault :
    Admitted (regs s2sto 4 0x10).cfg ∧ raw (regs s2sto 4 0x10) .x2 = 0 ∧ raw (regs s2sto 4 0x8) .x2 ≠ 0 :=
  by decide

theorem witness_CalcWidthIsSufficient :
    Admitted s2sto ∧ s2sto.s = .signed ∧ 15 < 2 ^ s2sto.t ∧ 2 * s2sto.w ≤ 16 ∧
      Admitted u16 ∧ u16.s = .unsigned ∧ 0xFFFFFFFF < 2 ^ u16.t ∧ 2 * u16.w ≤ 64 :=
  by decide

theorem witness_NarrowFormatsAreUnsupported :
    Admitted (regs s2f14 0 0).cfg ∧ ¬WholeBits s2f14 2 ∧ ¬WholeBits (unit 16 15 .signed .wrap) 1 ∧
      ¬(1 ≤ s64.f ∧ WholeBits s64 1) ∧ ¬(u16.s = .signed ∧ 1 ≤ u16.f ∧ WholeBits u16 2) :=
  by
  refine ⟨by decide, ?_, ?_, ?_, ?_⟩
  · show ¬_ ≤ _; decide
  · show ¬_ ≤ _; decide
  · exact fun h => absurd h.1 (by decide)
  · exact fun h => absurd h.1 (by decide)

theorem witness_FxsqrtIsTheNewtonIterate :
    Admitted s16short ∧ Admitted s16guard ∧ Admitted u44 ∧ 1 ≤ s16short.f ∧ WholeBits s16short 1 ∧
      tv s16short (raw (regs s16short 0xFFFFFFFF 0) .x1) < 0 ∧
      raw (regs s16guard 0 0) .x1 = 0 ∧ s16guard.sqrtZeroGuard = true ∧ s16short.sqrtZeroGuard = false ∧
      0 < tv s16short (raw (regs s16short 1 0) .x1) ∧
      NewtonRuns s16short (raw (regs s16short 0x20000 0) .x1) ∧
      0 < tv u44 (raw (regs u44 0xF0 0) .x1) ∧ ¬NewtonRuns u44 (raw (regs u44 0xF0 0) .x1) :=
  by
  refine ⟨by decide, by decide, by decide, by decide, (show _ ≤ _ by decide), by decide, by decide, rfl, rfl, by decide, ?_,
    by decide, fun h => h 1 (by decide) (by decide)⟩
  unfold NewtonRuns; decide

theorem witness_LogDomainErrorsGoToErr :
    Admitted (regs s16 0 0).cfg ∧ WholeBits s16 2 ∧ raw (regs s16 0 0) .x1 = 0 ∧
      tv s16 (raw (regs s16 0xFFFFFFFF 0) .x1) < 0 :=
  ⟨by decide, (show _ ≤ _ by decide), by decide, by decide⟩

theorem witness_Fxlog2IsTurnersRecurrence :
    Admitted (regs s16 1 0).cfg ∧ WholeBits s16 2 ∧ 0 < tv s16 (raw (regs s16 1 0) .x1) ∧
      0 < tv s16 (raw (regs s16 0x7FFFFFFF 0) .x1) :=
  ⟨by decide, (show _ ≤ _ by decide), by decide, by decide⟩

theorem witness_FxlnAndFxlog10ScaleLog2 :
    Admitted (regs s16 1 0).cfg ∧ WholeBits s16 2 ∧ 0 < tv s16 (raw (regs s16 1 0) .x1) ∧
      0 < tv s16 (raw (regs s16 0x7FFFFFFF 0) .x1) :=
  ⟨by decide, (show _ ≤ _ by decide), by decide, by decide⟩

theorem witness_FxpowIsExp2OfTheProduct :
    Admitted (regs s16 1 0).cfg ∧ WholeBits s16 2 ∧ 0 < tv s16 (raw (regs s16 1 0) .x1) ∧
      0 < tv s16 (raw (regs s16 0x7FFFFFFF 0) .x1) :=
  ⟨by decide, (show _ ≤ _ by decide), by decide, by decide⟩

theorem witness_Fxexp2IsTheTaylorProduct :
    Admitted (regs s2f14 0 0).cfg ∧ WholeBits s2f14 1 ∧ 0 ≤ tv s2f14 (raw (regs s2f14 0 0) .x1) ∧
      tv s2f14 (raw (regs s2f14 0x8000 0) .x1) < 0 :=
  ⟨by decide, (show _ ≤ _ by decide), by decide, by decide⟩

theorem witness_FxexpAndFxexp10ScaleThenExp2 :
    Admitted (regs s16 0 0).cfg ∧ WholeBits s16 1 ∧ WholeBits s16 2 :=
  ⟨by decide, (show _ ≤ _ by decide), (show _ ≤ _ by decide)⟩

theorem witness_FxacosIsThePolynomialTimesTheRoot :
    Admitted s16short ∧ Admitted s16guard ∧ s16short.s = .signed ∧ 1 ≤ s16short.f ∧ WholeBits s16short 2 ∧
      |tv s16short (raw (regs s16short 0x8000 0) .x1)| < 2 ^ s16short.f ∧
      |tv s16short (raw (regs s16short 0xFFFF0001 0) .x1)| < 2 ^ s16short.f ∧
      |tv s16guard (raw (regs s16guard 0xFFFF0000 0) .x1)| = 2 ^ s16guard.f ∧
      s16guard.sqrtZeroGuard = true ∧ s16short.sqrtZeroGuard = false ∧
      2 ^ s16short.f < |tv s16short (raw (regs s16short 0x80000000 0) .x1)| :=
  ⟨by decide, by decide, rfl, by decide, (show _ ≤ _ by decide), by decide +kernel, by decide +kernel,
    by decide +kernel, rfl, rfl, by decide +kernel⟩

theorem witness_Exp2InvertsLog2OnPowersOfTwo :
    Admitted (regs s16 0x10000 0).cfg ∧ WholeBits s16 2 ∧ s16.f ≤ 16 ∧ raw (regs s16 0x10000 0) .x1 = 2 ^ 16 ∧
      0 < tv s16 (raw (regs s16 0x10000 0) .x1) ∧ raw (regs s16 0x40000000 0) .x1 = 2 ^ 30 :=
  ⟨by decide, (show _ ≤ _ by decide), by decide, by decide, by decide, by decide⟩

theorem witness_ScalarAddConvertsThenAdds :
    let s (k : Word) (p : Pseudo) : State := waiting s16 0x10000 k (issueAll (expand p) ++ [.hostRead 1])
    Admitted s16 ∧ (s 3 (.valInt .add .x1 .x1 .x2)).unit = .idle ∧
      (s 3 (.valInt .add .x1 .x1 .x2)).port = issueAll (expand (.valInt .add .x1 .x1 .x2)) ++ [.hostRead 1] ∧
      (s 1 (.fxone .x3 .x2)).x.get .x2 = 1 ∧
      scalarq s16 .div 0x10000 0x30000 ≠ none ∧ scalarq s16 .div 0x10000 0 = none ∧
      rawAfter (s 0 (.valInt .div .x3 .x1 .x2)) .x2 0 .x2 = 0 ∧
      ¬NotFinite 0x40DFFFFFFFC00000#64 ∧ InBacking s16 (truncQ (floatVal 0x40DFFFFFFFC00000#64 * 2 ^ s16.f)) ∧
      ¬InBacking s16 (truncQ (floatVal 0x40E0000000000000#64 * 2 ^ s16.f)) ∧
      NotFinite 0x7FF8000000000000#64 := by
  refine ⟨by decide, rfl, rfl, rfl, by decide, rfl, by decide, ?_, ?_, ?_, ?_⟩
  · show ¬_ = _; decide
  · show _ ≤ _ ∧ _ ≤ _; decide +kernel
  · show ¬(_ ≤ _ ∧ _ ≤ _); decide +kernel
  · show _ = _; decide

end Sys2Proof.Tests
end

section
/-! PROOFS. What the write set of a command holds for ERR (10_state.md R42, 60_exceptions.md R277), for every
command at once, and what `exec` therefore does to the state. -/

namespace Sys2Proof.Proofs

open Sys2Proof.Machine Sys2Proof.Safety Sys2Proof.Spec Sys2Proof.Laws

/-- R42: if the command completes, it writes no error record. -/
def LeavesErr (r : Except Cause Writes) : Prop := ∀ ws, r = .ok ws → ws.err = none

/-- R210(c), R277: if the command completes, it writes one of the known error records. -/
def RecordsErr (r : Except Cause Writes) : Prop :=
  ∀ ws, r = .ok ws → ∃ e, ws.err = some e ∧ KnownRecord e

/-! ## Results that leave ERR alone -/

theorem leavesErr_ok {ws : Writes} (h : ws.err = none) : LeavesErr (.ok ws) := by
  rintro _ ⟨⟩
  exact h

theorem leavesErr_error (c : Cause) : LeavesErr (.error c) := nofun

theorem leavesErr_map_wr (rd : Reg) (v : Except Cause Nat) : LeavesErr (v.map (wr rd)) := by
  cases v with
  | ok n => exact leavesErr_ok rfl
  | error c => exact leavesErr_error c

theorem leavesErr_ite {p : Prop} [Decidable p] {r r' : Except Cause Writes} (h : LeavesErr r)
    (h' : LeavesErr r') : LeavesErr (if p then r else r') := by
  split
  · exact h
  · exact h'

/-! ## Results that record an error code -/

theorem recordsErr_ok_wrErr {e : ErrRecord} (h : KnownRecord e) (rd : Reg) (n : Nat) :
    RecordsErr (.ok (wrErr rd n e)) := by
  rintro _ ⟨⟩
  exact ⟨e, rfl, h⟩

theorem recordsErr_error (c : Cause) : RecordsErr (.error c) := nofun

theorem recordsErr_requireFormat {r : Except Cause Writes} (h : RecordsErr r) (ok : Bool) :
    RecordsErr (requireFormat ok r) := by
  cases ok with
  | true => exact h
  | false => exact recordsErr_error _

theorem recordsErr_okResult (rd : Reg) (v : Except Cause Nat) : RecordsErr (okResult rd v) := by
  cases v with
  | ok n => exact recordsErr_ok_wrErr (.inl rfl) rd n
  | error c => exact recordsErr_error c

theorem knownRecord_log2Core (c : Config) (x : Nat) : KnownRecord (log2Core c x).2 := by
  rcases log2Core_cases c x with ⟨-, h⟩ | ⟨-, -, h⟩ | ⟨-, -, h⟩ <;> rw [h]
  · exact .inr (.inl rfl)
  · exact .inr (.inr rfl)
  · exact .inl rfl

theorem recordsErr_afterLog (rd : Reg) {l : Nat × ErrRecord} (h : KnownRecord l.2)
    (after : Nat → Except Cause Nat) : RecordsErr (afterLog rd l after) := by
  unfold afterLog
  split
  · exact recordsErr_okResult rd _
  · exact recordsErr_ok_wrErr h rd _

/-! ## Every command -/

/-- R42: the other 24 commands leave ERR alone. -/
theorem exec_leavesErr {i : Instr} (h : ¬Elementary i) (s : State) :
    ∃ r, exec i s = conclude i s r ∧ LeavesErr r := by
  cases i with
  | fxraw | fxfromi | fxtoi | fxtof | fxispos | fxisneg | fxisnneg | fxiszero | fxeq | fxne | fxlt | fxle
  | fxadd | fxsub | fxmul | fxneg | fxabs => exact ⟨_, rfl, leavesErr_ok rfl⟩
  | fxfromf | fxidiv | fxdivi | fxdiv | fxrcp => exact ⟨_, rfl, leavesErr_map_wr _ _⟩
  | fxcvtin | fxcvtout => exact ⟨_, rfl, leavesErr_ite (leavesErr_ok rfl) (leavesErr_error _)⟩
  | fxsqrt | fxlog2 | fxln | fxlog10 | fxexp2 | fxexp | fxexp10 | fxpow | fxacos => exact absurd trivial h

/-- R210(c), R277: each of the nine elementary commands writes a known record. -/
theorem exec_recordsErr {i : Instr} (h : Elementary i) (s : State) :
    ∃ r, exec i s = conclude i s r ∧ RecordsErr r := by
  cases i with
  | fxsqrt | fxexp2 | fxexp | fxexp10 | fxacos =>
    exact ⟨_, rfl, recordsErr_requireFormat (recordsErr_okResult _ _) _⟩
  | fxlog2 =>
    exact ⟨_, rfl, recordsErr_requireFormat (recordsErr_ok_wrErr (knownRecord_log2Core _ _) _ _) _⟩
  | fxln | fxlog10 | fxpow =>
    exact ⟨_, rfl, recordsErr_requireFormat (recordsErr_afterLog _ (knownRecord_log2Core _ _) _) _⟩
  | _ => exact h.elim

/-- Everything a command can do, with what its write set holds for ERR. -/
theorem exec_next_cases {i : Instr} {s t : State} (h : exec i s = .next t) :
    (∃ ws, t = commit ws s ∧ (¬Elementary i → ws.err = none) ∧
      (Elementary i → ∃ e, ws.err = some e ∧ KnownRecord e)) ∨
    ∃ c, t = takeFault c (encode i) s := by
  obtain ⟨r, hr, hplain, helem⟩ : ∃ r, exec i s = conclude i s r ∧
      (¬Elementary i → LeavesErr r) ∧ (Elementary i → RecordsErr r) := by
    by_cases he : Elementary i
    · obtain ⟨r, hr, hrec⟩ := exec_recordsErr he s
      exact ⟨r, hr, absurd he, fun _ => hrec⟩
    · obtain ⟨r, hr, hleaves⟩ := exec_leavesErr he s
      exact ⟨r, hr, fun _ => hleaves, (absurd · he)⟩
  rw [hr] at h
  rcases conclude_cases i s r with ⟨ws, hws, -, hc⟩ | ⟨c, -, -, hc⟩ | ⟨why, -, hc⟩ <;>
    rw [hc] at h <;> cases h
  · exact .inl ⟨ws, rfl, fun he => hplain he ws hws, fun he => helem he ws hws⟩
  · exact .inr ⟨c, rfl⟩

end Sys2Proof.Proofs
end

section
/-! PROOFS. The state invariant (00_scope.md R6, 10_state.md R49, 60_exceptions.md R277) is kept by each way a
step can change the unit, and so by every step. -/

namespace Sys2Proof.Proofs

open Sys2Proof.Machine Sys2Proof.Safety Sys2Proof.Spec Sys2Proof.Laws

theorem inv_takeFault {s : State} (h : Inv s) (c : Cause) (w : CmdWord) : Inv (takeFault c w s) := by
  obtain ⟨hcfg, -, herr⟩ := h
  exact ⟨hcfg, by simp, herr⟩

theorem inv_resetUnit {s : State} (h : Inv s) : Inv (resetUnit s) := by
  obtain ⟨hcfg, -, -⟩ := h
  exact ⟨hcfg, by simp, .inl rfl⟩

/-- R49: outside HALTED there is no fault in FSR. -/
theorem fsr_eq_none_of_not_halted {s : State} (h : Inv s) (hu : s.unit ≠ .halted) : s.fsr = none := by
  obtain ⟨-, hfault, -⟩ := h
  simpa [hu] using hfault

theorem inv_commit {s : State} (h : Inv s) (hu : s.unit ≠ .halted) {ws : Writes}
    (hw : KnownRecord (ws.err.getD s.err)) : Inv (commit ws s) := by
  have ⟨hcfg, _, _⟩ := h
  exact ⟨hcfg, by simp [fsr_eq_none_of_not_halted h hu], hw⟩

theorem inv_exec {i : Instr} {s t : State} (h : Inv s) (hu : s.unit ≠ .halted)
    (ht : exec i s = .next t) : Inv t ∧ t.cfg = s.cfg := by
  have ⟨_, _, herr⟩ := h
  rcases exec_next_cases ht with ⟨ws, rfl, hplain, helem⟩ | ⟨c, rfl⟩
  · refine ⟨inv_commit h hu ?_, rfl⟩
    by_cases he : Elementary i
    · obtain ⟨e, hws, hknown⟩ := helem he
      rwa [hws]
    · rwa [hplain he]
  · exact ⟨inv_takeFault h c _, rfl⟩

theorem inv_runCommand {w : CmdWord} {s t : State} (h : Inv s) (hu : s.unit ≠ .halted)
    (ht : runCommand w s = .next t) : Inv t ∧ t.cfg = s.cfg := by
  unfold runCommand at ht
  split at ht
  · cases ht
    exact ⟨inv_takeFault h _ w, rfl⟩
  · exact inv_exec h hu ht

/-- An accepted command starts from a state that meets the invariant: BUSY is not HALTED, and FSR is clear. -/
theorem inv_busy {s : State} (h : Inv s) (hu : s.unit ≠ .halted) (w : CmdWord) (rest : List HostOp) :
    Inv { s with unit := .busy w, port := rest } := by
  have ⟨hcfg, _, herr⟩ := h
  exact ⟨hcfg, by simp [fsr_eq_none_of_not_halted h hu], herr⟩

/-- Settles O13: of all a step can do (`step_cases`), serving the port leaves the unit's status alone, a reset
clears it, and a command writes a known record or faults. -/
theorem stepKeepsTheInvariant : Obligations.StepKeepsTheInvariant := by
  intro s t h hstep
  rcases step_cases hstep with rfl | ⟨rest, rfl⟩ | ⟨r, v, rest, rfl⟩ | ⟨v, rest, rfl⟩ | ⟨rest, rfl⟩ |
    ⟨hu, w, rest, b, rfl, hrun⟩
  · exact ⟨h, rfl⟩
  · exact ⟨h, rfl⟩
  · exact ⟨h, rfl⟩
  · exact ⟨h, rfl⟩
  · exact ⟨inv_resetUnit h, rfl⟩
  · have hkeeps := inv_runCommand (inv_busy h hu w rest) nofun hrun
    exact hkeeps

end Sys2Proof.Proofs
end

section
/-! PROOFS. Which configurations elaborate a unit (00_scope.md R5, R6), and how one is requested by
(T, F, S, P) (10_state.md R33). -/

namespace Sys2Proof.Proofs

open Sys2Proof.Machine Sys2Proof.Safety Sys2Proof.Spec Sys2Proof.Laws

/-- R15: the model's test of the exponent field is the statement's. -/
theorem isFinite_iff (d : Word) : isFinite d = true ↔ ¬NotFinite d := by
  have hfield : (d.extractLsb' 52 11).toNat = d.toNat / 2 ^ 52 % 2048 := by
    rw [BitVec.extractLsb'_toNat, Nat.shiftRight_eq_div_pow]
  simp [isFinite, NotFinite, ← BitVec.toNat_inj, hfield]

/-- One check of `rejectConfig` that refuses by the name `why`. -/
theorem check_eq_none_iff {p : Prop} [Decidable p] {why : ElabRefusal} {later : Option ElabRefusal} :
    (if p then some why else later) = none ↔ ¬p ∧ later = none := by
  split <;> simp [*]

/-- R6's list, read off the model's chain of checks. -/
theorem admitted_iff_legalConfig (c : Config) : Admitted c ↔ LegalConfig c := by
  have hpolicy : c.policy = .wrap ∨ c.policy = .sat ↔ c.policy ≠ .invalid := by
    cases c.policy <;> simp
  unfold Admitted rejectConfig LegalConfig
  simp only [check_eq_none_iff, ite_eq_left_iff, reduceCtorEq, imp_false, not_not, Bool.and_eq_true, hpolicy,
    ← isFinite_iff]
  constructor
  · rintro ⟨-, hw, ht, htw, hft, hp, hn, ⟨⟨⟨ha, hb⟩, hc⟩, hd⟩, hpi⟩
    exact ⟨by omega, by omega, hw, by omega, hp, by omega, by omega, ha, hb, hc, hd, hpi⟩
  · rintro ⟨hft, htw, hw, ht, hp, hn, hn', ha, hb, hc, hd, hpi⟩
    exact ⟨by omega, hw, by omega, by omega, by omega, hp, by omega, ⟨⟨⟨ha, hb⟩, hc⟩, hd⟩, hpi⟩

theorem exec_next_of_admitted {s : State} (h : Admitted s.cfg) (i : Instr) : ∃ t, exec i s = .next t := by
  rcases exec_cases i s with ⟨ws, -, he⟩ | ⟨c, -, he⟩ | ⟨why, hw, -⟩
  · exact ⟨_, he⟩
  · exact ⟨_, he⟩
  · cases hw.symm.trans h

theorem exec_refused {s : State} {why : ElabRefusal} (h : rejectConfig s.cfg = some why) (i : Instr) :
    exec i s = .refused (.notElaborated why) := by
  obtain ⟨r, hr⟩ := exec_eq_conclude i s
  rw [hr, conclude_refused h]

/-! ## Requesting a unit by (T, F, S, P) -/

/-- The configuration that `elaborate` puts together and submits to R6. -/
def requested (base : Config) (t f : Nat) (sg : Signedness) (p : Policy) : Config :=
  { base with w := backingWidth t, t := t, f := f, s := sg, policy := p }

section
variable (base : Config) (t f : Nat) (sg : Signedness) (p : Policy)

theorem elaborate_unrepresentable (h : 64 < t) :
    elaborate base t f sg p = .error .unrepresentable := by
  simp [elaborate, sel, Nat.not_le.mpr h]

theorem elaborate_of_admitted (h : Admitted (requested base t f sg p)) :
    elaborate base t f sg p = .ok (requested base t f sg p) := by
  have ht : t ≤ 64 := admitted_t_le h
  unfold requested Admitted at h
  simp [elaborate, sel, ht, h, requested]

theorem elaborate_of_not_admitted (h : ¬Admitted (requested base t f sg p)) :
    ∃ why, elaborate base t f sg p = .error why := by
  by_cases ht : t ≤ 64
  · obtain ⟨why, hwhy⟩ := Option.ne_none_iff_exists'.mp h
    unfold requested at hwhy
    exact ⟨why, by simp [elaborate, sel, ht, hwhy]⟩
  · exact ⟨_, elaborate_unrepresentable base t f sg p (by omega)⟩

end

/-- R33: the model's selector is the statement's. -/
theorem backingWidth_eq_selWidth (n : Nat) : backingWidth n = selWidth n := by
  unfold backingWidth selWidth
  split_ifs <;> by_cases h64 : n ≤ 64 <;> simp [List.find?, *]

theorem backingWidth_cases (n : Nat) :
    backingWidth n = 8 ∨ backingWidth n = 16 ∨ backingWidth n = 32 ∨ backingWidth n = 64 := by
  unfold backingWidth
  split_ifs <;> simp

/-- R33: a request within R6's bounds takes a legal backing width, and all else that is legal from `base`. -/
theorem legalConfig_requested {base : Config} (hb : LegalConfig base) {t f : Nat} (h1 : 1 ≤ t) (h64 : t ≤ 64)
    (hf : f ≤ t) (sg : Signedness) {p : Policy} (hp : p = .wrap ∨ p = .sat) :
    LegalConfig (requested base t f sg p) := by
  obtain ⟨-, -, -, -, -, hrest⟩ := hb
  exact ⟨hf, le_backingWidth h64, backingWidth_cases t, h1, hp, hrest⟩

/-- Settles O19: R6's list is `LegalConfig`; `conclude` answers in a legal configuration and refuses in any
other; and `elaborate` submits the requested configuration to the same list. -/
theorem inadmissibleConfigIsRefused : Obligations.InadmissibleConfigIsRefused := by
  refine ⟨admitted_iff_legalConfig, ?_, ?_, ?_, ?_, ?_, ?_⟩
  · intro s i h
    exact exec_next_of_admitted ((admitted_iff_legalConfig _).mpr h) i
  · intro s h
    obtain ⟨why, hwhy⟩ := Option.ne_none_iff_exists'.mp (mt (admitted_iff_legalConfig _).mp h)
    exact ⟨why, step_refused hwhy, exec_refused hwhy⟩
  · intro base t f sg p hb h1 h64 hf hp
    rw [← backingWidth_eq_selWidth]
    exact elaborate_of_admitted base t f sg p
      ((admitted_iff_legalConfig _).mpr (legalConfig_requested hb h1 h64 hf sg hp))
  · intro base t f sg p h
    refine elaborate_of_not_admitted base t f sg p fun ha => ?_
    have hpos : 1 ≤ t := admitted_t_pos ha
    have hfrac : f ≤ t := admitted_f_le_t ha
    omega
  · intro base t f sg p h
    exact elaborate_unrepresentable base t f sg p h
  · intro base t f sg
    refine elaborate_of_not_admitted base t f sg .invalid fun ha => ?_
    obtain ⟨-, -, -, -, hpolicy, -⟩ := admitted_spec ha
    exact hpolicy rfl

end Sys2Proof.Proofs
end

section
/-! PROOFS. The state after reset (70_reset_and_hazards.md R300), and the status words as sums of their fields
(10_state.md R31, R42). -/

namespace Sys2Proof.Proofs

open Sys2Proof.Machine Sys2Proof.Safety Sys2Proof.Spec Sys2Proof.Laws

theorem inv_resetOf {c : Config} (h : Admitted c) : Inv (State.resetOf c) :=
  ⟨h, by simp [State.resetOf], .inl rfl⟩

/-- Settles O14: reset clears FSR and ERR and leaves the unit IDLE, and the reference configuration is
admitted. -/
theorem resetMeetsTheInvariant : Obligations.ResetMeetsTheInvariant :=
  ⟨fun _ => inv_resetOf, inv_resetOf (by decide)⟩

/-! ## Status words -/

/-- The word is `v`, which takes no bit from `k` on. -/
def Fits (x : Word) (k v : Nat) : Prop := x.toNat = v ∧ v < 2 ^ k

theorem fits_setWidth {n : Nat} {b : BitVec n} (hn : n ≤ 64 := by omega) : Fits (b.setWidth 64) n b.toNat :=
  ⟨BitVec.toNat_setWidth_of_le hn, b.isLt⟩

/-- R8: a field above the bits set so far adds its place value. -/
theorem Fits.or_field {x : Word} {k v n j : Nat} {b : BitVec n} (h : Fits x k v)
    (hkj : k ≤ j := by omega) (hj : j + n ≤ 64 := by omega) :
    Fits (x ||| b.setWidth 64 <<< j) (j + n) (v + b.toNat * 2 ^ j) := by
  obtain ⟨hx, hv⟩ := h
  have hvj : v < 2 ^ j := hv.trans_le (Nat.pow_le_pow_right (by norm_num) hkj)
  have hsum : v + b.toNat * 2 ^ j < 2 ^ (j + n) := by
    calc v + b.toNat * 2 ^ j < 2 ^ j * (b.toNat + 1) := by linarith
      _ ≤ 2 ^ j * 2 ^ n := Nat.mul_le_mul_left _ b.isLt
      _ = 2 ^ (j + n) := (pow_add 2 j n).symm
  have h64 : 2 ^ (j + n) ≤ 2 ^ 64 := Nat.pow_le_pow_right (by norm_num) hj
  refine ⟨?_, hsum⟩
  rw [BitVec.toNat_or, BitVec.toNat_shiftLeft, BitVec.toNat_setWidth_of_le (by omega), hx,
    Nat.mod_eq_of_lt (by rw [Nat.shiftLeft_eq]; omega), or_shiftLeft_eq_add hvj]

theorem Fits.or_flag {x : Word} {k v j : Nat} {b : Bool} (h : Fits x k v) (hkj : k ≤ j := by omega)
    (hj : j + 1 ≤ 64 := by omega) :
    Fits (x ||| (BitVec.ofBool b).setWidth 64 <<< j) (j + 1) (v + b.toNat * 2 ^ j) := by
  rw [← BitVec.toNat_ofBool b]
  exact h.or_field hkj hj

/-- R42: ERR as the sum of its fields. -/
theorem errWord_fits (e : ErrRecord) :
    Fits (errWord e) 8 ((codeBits e.code).toNat + e.overflow.toNat * 2 ^ 2 + e.underflow.toNat * 2 ^ 3 +
      e.divisionByZero.toNat * 2 ^ 4 + e.invalidArgument.toNat * 2 ^ 5 + (errValid e).toNat * 2 ^ 7) := by
  unfold errWord
  exact (fits_setWidth).or_flag.or_flag.or_flag.or_flag.or_flag

/-- R8: a bit of a word whose value is known. -/
theorem getLsbD_of_toNat {x : Word} {i : Nat} {b : Bool} (h : x.toNat / 2 ^ i % 2 = b.toNat) :
    x.getLsbD i = b := by
  rw [← BitVec.testBit_toNat, Nat.testBit_eq_decide_div_mod_eq, h]
  cases b <;> rfl

/-- R43. -/
theorem errValid_iff (e : ErrRecord) :
    errValid e = true ↔ e.code = .normal ∧ e.overflow = false ∧ e.underflow = false ∧
      e.divisionByZero = false ∧ e.invalidArgument = false := by
  simp [errValid, and_assoc]

/-- Settles O25: each clause reads one field off the sum. -/
theorem errWordReportsTheRecord : Obligations.ErrWordReportsTheRecord := by
  intro e
  obtain ⟨hsum, hlt⟩ := errWord_fits e
  have hcode := (codeBits e.code).isLt
  have hof := e.overflow.toNat_lt
  have huf := e.underflow.toNat_lt
  have hdz := e.divisionByZero.toNat_lt
  have hia := e.invalidArgument.toNat_lt
  refine ⟨?_, ?_, getLsbD_of_toNat (by omega), getLsbD_of_toNat (by omega), getLsbD_of_toNat (by omega),
    getLsbD_of_toNat (by omega), getLsbD_of_toNat (by simp only [Bool.toNat_false]; omega), by omega⟩
  · rw [getLsbD_of_toNat (b := errValid e) (by omega), errValid_iff]
  · have hlow : (errWord e).toNat % 4 = (codeBits e.code).toNat := by omega
    rw [hlow]
    cases e.code <;> rfl

/-- R31: CFG as the sum of its fields, each parameter of an admitted configuration fitting its own. -/
theorem cfgWord_fits {c : Config} (h : Admitted c) :
    Fits (cfgWord c) 40 (c.w + c.t * 2 ^ 8 + c.f * 2 ^ 16 + (c.s == .signed).toNat * 2 ^ 24 +
      (policyBits c.policy).toNat * 2 ^ 25 + (c.subwidthRead == .active).toNat * 2 ^ 27 +
      c.sqrtZeroGuard.toNat * 2 ^ 28 + c.sqrtIterMax * 2 ^ 32) := by
  obtain ⟨-, -, htw, hft, -, -, hiter⟩ := admitted_spec h
  have hw := admitted_w_le h
  have hfit {n : Nat} (hn : n < 256) : (BitVec.ofNat 8 n).toNat = n := by
    rw [BitVec.toNat_ofNat]
    exact Nat.mod_eq_of_lt hn
  rw [← hfit (n := c.w) (by omega), ← hfit (n := c.t) (by omega), ← hfit (n := c.f) (by omega),
    ← hfit (n := c.sqrtIterMax) (by omega)]
  unfold cfgWord
  exact (fits_setWidth).or_field.or_field.or_flag.or_field.or_flag.or_flag.or_field

theorem policyBits_toNat {c : Config} (h : Admitted c) :
    (policyBits c.policy).toNat = if c.policy = .sat then 1 else 0 := by
  obtain ⟨-, -, -, -, hpolicy, -⟩ := admitted_spec h
  cases hp : c.policy with
  | wrap | sat => rfl
  | invalid => exact absurd hp hpolicy

/-- Settles O26: each clause reads one field off the sum. -/
theorem cfgWordReportsTheParameters : Obligations.CfgWordReportsTheParameters := by
  intro c h
  obtain ⟨hsum, -⟩ := cfgWord_fits h
  obtain ⟨-, -, htw, hft, -, -, hiter⟩ := admitted_spec h
  have hw := admitted_w_le h
  have hs := (c.s == .signed).toNat_lt
  have hp := (policyBits c.policy).isLt
  have hssr := (c.subwidthRead == .active).toNat_lt
  have hszg := c.sqrtZeroGuard.toNat_lt
  refine ⟨by omega, by omega, by omega, ?_, ?_, ?_, getLsbD_of_toNat (by omega), by omega, by omega⟩
  · rw [getLsbD_of_toNat (b := c.s == .signed) (by omega), beq_iff_eq]
  · rw [← policyBits_toNat h]
    omega
  · rw [getLsbD_of_toNat (b := c.subwidthRead == .active) (by omega), beq_iff_eq]

end Sys2Proof.Proofs
end

section
/-! PROOFS. The ERR frame of every command (10_state.md R42, 60_exceptions.md R277), and the zero padding of every
fixed-point result (10_state.md R35, R36). -/

namespace Sys2Proof.Proofs

open Sys2Proof.Machine Sys2Proof.Safety Sys2Proof.Spec Sys2Proof.Laws

/-- Settles O21: a fault leaves ERR alone, and a completed command writes to it what its write set holds. -/
theorem onlyElementaryCommandsWriteErr : Obligations.OnlyElementaryCommandsWriteErr := by
  intro i s t h
  rcases exec_next_cases h with ⟨ws, rfl, hplain, helem⟩ | ⟨c, rfl⟩
  · constructor
    · intro he
      simp [hplain he]
    · intro he _
      obtain ⟨e, hws, hknown⟩ := helem he
      rwa [commit_err, hws]
  · exact ⟨fun _ => rfl, nofun⟩

/-! ## Results of the unit's format -/

/-- R35: if the command completes, it writes a raw value of the format zero-extended to `rd`. -/
def WritesRaw (fm : Format) (rd : Reg) (r : Except Cause Writes) : Prop :=
  ∀ ws, r = .ok ws → ws.rd = rd ∧ ∃ n < 2 ^ fm.t, ws.val = BitVec.ofNat 64 n

/-- If the computation answers, it answers a raw value of the format (R37). -/
def AnswersRaw (fm : Format) (v : Except Cause Nat) : Prop := ∀ n, v = .ok n → n < 2 ^ fm.t

section
variable {fm : Format} {rd : Reg} {n : Nat}

theorem writesRaw_wr (h : n < 2 ^ fm.t) : WritesRaw fm rd (.ok (wr rd n)) := by
  rintro _ ⟨⟩
  exact ⟨rfl, n, h, rfl⟩

theorem writesRaw_wrErr (h : n < 2 ^ fm.t) (e : ErrRecord) : WritesRaw fm rd (.ok (wrErr rd n e)) := by
  rintro _ ⟨⟩
  exact ⟨rfl, n, h, rfl⟩

theorem writesRaw_error (c : Cause) : WritesRaw fm rd (.error c) := nofun

theorem writesRaw_map_wr {v : Except Cause Nat} (h : AnswersRaw fm v) : WritesRaw fm rd (v.map (wr rd)) := by
  cases v with
  | ok n => exact writesRaw_wr (h n rfl)
  | error c => exact writesRaw_error c

theorem writesRaw_okResult {v : Except Cause Nat} (h : AnswersRaw fm v) : WritesRaw fm rd (okResult rd v) := by
  cases v with
  | ok n => exact writesRaw_wrErr (h n rfl) _
  | error c => exact writesRaw_error c

theorem writesRaw_requireFormat {r : Except Cause Writes} (h : WritesRaw fm rd r) (ok : Bool) :
    WritesRaw fm rd (requireFormat ok r) := by
  cases ok with
  | true => exact h
  | false => exact writesRaw_error _

theorem writesRaw_afterLog {l : Nat × ErrRecord} {after : Nat → Except Cause Nat} (hl : l.1 < 2 ^ fm.t)
    (h : ∀ v, AnswersRaw fm (after v)) : WritesRaw fm rd (afterLog rd l after) := by
  unfold afterLog
  split
  · exact writesRaw_okResult (h _)
  · exact writesRaw_wrErr hl _

theorem writesRaw_ite_error {p : Prop} [Decidable p] {r : Except Cause Writes} (h : WritesRaw fm rd r)
    (c : Cause) : WritesRaw fm rd (if p then r else .error c) := by
  split
  · exact h
  · exact writesRaw_error c

theorem answersRaw_ok (h : n < 2 ^ fm.t) : AnswersRaw fm (.ok n) := by
  rintro _ ⟨⟩
  exact h

/-- A check that raises a fault before the answer. -/
theorem answersRaw_check {p : Prop} [Decidable p] {c : Cause} {v : Except Cause Nat} (h : AnswersRaw fm v) :
    AnswersRaw fm (if p then .error c else v) := by
  split
  · exact nofun
  · exact h

end

section
variable (c : Config)

theorem fromFloat_answersRaw (d : Word) (nu : Bool) : AnswersRaw c.toFormat (fromFloat c d nu) := by
  unfold fromFloat
  refine answersRaw_check ?_
  split
  · exact answersRaw_ok (reduce_lt _ _)
  · exact nofun

theorem intDiv_answersRaw (n d : Int) (nu : Bool) : AnswersRaw c.toFormat (intDiv c n d nu) :=
  answersRaw_check (answersRaw_ok (reduce_lt _ _))

theorem divInt_answersRaw (a : Nat) (k : Int) (nu : Bool) : AnswersRaw c.toFormat (divInt c a k nu) :=
  answersRaw_check (answersRaw_ok (reduce_lt _ _))

theorem div_answersRaw (a b : Nat) : AnswersRaw c.toFormat (div c a b) := fun _ => div_lt

theorem sqrtCore_answersRaw {x : Nat} (hx : x < 2 ^ c.t) : AnswersRaw c.toFormat (sqrtCore c x) := by
  rcases sqrtCore_cases c hx with h | h | ⟨v, hv, h⟩ <;> rw [h]
  · exact nofun
  · exact nofun
  · exact answersRaw_ok hv

theorem exp2Core_answersRaw (x : Nat) : AnswersRaw c.toFormat (exp2Core c x) := by
  rcases exp2Core_cases c x with h | ⟨v, hv, h⟩ <;> rw [h]
  · exact nofun
  · exact answersRaw_ok hv

theorem acosCore_answersRaw (x : Nat) : AnswersRaw c.toFormat (acosCore c x) := by
  rcases acosCore_cases c x with h | h | ⟨v, hv, h⟩ <;> rw [h]
  · exact nofun
  · exact nofun
  · exact answersRaw_ok hv

theorem log2Core_lt (x : Nat) : (log2Core c x).1 < 2 ^ c.t := by
  rcases log2Core_cases c x with ⟨-, h⟩ | ⟨-, -, h⟩ | ⟨-, -, h⟩ <;> rw [h]
  · positivity
  · positivity
  · exact reduce_lt _ _

end

/-- R35, R162: every command with a result of the unit's format writes a raw value of it to its rd. -/
theorem exec_writesRaw {i : Instr} (h : FixedPointResult i) (s : State) :
    ∃ r, exec i s = conclude i s r ∧ WritesRaw s.cfg.toFormat (destination i) r := by
  cases i with
  | fxraw => exact ⟨_, rfl, writesRaw_wr (opnd_lt _ _)⟩
  | fxfromi | fxsub | fxmul | fxneg => exact ⟨_, rfl, writesRaw_wr (reduce_lt _ _)⟩
  | fxadd => exact ⟨_, rfl, writesRaw_wr (add_lt _ _ _)⟩
  | fxabs => exact ⟨_, rfl, writesRaw_wr (absVal_lt (opnd_lt _ _))⟩
  | fxcvtin => exact ⟨_, rfl, writesRaw_ite_error (writesRaw_wr (cvt_lt _ _ _ _ _)) _⟩
  | fxfromf => exact ⟨_, rfl, writesRaw_map_wr (fromFloat_answersRaw _ _ _)⟩
  | fxidiv => exact ⟨_, rfl, writesRaw_map_wr (intDiv_answersRaw _ _ _ _)⟩
  | fxdivi => exact ⟨_, rfl, writesRaw_map_wr (divInt_answersRaw _ _ _ _)⟩
  | fxdiv | fxrcp => exact ⟨_, rfl, writesRaw_map_wr (div_answersRaw _ _ _)⟩
  | fxsqrt =>
    exact ⟨_, rfl, writesRaw_requireFormat (writesRaw_okResult (sqrtCore_answersRaw _ (opnd_lt _ _))) _⟩
  | fxlog2 => exact ⟨_, rfl, writesRaw_requireFormat (writesRaw_wrErr (log2Core_lt _ _) _) _⟩
  | fxln | fxlog10 =>
    exact ⟨_, rfl, writesRaw_requireFormat
      (writesRaw_afterLog (log2Core_lt _ _) fun _ => answersRaw_ok (mul_lt _ _ _)) _⟩
  | fxpow =>
    exact ⟨_, rfl, writesRaw_requireFormat
      (writesRaw_afterLog (log2Core_lt _ _) fun _ => exp2Core_answersRaw _ _) _⟩
  | fxexp2 | fxexp | fxexp10 =>
    exact ⟨_, rfl, writesRaw_requireFormat (writesRaw_okResult (exp2Core_answersRaw _ _)) _⟩
  | fxacos => exact ⟨_, rfl, writesRaw_requireFormat (writesRaw_okResult (acosCore_answersRaw _ _)) _⟩
  | _ => exact h.elim

/-- Settles O22: of the ways a command ends only completion leaves the unit IDLE, and then rd holds the raw value
that the write set gives it. -/
theorem fixedPointResultsArePadded : Obligations.FixedPointResultsArePadded := by
  intro i s t hi h hidle
  obtain ⟨r, hr, hraw⟩ := exec_writesRaw hi s
  rw [hr] at h
  rcases conclude_cases i s r with ⟨ws, hws, -, hc⟩ | ⟨c, -, -, hc⟩ | ⟨why, -, hc⟩ <;>
    rw [hc] at h <;> cases h
  · obtain ⟨hrd, n, hn, hval⟩ := hraw ws hws
    rw [commit_x, hrd, bank_get_set_same, hval, BitVec.toNat_ofNat]
    exact (Nat.mod_le _ _).trans_lt hn
  · cases hidle

end Sys2Proof.Proofs
end

section
/-! PROOFS. The decoder against R86's lists and R87's illegal words (30_encoding.md): where it answers a command,
which row of R86 the command is of, and which registers it reads. -/

namespace Sys2Proof.Proofs

open Sys2Proof.Machine Sys2Proof.Safety Sys2Proof.Spec Sys2Proof.Laws

/-! ## The rows of R86 -/

/-- The command `i` is of the row with opcode number `n`, and reads the registers `ops`. -/
def IsOfRow (n : Nat) (ops : List Reg) (i : Instr) : Prop := (opcodeOf i).toNat = n ∧ reads i = ops

/-- The shape is that of the row with opcode number `n`: it has the fields that the lists of R86 give `n`, and
builds that row's commands. -/
def MatchesRow (n : Nat) : Shape → Prop
  | .unary mk => n ∉ xOps ∧ n ∉ rs2Ops ∧ n ∉ nuOps ∧ ∀ d a, IsOfRow n [a] (mk d a)
  | .unaryNu mk => n ∉ xOps ∧ n ∉ rs2Ops ∧ n ∈ nuOps ∧ ∀ d a nu, IsOfRow n [a] (mk d a nu)
  | .binary mk => n ∉ xOps ∧ n ∈ rs2Ops ∧ n ∉ nuOps ∧ ∀ d a b, IsOfRow n [a, b] (mk d a b)
  | .binaryNu mk => n ∉ xOps ∧ n ∈ rs2Ops ∧ n ∈ nuOps ∧ ∀ d a b nu, IsOfRow n [a, b] (mk d a b nu)
  | .convert mk => n ∈ xOps ∧ n ∉ rs2Ops ∧ n ∈ nuOps ∧ ∀ d a fm nu, IsOfRow n [a] (mk d a fm nu)

/-- R86: the opcode map has a row for exactly the listed numbers, and it is the number's own. -/
theorem shapeOf_cases (op : BitVec 8) :
    (op.toNat ∉ opcodes ∧ shapeOf op = none) ∨
      (op.toNat ∈ opcodes ∧ ∃ sh, shapeOf op = some sh ∧ MatchesRow op.toNat sh) := by
  unfold shapeOf
  split
  case h_34 => exact .inl ⟨by simp_all [opcodes], rfl⟩
  all_goals
    next h =>
    rw [h]
    exact .inr ⟨by decide, _, rfl, by decide, by decide, by decide, by intros; exact ⟨rfl, rfl⟩⟩

/-! ## Fields -/

theorem extract_eq_zero_iff (w : CmdWord) (lo n : Nat) : w.extractLsb' lo n = 0 ↔ bits w lo n = 0 := by
  rw [← BitVec.toNat_inj, extract_toNat, bits]
  rfl

theorem fieldNu_iff (w : CmdWord) : fieldNu w = true ↔ bits w 17 1 ≠ 0 := by
  rw [fieldNu_eq, bits, decide_eq_true_iff]
  omega

/-- R84 on the fields of R83; T' = xtm1 + 1 is positive. -/
theorem descLegal_fieldDesc_iff (c : Config) (w : CmdWord) :
    descLegal c (fieldDesc w) = true ↔ bits w 25 7 ≤ bits w 19 6 + 1 ∧ bits w 19 6 + 1 ≤ c.w := by
  simp only [descLegal, fieldDesc, extract_toNat, bits, Bool.and_eq_true, decide_eq_true_iff]
  omega

/-- The registers that a word names as operands, in the order a command reads them. -/
def operands (w : CmdWord) : List Reg :=
  if bits w 0 8 ∈ rs2Ops then [fieldRs1 w, fieldRs2 w] else [fieldRs1 w]

theorem indexOf_toNat_eq_iff (r : Reg) (b : BitVec 3) : (indexOf r).toNat = b.toNat ↔ r = Reg.ofBits b := by
  revert b
  cases r <;> decide

theorem namesOperand_iff (w : CmdWord) (r : Reg) : NamesOperand w r ↔ r ∈ operands w := by
  have h1 : (indexOf r).toNat = bits w 11 3 ↔ r = fieldRs1 w := by
    rw [bits, ← extract_toNat, indexOf_toNat_eq_iff, fieldRs1]
  have h2 : (indexOf r).toNat = bits w 14 3 ↔ r = fieldRs2 w := by
    rw [bits, ← extract_toNat, indexOf_toNat_eq_iff, fieldRs2, fieldRs2Bits]
  unfold NamesOperand operands
  rw [h1, h2]
  split <;> simp [*]

/-! ## The decoder -/

/-- A result of the decoder is right for `w`: an error where R87 calls the word illegal, and else a command of
the row that the opcode names, with the word's operands. -/
def DecodesRightly (c : Config) (w : CmdWord) : Except DecodeError Instr → Prop
  | .error _ => IllegalWord c w
  | .ok i => ¬IllegalWord c w ∧ IsOfRow (bits w 0 8) (operands w) i

/-- One check of the decoder. -/
theorem decodesRightly_check {c : Config} {w : CmdWord} {p : Prop} [Decidable p] {e : DecodeError}
    {later : Except DecodeError Instr} (hp : p → IllegalWord c w) (hl : ¬p → DecodesRightly c w later) :
    DecodesRightly c w (if p then .error e else later) := by
  split
  · next h => exact hp h
  · next h => exact hl h

/-- R88: in each shape the checks are the clauses of R87 that the row's unused fields leave open. -/
theorem decodeShape_decodesRightly (c : Config) {w : CmdWord} (hop : bits w 0 8 ∈ opcodes) {sh : Shape}
    (h : MatchesRow (bits w 0 8) sh) : DecodesRightly c w (decodeShape c w sh) := by
  have hrs2 : fieldRs2Bits w = 0 ↔ bits w 14 3 = 0 := extract_eq_zero_iff w 14 3
  have hreserved : fieldReservedR w = 0 ↔ bits w 18 14 = 0 := extract_eq_zero_iff w 18 14
  cases sh <;> obtain ⟨hx, h2, hn, hmk⟩ := h <;>
    simp only [decodeShape, ne_eq, hrs2, hreserved, fieldNu_iff, descLegal_fieldDesc_iff]
  case unary mk =>
    refine decodesRightly_check (fun h18 => by simp [IllegalWord, hx, h18]) fun h18 =>
      decodesRightly_check (fun h14 => by simp [IllegalWord, hx, h2, h14]) fun h14 =>
      decodesRightly_check (fun h17 => by simp [IllegalWord, hn, h17]) fun h17 => ⟨?_, ?_⟩
    · simp_all [IllegalWord]
    · rw [operands, if_neg h2]
      exact hmk _ _
  case unaryNu mk =>
    refine decodesRightly_check (fun h18 => by simp [IllegalWord, hx, h18]) fun h18 =>
      decodesRightly_check (fun h14 => by simp [IllegalWord, hx, h2, h14]) fun h14 => ⟨?_, ?_⟩
    · simp_all [IllegalWord]
    · rw [operands, if_neg h2]
      exact hmk _ _ _
  case binary mk =>
    refine decodesRightly_check (fun h18 => by simp [IllegalWord, hx, h18]) fun h18 =>
      decodesRightly_check (fun h17 => by simp [IllegalWord, hn, h17]) fun h17 => ⟨?_, ?_⟩
    · simp_all [IllegalWord]
    · rw [operands, if_pos h2]
      exact hmk _ _ _
  case binaryNu mk =>
    refine decodesRightly_check (fun h18 => by simp [IllegalWord, hx, h18]) fun h18 => ⟨?_, ?_⟩
    · simp_all [IllegalWord]
    · rw [operands, if_pos h2]
      exact hmk _ _ _ _
  case convert mk =>
    refine decodesRightly_check (fun h14 => by simp [IllegalWord, hx, h14]) fun h14 => ?_
    rw [← ite_not]
    refine decodesRightly_check (fun hdesc => ?_) fun hdesc => ⟨?_, ?_⟩
    · exact .inr (.inr (.inr (.inr (.inr ⟨hx, by omega⟩))))
    · have hbounds : ¬(bits w 19 6 + 1 < bits w 25 7 ∨ c.w < bits w 19 6 + 1) := by omega
      simp_all [IllegalWord]
    · rw [operands, if_neg h2]
      exact hmk _ _ _ _

/-- R87, R88: the decoder on every word. -/
theorem decode_decodesRightly (c : Config) (w : CmdWord) : DecodesRightly c w (decode c w) := by
  have hbits : (fieldOp w).toNat = bits w 0 8 := extract_toNat w 0 8
  have h := shapeOf_cases (fieldOp w)
  rw [hbits] at h
  rcases h with ⟨hop, hsh⟩ | ⟨hop, sh, hsh, hrow⟩
  · rw [decode_of_no_shape hsh]
    exact .inl hop
  · rw [decode_of_shape hsh]
    exact decodeShape_decodesRightly c hop hrow

end Sys2Proof.Proofs
end

section
/-! PROOFS. The strict step (10_state.md R53, 60_exceptions.md R274, R279): the register it stops at is one that
the next step reads, as the word and the port alone say it, and that has not been written. -/

namespace Sys2Proof.Proofs

open Sys2Proof.Machine Sys2Proof.Safety Sys2Proof.Spec Sys2Proof.Laws

/-! ## The registers a command reads -/

/-- R32. -/
theorem wholeBits_iff (c : Config) (n : Nat) : WholeBits c n ↔ (n : Int) ≤ magnitudeBits c.toFormat := by
  unfold WholeBits magnitudeBits
  cases c.s <;> simp only <;> omega

/-- R210(b): the word's opcode and the command ask for the same format. -/
theorem formatHolds_iff {c : Config} {w : CmdWord} {i : Instr} (h : (opcodeOf i).toNat = bits w 0 8) :
    FormatHolds c w ↔ formatOk c.toFormat i = true := by
  unfold FormatHolds
  rw [← h]
  cases i <;> simp [opcodeOf, formatOk, sqrtFormat, logFormat, expFormat, exp10Format, acosFormat,
    wholeBits_iff, and_assoc]

/-- R274: the operands that a command reads, by the word alone and through the decoder. -/
theorem readsOperand_iff (c : Config) (w : CmdWord) (r : Reg) :
    (¬IllegalWord c w ∧ FormatHolds c w ∧ NamesOperand w r) ↔
      ∃ i, decode c w = .ok i ∧ formatOk c.toFormat i = true ∧ r ∈ reads i := by
  have h := decode_decodesRightly c w
  cases hd : decode c w with
  | error e =>
    rw [hd] at h
    have hillegal : IllegalWord c w := h
    simp [hillegal]
  | ok i =>
    rw [hd] at h
    obtain ⟨hlegal, hop, hreads⟩ := h
    simp [hlegal, formatHolds_iff hop, namesOperand_iff, hreads]

/-! ## The register the strict step stops at -/

theorem hostReg_eq_some_iff (idx : HostIndex) (r : Reg) : hostReg idx = some r ↔ idx = indexOf r := by
  revert idx
  cases r <;> decide

theorem uninitRead_of_runsNext {s : State} {w : CmdWord} (h : RunsNext s w) :
    uninitRead s = uninitOperand w s := by
  unfold uninitRead
  rcases h with ⟨hu, hp⟩ | ⟨hu, hp⟩
  · rw [hu]
    cases hq : s.port with
    | nil => rfl
    | cons op rest =>
      cases op with
      | reset => simp [hq] at hp
      | hostWrite | hostRead | issue => rfl
  · obtain ⟨rest, hq⟩ := List.head?_eq_some_iff.mp hp
    rw [hu, hq]

theorem uninitRead_of_reset {s : State} (hp : s.port.head? = some .reset) : uninitRead s = none := by
  obtain ⟨rest, hq⟩ := List.head?_eq_some_iff.mp hp
  unfold uninitRead
  rw [hq]
  cases s.unit <;> rfl

theorem uninitRead_of_hostRead {s : State} {r : Reg} (hu : ∀ w, s.unit ≠ .busy w)
    (hp : s.port.head? = some (.hostRead (indexOf r))) :
    uninitRead s = if s.written.get r then none else some r := by
  obtain ⟨rest, hq⟩ := List.head?_eq_some_iff.mp hp
  unfold uninitRead
  rw [hq]
  cases hs : s.unit with
  | busy w => exact absurd hs (hu w)
  | idle | halted => simp only [(hostReg_eq_some_iff _ r).mpr rfl]

/-- Only a command that runs, or a HostRead of an operand register, reads one. -/
theorem reader_of_uninitRead {s : State} {r : Reg} (h : uninitRead s = some r) :
    (∃ w, RunsNext s w) ∨
      ∃ q, (∀ w, s.unit ≠ .busy w) ∧ s.port.head? = some (.hostRead (indexOf q)) := by
  by_cases hreset : s.port.head? = some .reset
  · simp [uninitRead_of_reset hreset] at h
  by_cases hrun : ∃ w, RunsNext s w
  · exact .inl hrun
  cases hu : s.unit with
  | busy w => exact absurd ⟨w, .inl ⟨hu, hreset⟩⟩ hrun
  | idle | halted =>
    cases hq : s.port with
    | nil => simp [uninitRead, hu, hq] at h
    | cons op rest =>
      cases op with
      | reset => simp [hq] at hreset
      | hostWrite idx v => simp [uninitRead, hu, hq] at h
      | issue w => simp [uninitRead, RunsNext, hu, hq] at h hrun
      | hostRead idx =>
        cases hidx : hostReg idx with
        | none => simp [uninitRead, hu, hq, hidx] at h
        | some q => exact .inr ⟨q, nofun, by rw [← (hostReg_eq_some_iff idx q).mp hidx]; rfl⟩

theorem readsNext_of_uninitRead {s : State} {r : Reg} (h : uninitRead s = some r) :
    ReadsNext s r ∧ s.written.get r = false := by
  rcases reader_of_uninitRead h with ⟨w, hrun⟩ | ⟨q, hu, hp⟩
  · rw [uninitRead_of_runsNext hrun] at h
    obtain ⟨i, hd, hf, hr, hw⟩ := uninitOperand_some h
    exact ⟨.inl ⟨w, hrun, (readsOperand_iff _ w r).mpr ⟨i, hd, hf, hr⟩⟩, hw⟩
  · rw [uninitRead_of_hostRead hu hp] at h
    cases hw : s.written.get q <;> simp [hw] at h
    subst h
    exact ⟨.inr ⟨hu, hp⟩, hw⟩

theorem written_of_uninitRead_none {s : State} {r : Reg} (h : uninitRead s = none) (hr : ReadsNext s r) :
    s.written.get r = true := by
  rcases hr with ⟨w, hrun, hreads⟩ | ⟨hu, hp⟩
  · obtain ⟨i, hd, hf, hr⟩ := (readsOperand_iff _ w r).mp hreads
    rw [uninitRead_of_runsNext hrun] at h
    exact uninitOperand_none h hd hf r hr
  · rw [uninitRead_of_hostRead hu hp] at h
    simpa using h

/-- Settles O24: what the strict step stops at is what the word and the port alone say the next operation reads,
and every register so read is stopped at when it is unwritten. -/
theorem strictStepRefinesStep : Obligations.StrictStepRefinesStep := by
  intro s
  refine ⟨strictStep_refused, fun ha => ⟨fun hwritten => ?_, ?_, fun f hf => ?_⟩⟩
  · refine strictStep_of_none (Option.eq_none_iff_forall_ne_some.mpr fun r h => ?_)
    obtain ⟨hreads, hw⟩ := readsNext_of_uninitRead h
    simp [hwritten r hreads] at hw
  · rintro ⟨r, hreads, hw⟩
    cases h : uninitRead s with
    | none => simp [written_of_uninitRead_none h hreads] at hw
    | some q => exact ⟨q, strictStep_of_some ha h⟩
  · obtain ⟨r, h, rfl⟩ := strictStep_fault hf
    exact ⟨r, rfl, readsNext_of_uninitRead h⟩

/-- Settles O23: a command that would read the unwritten `r` stops at the first unwritten register it reads, and
a HostRead reads the one register it names. -/
theorem strictStepStopsAtUnwrittenOperands : Obligations.StrictStepStopsAtUnwrittenOperands := by
  constructor
  · intro s w rest i r ha hu hp hd hf hr hw
    have hrun : RunsNext s w := .inr ⟨hu, by rw [hp]; rfl⟩
    have hread := uninitRead_of_runsNext hrun
    cases ho : uninitOperand w s with
    | none => simp [uninitOperand_none ho hd hf r hr] at hw
    | some q =>
      obtain ⟨j, hj, -, hq, hqw⟩ := uninitOperand_some ho
      cases hd.symm.trans hj
      exact ⟨q, hq, hqw, strictStep_of_some ha (hread.trans ho)⟩
  · intro s rest r ha hu hp hw
    have hread := uninitRead_of_hostRead hu (r := r) (by rw [hp]; rfl)
    exact strictStep_of_some ha (by rw [hread, hw]; rfl)

end Sys2Proof.Proofs
end

section
/-! PROOFS. The host port (20_memory.md): what the indices outside X0 to X7 read and write, and the port held by
a BUSY unit. -/

namespace Sys2Proof.Proofs

open Sys2Proof.Machine Sys2Proof.Safety Sys2Proof.Spec Sys2Proof.Laws

/-! ## A command in execution -/

/-- R304, R70: a command in execution ends, in IDLE or in HALTED, and leaves the port and the reply alone. -/
theorem runCommand_ends {s : State} (h : Admitted s.cfg) (w : CmdWord) :
    ∃ t, runCommand w s = .next t ∧ (t.unit = .idle ∨ t.unit = .halted) ∧ t.port = s.port ∧
      t.reply = s.reply := by
  rcases runCommand_cases h w with ⟨i, ws, -, he⟩ | ⟨i, c, -, he⟩ | ⟨e, -, he⟩
  · exact ⟨_, he, .inl rfl, rfl, rfl⟩
  · exact ⟨_, he, .inr rfl, rfl, rfl⟩
  · exact ⟨_, he, .inr rfl, rfl, rfl⟩

/-- Settles O12: a BUSY unit runs its command, which ends, unless a reset stands first at the port. -/
theorem busyEndsAndHoldsThePort : Obligations.BusyEndsAndHoldsThePort := by
  intro s w ha hu
  constructor
  · intro hp
    rw [step_busy ha hu hp]
    exact runCommand_ends ha w
  · intro rest hp
    exact step_reset ha hp

/-! ## Host indices -/

/-- R51: the indices from 8 on name no operand register. -/
theorem hostReg_eq_none_iff (idx : HostIndex) : hostReg idx = none ↔ 8 ≤ idx.toNat := by
  simp [hostReg]

theorem hostReadWord_indexOf (s : State) (r : Reg) : hostReadWord s (indexOf r) = some (s.x.get r) := by
  simp only [hostReadWord, (hostReg_eq_some_iff _ r).mpr rfl]

theorem hostReadWord_err (s : State) : hostReadWord s 8 = some (errWord s.err) := rfl

theorem hostReadWord_fsr (s : State) : hostReadWord s 9 = some (fsrWord s.fsr) := rfl

theorem hostReadWord_cfg (s : State) : hostReadWord s 10 = some (cfgWord s.cfg) := rfl

/-- R64: a reserved index reads nothing. -/
theorem hostReadWord_reserved (s : State) {idx : HostIndex} (h : 11 ≤ idx.toNat) :
    hostReadWord s idx = none := by
  have h8 : idx ≠ 8 := by rintro rfl; exact absurd h (by decide)
  have h9 : idx ≠ 9 := by rintro rfl; exact absurd h (by decide)
  have h10 : idx ≠ 10 := by rintro rfl; exact absurd h (by decide)
  simp only [hostReadWord, (hostReg_eq_none_iff idx).mpr (by omega), h8, h9, h10, if_false]

/-- R64: a HostWrite to ERR, FSR or CFG does nothing. -/
theorem hostWrite_status {idx : HostIndex} (h8 : 8 ≤ idx.toNat) (h10 : idx.toNat ≤ 10) (v : Word) (s : State) :
    hostWrite idx v s = .next s := by
  simp only [hostWrite, (hostReg_eq_none_iff idx).mpr h8, h10, if_true]

/-- R64: a HostWrite of a reserved index is refused. -/
theorem hostWrite_reserved {idx : HostIndex} (h : 11 ≤ idx.toNat) (v : Word) (s : State) :
    hostWrite idx v s = .refused (.reservedHostIndex idx) := by
  simp only [hostWrite, (hostReg_eq_none_iff idx).mpr (by omega), show ¬idx.toNat ≤ 10 by omega, if_false]

/-! ## Host operations at the head of the port -/

section
variable {s : State} {idx : HostIndex} {rest : List HostOp} (ha : Admitted s.cfg)
  (hu : ∀ w, s.unit ≠ .busy w)
include ha hu

/-- R63: the HostRead at the head of the port is answered, and nothing of the unit changes. -/
theorem step_hostRead (hp : s.port = .hostRead idx :: rest) {v : Word} (hv : hostReadWord s idx = some v) :
    step s = .next { s with port := rest, reply := some v } := by
  have hv' : hostReadWord { s with port := rest } idx = some v := hv
  rw [step_hostOp ha hu hp, hostOp, hostRead, hv']

theorem step_hostRead_reserved (hp : s.port = .hostRead idx :: rest) (h : 11 ≤ idx.toNat) :
    step s = .refused (.reservedHostIndex idx) := by
  rw [step_hostOp ha hu hp, hostOp, hostRead, hostReadWord_reserved _ h]

theorem step_hostWrite_status {v : Word} (hp : s.port = .hostWrite idx v :: rest) (h8 : 8 ≤ idx.toNat)
    (h10 : idx.toNat ≤ 10) : step s = .next { s with port := rest } := by
  rw [step_hostOp ha hu hp, hostOp, hostWrite_status h8 h10]

theorem step_hostWrite_reserved {v : Word} (hp : s.port = .hostWrite idx v :: rest) (h : 11 ≤ idx.toNat) :
    step s = .refused (.reservedHostIndex idx) := by
  rw [step_hostOp ha hu hp, hostOp, hostWrite_reserved h]

end

/-- Settles O16: each clause is `step_hostRead` with the word that its index reads. -/
theorem hostReadReturnsTheRegister : Obligations.HostReadReturnsTheRegister := by
  intro s idx rest ha hu hp
  refine ⟨?_, ?_, ?_, ?_⟩
  · rintro r rfl
    exact step_hostRead ha hu hp (hostReadWord_indexOf s r)
  · rintro rfl
    exact step_hostRead ha hu hp (hostReadWord_err s)
  · rintro rfl
    exact step_hostRead ha hu hp (hostReadWord_fsr s)
  · rintro rfl
    exact step_hostRead ha hu hp (hostReadWord_cfg s)

/-- Settles O18: indices 8 to 10 name no operand register and are ignored; from 11 on they are refused. -/
theorem statusWritesAreIgnoredAndReservedIndicesRefused :
    Obligations.StatusWritesAreIgnoredAndReservedIndicesRefused := by
  intro s idx v rest ha hu
  constructor
  · intro hidx hp
    obtain ⟨h8, h10⟩ : 8 ≤ idx.toNat ∧ idx.toNat ≤ 10 := by
      rcases hidx with rfl | rfl | rfl <;> decide
    exact step_hostWrite_status ha hu hp h8 h10
  · rintro hidx (hp | hp)
    · exact step_hostWrite_reserved ha hu hp hidx
    · exact step_hostRead_reserved ha hu hp hidx

end Sys2Proof.Proofs
end

section
/-! PROOFS. The two layouts of a command word (30_encoding.md R82, R83): the place values of their fields, each
field read back from them, and each word put together again from its fields. -/

namespace Sys2Proof.Proofs

open Sys2Proof.Machine Sys2Proof.Safety Sys2Proof.Spec Sys2Proof.Laws

/-! ## Place values -/

/-- A field that ends within the command word stands in the same place of a 64-bit word. -/
theorem setWidth_or_field (w : CmdWord) {n j : Nat} (b : BitVec n) (hj : j + n ≤ 32) :
    (w ||| b.setWidth 32 <<< j).setWidth 64 = w.setWidth 64 ||| b.setWidth 64 <<< j := by
  ext i
  by_cases hi : i < 32
  · simp [hi]
  · simp [hi, show n ≤ i - j by omega, BitVec.getLsbD_of_ge]

/-- R82: a format R word as the sum of its fields. -/
theorem encodeR_toNat (op : BitVec 8) (rd rs1 : Reg) (rs2 : BitVec 3) (nu : Bool) :
    (encodeR op rd rs1 rs2 nu).toNat = op.toNat + rd.bits.toNat * 2 ^ 8 + rs1.bits.toNat * 2 ^ 11 +
      rs2.toNat * 2 ^ 14 + nu.toNat * 2 ^ 17 := by
  rw [← BitVec.toNat_setWidth_of_le (show 32 ≤ 64 by decide), encodeR]
  iterate 4 rw [setWidth_or_field _ _ (by decide)]
  rw [BitVec.setWidth_setWidth (by decide)]
  exact (fits_setWidth).or_field.or_field.or_field.or_flag.1

/-- R83: a format X word as the sum of its fields. -/
theorem encodeX_toNat (op : BitVec 8) (rd rs1 : Reg) (d : Desc) (nu : Bool) :
    (encodeX op rd rs1 d nu).toNat = op.toNat + rd.bits.toNat * 2 ^ 8 + rs1.bits.toNat * 2 ^ 11 +
      nu.toNat * 2 ^ 17 + d.s.bit.toNat * 2 ^ 18 + (BitVec.ofNat 6 (d.t - 1)).toNat * 2 ^ 19 +
      (BitVec.ofNat 7 d.f).toNat * 2 ^ 25 := by
  rw [← BitVec.toNat_setWidth_of_le (show 32 ≤ 64 by decide), encodeX]
  iterate 6 rw [setWidth_or_field _ _ (by decide)]
  rw [BitVec.setWidth_setWidth (by decide)]
  exact (fits_setWidth).or_field.or_field.or_flag.or_field.or_field.or_field.1

theorem indexOf_toNat (r : Reg) : (indexOf r).toNat = r.bits.toNat := by
  cases r <;> rfl

theorem flag_toNat (b : Bool) (n : Nat) : b.toNat * n = if b then n else 0 := by
  cases b <;> simp

/-- R82: the layout of format R is the statement's. -/
theorem encodeR_toNat_eq_wordR (op : BitVec 8) (rd rs1 : Reg) (rs2 : BitVec 3) (nu : Bool) :
    (encodeR op rd rs1 rs2 nu).toNat = wordR op.toNat rd rs1 rs2.toNat nu := by
  rw [encodeR_toNat, wordR, indexOf_toNat, indexOf_toNat, flag_toNat]

/-- R83: the layout of format X is the statement's, where xtm1 and xf have room. -/
theorem encodeX_toNat_eq_wordX (op : BitVec 8) (rd rs1 : Reg) {d : Desc} (nu : Bool) (ht : d.t ≤ 64)
    (hf : d.f ≤ 127) : (encodeX op rd rs1 d nu).toNat = wordX op.toNat rd rs1 d nu := by
  rw [encodeX_toNat, wordX, indexOf_toNat, indexOf_toNat, flag_toNat, sign_bit_toNat, BitVec.toNat_ofNat,
    BitVec.toNat_ofNat, Nat.mod_eq_of_lt (by omega), Nat.mod_eq_of_lt (by omega), ite_mul, one_mul, zero_mul]

theorem wellFormed_bounds {c : Config} {d : Desc} (h : d.wellFormed c = true) :
    1 ≤ d.t ∧ d.t ≤ 64 ∧ d.f ≤ d.t ∧ d.t ≤ c.w := by
  simpa [Desc.wellFormed, and_assoc] using h

/-- Settles O4: each command's word is one of the two layouts, which are sums of place values. -/
theorem fieldsStandAsTheFormatsSay : Obligations.FieldsStandAsTheFormatsSay := by
  refine ⟨fun c i hwf => ?_, encodeR_toNat_eq_wordR, fun op rd rs1 d nu _ ht hf =>
    encodeX_toNat_eq_wordX op rd rs1 nu ht hf⟩
  cases i with
  | fxcvtin rd rs1 d nu | fxcvtout rd rs1 d nu =>
    obtain ⟨-, ht, hf, -⟩ := wellFormed_bounds hwf
    exact encodeX_toNat_eq_wordX _ rd rs1 nu ht (by omega)
  | fxidiv rd rs1 rs2 | fxdivi rd rs1 rs2 | fxeq rd rs1 rs2 | fxne rd rs1 rs2 | fxlt rd rs1 rs2
  | fxle rd rs1 rs2 | fxadd rd rs1 rs2 | fxsub rd rs1 rs2 | fxmul rd rs1 rs2 | fxdiv rd rs1 rs2
  | fxpow rd rs1 rs2 =>
    simp only [wordOf, indexOf_toNat rs2]
    exact encodeR_toNat_eq_wordR _ rd rs1 rs2.bits _
  | _ => exact encodeR_toNat_eq_wordR _ _ _ 0 _

/-! ## Fields read back -/

theorem extract_eq_of_toNat {w : CmdWord} {lo n : Nat} {b : BitVec n} (h : w.toNat / 2 ^ lo % 2 ^ n = b.toNat) :
    w.extractLsb' lo n = b :=
  BitVec.eq_of_toNat_eq ((extract_toNat w lo n).trans h)

section
variable (op : BitVec 8) (rd rs1 : Reg) (rs2 : BitVec 3) (nu : Bool)

@[simp] theorem fieldRd_encodeR : fieldRd (encodeR op rd rs1 rs2 nu) = rd := by
  rw [fieldRd, extract_eq_of_toNat (b := rd.bits) (by rw [encodeR_toNat]; omega), reg_ofBits_bits]

@[simp] theorem fieldRs1_encodeR : fieldRs1 (encodeR op rd rs1 rs2 nu) = rs1 := by
  rw [fieldRs1, extract_eq_of_toNat (b := rs1.bits) (by rw [encodeR_toNat]; omega), reg_ofBits_bits]

@[simp] theorem fieldRs2Bits_encodeR : fieldRs2Bits (encodeR op rd rs1 rs2 nu) = rs2 :=
  extract_eq_of_toNat (by rw [encodeR_toNat]; omega)

@[simp] theorem fieldNu_encodeR : fieldNu (encodeR op rd rs1 rs2 nu) = nu := by
  rw [fieldNu_eq, encodeR_toNat]
  cases nu <;> simp <;> omega

@[simp] theorem fieldReservedR_encodeR : fieldReservedR (encodeR op rd rs1 rs2 nu) = 0 :=
  extract_eq_of_toNat (by rw [encodeR_toNat]; have := nu.toNat_lt; simp; omega)

variable (d : Desc)

@[simp] theorem fieldRd_encodeX : fieldRd (encodeX op rd rs1 d nu) = rd := by
  rw [fieldRd, extract_eq_of_toNat (b := rd.bits) (by rw [encodeX_toNat]; omega), reg_ofBits_bits]

@[simp] theorem fieldRs1_encodeX : fieldRs1 (encodeX op rd rs1 d nu) = rs1 := by
  rw [fieldRs1, extract_eq_of_toNat (b := rs1.bits) (by rw [encodeX_toNat]; omega), reg_ofBits_bits]

@[simp] theorem fieldRs2Bits_encodeX : fieldRs2Bits (encodeX op rd rs1 d nu) = 0 :=
  extract_eq_of_toNat (by rw [encodeX_toNat]; simp; omega)

@[simp] theorem fieldNu_encodeX : fieldNu (encodeX op rd rs1 d nu) = nu := by
  rw [fieldNu_eq, encodeX_toNat]
  cases nu <;> simp <;> omega

/-- R83, R85: the descriptor comes back where xtm1 and xf have room for it. -/
theorem fieldDesc_encodeX {d : Desc} (h1 : 1 ≤ d.t) (ht : d.t ≤ 64) (hf : d.f ≤ 127) :
    fieldDesc (encodeX op rd rs1 d nu) = d := by
  have hxtm1 : (encodeX op rd rs1 d nu).extractLsb' 19 6 = BitVec.ofNat 6 (d.t - 1) :=
    extract_eq_of_toNat (by rw [encodeX_toNat]; have := nu.toNat_lt; omega)
  have hxf : (encodeX op rd rs1 d nu).extractLsb' 25 7 = BitVec.ofNat 7 d.f :=
    extract_eq_of_toNat (by rw [encodeX_toNat]; have := nu.toNat_lt; omega)
  have hxs : (encodeX op rd rs1 d nu).extractLsb' 18 1 = d.s.bit :=
    extract_eq_of_toNat (by rw [encodeX_toNat]; have := nu.toNat_lt; omega)
  rw [fieldDesc, hxtm1, hxf, hxs, sign_ofBit_bit, BitVec.toNat_ofNat, BitVec.toNat_ofNat,
    Nat.mod_eq_of_lt (by omega), Nat.mod_eq_of_lt (by omega), Nat.sub_add_cancel h1]
end

/-! ## A word put together from its fields -/

theorem bits_fieldRd (w : CmdWord) : (fieldRd w).bits.toNat = w.toNat / 2 ^ 8 % 2 ^ 3 := by
  rw [fieldRd, reg_bits_ofBits, extract_toNat]

theorem bits_fieldRs1 (w : CmdWord) : (fieldRs1 w).bits.toNat = w.toNat / 2 ^ 11 % 2 ^ 3 := by
  rw [fieldRs1, reg_bits_ofBits, extract_toNat]

theorem toNat_fieldNu (w : CmdWord) : (fieldNu w).toNat = w.toNat / 2 ^ 17 % 2 := by
  rw [fieldNu_eq]
  rcases Nat.mod_two_eq_zero_or_one (w.toNat / 2 ^ 17) with h | h <;> rw [h] <;> rfl

/-- R82: a word with no reserved bit set is its fields. -/
theorem encodeR_fields {w : CmdWord} (h : fieldReservedR w = 0) :
    encodeR (fieldOp w) (fieldRd w) (fieldRs1 w) (fieldRs2Bits w) (fieldNu w) = w := by
  have h18 : w.toNat / 2 ^ 18 % 2 ^ 14 = 0 := by
    rw [← extract_toNat, show w.extractLsb' 18 14 = 0 from h]
    rfl
  apply BitVec.eq_of_toNat_eq
  rw [encodeR_toNat, bits_fieldRd, bits_fieldRs1, toNat_fieldNu, fieldOp, fieldRs2Bits, extract_toNat,
    extract_toNat]
  omega

/-- R83: so is a word of format X with bits [16:14] clear. -/
theorem encodeX_fields {w : CmdWord} (h : fieldRs2Bits w = 0) :
    encodeX (fieldOp w) (fieldRd w) (fieldRs1 w) (fieldDesc w) (fieldNu w) = w := by
  have h14 : w.toNat / 2 ^ 14 % 2 ^ 3 = 0 := by
    rw [← extract_toNat, show w.extractLsb' 14 3 = 0 from h]
    rfl
  apply BitVec.eq_of_toNat_eq
  rw [encodeX_toNat, bits_fieldRd, bits_fieldRs1, toNat_fieldNu, fieldOp, extract_toNat]
  simp only [fieldDesc, sign_bit_ofBit, Nat.add_sub_cancel, BitVec.toNat_ofNat, extract_toNat, Nat.mod_mod]
  omega

end Sys2Proof.Proofs
end

section
/-! PROOFS. The decoder and the encoder are inverse to each other, and the illegal words are R87's
(30_encoding.md). -/

namespace Sys2Proof.Proofs

open Sys2Proof.Machine Sys2Proof.Safety Sys2Proof.Spec Sys2Proof.Laws

/-! ## Decoding an encoded command -/

section
variable (c : Config) {op : BitVec 8} (rd rs1 rs2 : Reg) (nu : Bool)

theorem decode_encodeR {sh : Shape} (h : shapeOf op = some sh) (b : BitVec 3) :
    decode c (encodeR op rd rs1 b nu) = decodeShape c (encodeR op rd rs1 b nu) sh :=
  decode_of_shape (by rwa [fieldOp_encodeR])

theorem decode_unary {mk : Reg → Reg → Instr} (h : shapeOf op = some (.unary mk)) :
    decode c (encodeR op rd rs1 0 false) = .ok (mk rd rs1) := by
  simp [decode_encodeR c _ _ _ h, decodeShape]

theorem decode_unaryNu {mk : Reg → Reg → Bool → Instr} (h : shapeOf op = some (.unaryNu mk)) :
    decode c (encodeR op rd rs1 0 nu) = .ok (mk rd rs1 nu) := by
  simp [decode_encodeR c _ _ _ h, decodeShape]

theorem decode_binary {mk : Reg → Reg → Reg → Instr} (h : shapeOf op = some (.binary mk)) :
    decode c (encodeR op rd rs1 rs2.bits false) = .ok (mk rd rs1 rs2) := by
  simp [decode_encodeR c _ _ _ h, decodeShape, fieldRs2]

theorem decode_binaryNu {mk : Reg → Reg → Reg → Bool → Instr} (h : shapeOf op = some (.binaryNu mk)) :
    decode c (encodeR op rd rs1 rs2.bits nu) = .ok (mk rd rs1 rs2 nu) := by
  simp [decode_encodeR c _ _ _ h, decodeShape, fieldRs2]

/-- R84: the decoder's check of a descriptor is what makes it well formed. -/
theorem decode_convert {mk : Reg → Reg → Desc → Bool → Instr} (h : shapeOf op = some (.convert mk)) {d : Desc}
    (hwf : d.wellFormed c = true) : decode c (encodeX op rd rs1 d nu) = .ok (mk rd rs1 d nu) := by
  obtain ⟨h1, ht, hf, hw⟩ := wellFormed_bounds hwf
  rw [decode_of_shape (by rwa [fieldOp_encodeX])]
  simp [decodeShape, fieldDesc_encodeX op rd rs1 nu h1 ht (by omega), descLegal, h1, hf, hw]

end

/-- Settles O1: one lemma for each way a row of R86 uses the fields. -/
theorem decodeOfEncodeIsTheCommand : Obligations.DecodeOfEncodeIsTheCommand := by
  intro c i hwf
  cases i with
  | fxfromf => exact decode_unaryNu c _ _ _ rfl
  | fxidiv | fxdivi => exact decode_binaryNu c _ _ _ _ rfl
  | fxcvtin | fxcvtout => exact decode_convert c _ _ _ rfl hwf
  | fxeq | fxne | fxlt | fxle | fxadd | fxsub | fxmul | fxdiv | fxpow => exact decode_binary c _ _ _ rfl
  | _ => exact decode_unary c _ _ rfl

/-! ## Encoding a decoded word -/

/-- The commands that a shape builds are those of opcode `op`: each has its fields in the shape's layout, and is
well formed but for a descriptor. -/
def EncodesAs (op : BitVec 8) : Shape → Prop
  | .unary mk => ∀ d a, encode (mk d a) = encodeR op d a 0 false ∧ ∀ c, (mk d a).wellFormed c = true
  | .unaryNu mk => ∀ d a nu, encode (mk d a nu) = encodeR op d a 0 nu ∧ ∀ c, (mk d a nu).wellFormed c = true
  | .binary mk => ∀ d a b, encode (mk d a b) = encodeR op d a b.bits false ∧ ∀ c, (mk d a b).wellFormed c = true
  | .binaryNu mk => ∀ d a b nu, encode (mk d a b nu) = encodeR op d a b.bits nu ∧
      ∀ c, (mk d a b nu).wellFormed c = true
  | .convert mk => ∀ d a fm nu, encode (mk d a fm nu) = encodeX op d a fm nu ∧
      ∀ c, (mk d a fm nu).wellFormed c = fm.wellFormed c

/-- R86: each row of the opcode map encodes back to its own number. -/
theorem encodesAs_of_shapeOf {op : BitVec 8} {sh : Shape} (h : shapeOf op = some sh) : EncodesAs op sh := by
  have hop : op = BitVec.ofNat 8 op.toNat := by simp
  unfold shapeOf at h
  split at h <;> cases h
  all_goals
    next hn =>
    rw [hop, hn, EncodesAs]
    intros
    exact ⟨rfl, fun _ => rfl⟩

/-- R83, R84: a descriptor that the decoder accepts is well formed; T' = xtm1 + 1 is at most 64. -/
theorem wellFormed_fieldDesc {c : Config} {w : CmdWord} (h : descLegal c (fieldDesc w) = true) :
    (fieldDesc w).wellFormed c = true := by
  have ht : (fieldDesc w).t ≤ 64 := by
    have := (w.extractLsb' 19 6).isLt
    simp only [fieldDesc]
    omega
  simp_all [descLegal, Desc.wellFormed]

/-- A check of the decoder that rejects. -/
theorem reject_eq_ok_iff {p : Prop} [Decidable p] {e : DecodeError} {later : Except DecodeError Instr} {i : Instr} :
    (if p then .error e else later) = .ok i ↔ ¬p ∧ later = .ok i := by
  split <;> simp [*]

/-- A check of the decoder that accepts. -/
theorem accept_eq_ok_iff {p : Prop} [Decidable p] {e : DecodeError} {later : Except DecodeError Instr} {i : Instr} :
    (if p then later else .error e) = .ok i ↔ p ∧ later = .ok i := by
  split <;> simp [*]

/-- R88: what is left of a word after the checks of its shape is the command's own encoding. -/
theorem encode_of_decodeShape {c : Config} {w : CmdWord} {i : Instr} {sh : Shape}
    (h : EncodesAs (fieldOp w) sh) (hd : decodeShape c w sh = .ok i) : encode i = w ∧ i.wellFormed c = true := by
  cases sh <;> simp only [decodeShape, reject_eq_ok_iff, accept_eq_ok_iff, ne_eq, not_not, Bool.not_eq_true,
    Except.ok.injEq] at hd
  case unary mk =>
    obtain ⟨hres, hrs2, hnu, rfl⟩ := hd
    obtain ⟨he, hwf⟩ := h (fieldRd w) (fieldRs1 w)
    exact ⟨by rw [he, ← hrs2, ← hnu, encodeR_fields hres], hwf c⟩
  case unaryNu mk =>
    obtain ⟨hres, hrs2, rfl⟩ := hd
    obtain ⟨he, hwf⟩ := h (fieldRd w) (fieldRs1 w) (fieldNu w)
    exact ⟨by rw [he, ← hrs2, encodeR_fields hres], hwf c⟩
  case binary mk =>
    obtain ⟨hres, hnu, rfl⟩ := hd
    obtain ⟨he, hwf⟩ := h (fieldRd w) (fieldRs1 w) (fieldRs2 w)
    exact ⟨by rw [he, fieldRs2, reg_bits_ofBits, ← hnu, encodeR_fields hres], hwf c⟩
  case binaryNu mk =>
    obtain ⟨hres, rfl⟩ := hd
    obtain ⟨he, hwf⟩ := h (fieldRd w) (fieldRs1 w) (fieldRs2 w) (fieldNu w)
    exact ⟨by rw [he, fieldRs2, reg_bits_ofBits, encodeR_fields hres], hwf c⟩
  case convert mk =>
    obtain ⟨hres, hdesc, rfl⟩ := hd
    obtain ⟨he, hwf⟩ := h (fieldRd w) (fieldRs1 w) (fieldDesc w) (fieldNu w)
    exact ⟨by rw [he, encodeX_fields hres], by rw [hwf c, wellFormed_fieldDesc hdesc]⟩

/-- Settles O2: the decoder's checks leave no bit of the word that the encoding does not set. -/
theorem decodedWordIsTheEncoding : Obligations.DecodedWordIsTheEncoding := by
  intro c w i hd
  cases hsh : shapeOf (fieldOp w) with
  | none => simp [decode_of_no_shape hsh] at hd
  | some sh =>
    rw [decode_of_shape hsh] at hd
    exact encode_of_decodeShape (encodesAs_of_shapeOf hsh) hd

/-! ## Illegal words -/

/-- R87: the decoder rejects exactly the illegal words. -/
theorem decode_error_iff (c : Config) (w : CmdWord) : (∃ e, decode c w = .error e) ↔ IllegalWord c w := by
  have h := decode_decodesRightly c w
  cases hd : decode c w with
  | error e =>
    rw [hd] at h
    exact ⟨fun _ => h, fun _ => ⟨e, rfl⟩⟩
  | ok i =>
    rw [hd] at h
    obtain ⟨hlegal, -⟩ := h
    exact ⟨nofun, fun hw => absurd hw hlegal⟩

/-- Settles O3: the all-zero word has an `op` that R86 does not list. -/
theorem illegalWordsAreThoseListed : Obligations.IllegalWordsAreThoseListed :=
  fun c => ⟨decode_error_iff c, .inl (by decide)⟩

/-- Settles O5, by running the decoder and the assembler on R90's words and the vectors'. -/
theorem specWordsDecode : Obligations.SpecWordsDecode := by
  unfold Obligations.SpecWordsDecode
  decide

/-! ## An issued word -/

section
variable {s : State} {w : CmdWord} {rest : List HostOp} (ha : Admitted s.cfg) (hp : s.port = .issue w :: rest)
include ha hp

/-- R304, R70: an IDLE unit runs the word it is issued. -/
theorem step_issue_idle (hu : s.unit = .idle) :
    step s = runCommand w { s with port := rest, unit := .busy w } := by
  rw [step_hostOp ha (by simp [hu]) hp, hostOp, issue, hu]

/-- R273: a HALTED unit discards it. -/
theorem step_issue_halted (hu : s.unit = .halted) : step s = .next { s with port := rest } := by
  rw [step_hostOp ha (by simp [hu]) hp, hostOp, issue, hu]

end

/-- R87: running an illegal word is fault entry, and nothing else. -/
theorem runCommand_illegal {s : State} {w : CmdWord} (h : IllegalWord s.cfg w) :
    runCommand w s = .next (takeFault .illegalOp w s) := by
  obtain ⟨e, he⟩ := (decode_error_iff s.cfg w).mpr h
  rw [runCommand, he]

/-- Settles O7: an issued word runs, and an illegal one only enters the fault. -/
theorem illegalWordFaults : Obligations.IllegalWordFaults := by
  intro s w rest ha hu hp hw
  rw [step_issue_idle ha hp hu, runCommand_illegal (s := { s with port := rest, unit := .busy w }) hw]
  rfl

end Sys2Proof.Proofs
end

section
/-! PROOFS. The semantic functions on raw values as the statements' mathematics (10_state.md R37 to R39,
40_representation.md R112, 41_overflow_engine.md R165, 42_arithmetic.md R180, R181). -/

namespace Sys2Proof.Proofs

open Sys2Proof.Machine Sys2Proof.Safety Sys2Proof.Spec Sys2Proof.Laws

/-! ## Operands and readings -/

theorem opnd_eq_raw {s : State} (h : Admitted s.cfg) (r : Reg) : opnd s r = raw s r :=
  opnd_eq_mod h r

theorem raw_lt (s : State) (r : Reg) : raw s r < 2 ^ s.cfg.t :=
  Nat.mod_lt _ (by positivity)

theorem twos_eq_sext {n v : Nat} (h : v < 2 ^ n) : twos n v = sext n v :=
  (sext_of_lt h).symm

section
variable {c : Config} {a b : Nat}

theorem tv_eq_tval (ha : a < 2 ^ c.t) : tv c a = tval c.toFormat a := by
  unfold tv tval
  cases c.s with
  | unsigned => rfl
  | signed => exact twos_eq_sext ha

variable (h : Admitted c)
include h

theorem iv_eq_uval (ha : a < 2 ^ c.t) : iv c a = uval c a := by
  rw [iv, reading, uval, ival_eq (admitted_t_le_w h) ha, twos_eq_sext ha]

/-! ## Reduction -/

theorem reduce_eq_red (v : Int) : reduce c.toFormat v = red c v := by
  rw [red, ← reduce_eq_emod (admitted_t_le_w h) v, Int.toNat_natCast]

theorem red_lt (v : Int) : red c v < 2 ^ c.t :=
  reduce_eq_red h v ▸ reduce_lt _ v

/-- R35: a reduced value is written zero-extended. -/
theorem ofNat_red (v : Int) : BitVec.ofNat 64 (red c v) = asWord c v := by
  rw [asWord, ← reduce_eq_emod (admitted_t_le_w h) v, reduce_eq_red h, BitVec.ofInt_natCast]

theorem asWord_toNat (v : Int) : (asWord c v).toNat = red c v := by
  rw [← ofNat_red h, toNat_ofNat_raw h (red_lt h v)]

/-! ## Arithmetic -/

/-- R165: the sum is the statement's under both policies. -/
theorem add_eq_addq (ha : a < 2 ^ c.t) (hb : b < 2 ^ c.t) : add c a b = addq c a b := by
  obtain ⟨-, -, -, -, hpolicy, -⟩ := admitted_spec h
  unfold addq
  cases hp : c.policy with
  | invalid => exact absurd hp hpolicy
  | wrap => rw [add_wrap h hp ha hb, reduce_eq_red h, ← tv_eq_tval ha, ← tv_eq_tval hb]
  | sat =>
    cases hs : c.s with
    | unsigned => exact add_sat_unsigned h hp hs a b
    | signed =>
      rw [add_sat_signed h hp hs ha hb, reduce_eq_red h]
      simp only [tv, hs, if_true, twos_eq_sext ha, twos_eq_sext hb]

/-- R161: the difference of the raw values and that of the numeric values reduce alike. -/
theorem sub_eq_red (ha : a < 2 ^ c.t) (hb : b < 2 ^ c.t) : sub c a b = red c (tv c a - tv c b) := by
  rw [sub, ← reduce_eq_red h, tv_eq_tval ha, tv_eq_tval hb]
  refine reduce_eq_of_dvd (admitted_t_le_w h) ?_
  exact dvd_trans_eq (dvd_sub (dvd_tval_sub (fm := c.toFormat) hb) (dvd_tval_sub (fm := c.toFormat) ha))
    (by ring)

theorem mul_eq_mulq (ha : a < 2 ^ c.t) (hb : b < 2 ^ c.t) : mul c a b = mulq c a b := by
  rw [mul, mulq, shiftRight, reduce_eq_red h, iv_eq_uval h ha, iv_eq_uval h hb]

theorem div_zero (a : Nat) : div c a 0 = .error .divZero := by
  rw [div, if_pos ((uval_eq_zero_iff h (by positivity)).mpr rfl)]

theorem div_eq_divq (ha : a < 2 ^ c.t) (hb : b < 2 ^ c.t) (h0 : b ≠ 0) : div c a b = .ok (divq c a b) := by
  rw [div, if_neg (mt (uval_eq_zero_iff h hb).mp h0), truncDiv, reduce_eq_red h, divq, iv_eq_uval h ha,
    iv_eq_uval h hb]

end

/-! ## Binary64 -/

theorem truncQ_neg (p : Rat) : truncQ (-p) = -truncQ p := by
  unfold truncQ
  rcases lt_trichotomy p 0 with hp | rfl | hp
  · rw [if_pos (by linarith), if_neg (by linarith), Int.floor_neg]
  · simp
  · rw [if_neg (by linarith), if_pos hp.le, Int.ceil_neg]

/-- R112: a natural number times a power of two, truncated: exact where the power is whole. -/
theorem truncQ_natCast_mul_zpow (n : Nat) (e : Int) :
    truncQ (n * 2 ^ e) = (if 0 ≤ e then n * 2 ^ e.toNat else n / 2 ^ (-e).toNat : Nat) := by
  rw [truncQ, if_pos (by positivity)]
  split
  · next he =>
    lift e to Nat using he
    rw [zpow_natCast, Int.toNat_natCast]
    exact_mod_cast Int.floor_natCast (n * 2 ^ e)
  · next he =>
    obtain ⟨k, rfl⟩ : ∃ k : Nat, e = -k := ⟨(-e).toNat, by omega⟩
    rw [zpow_neg, zpow_natCast, neg_neg, Int.toNat_natCast, ← div_eq_mul_inv]
    exact_mod_cast Rat.floor_natCast_div_natCast n (2 ^ k)

/-- R15: the value of a pattern, from the model's reading of its fields. -/
theorem floatVal_eq (d : Word) :
    floatVal d = (if floatSign d then -1 else 1) * (floatSignificand d * 2 ^ floatScale d) := by
  have hsign : floatSign d = true ↔ d.toNat / 2 ^ 63 = 1 := by
    rw [floatSign, ← BitVec.testBit_toNat, Nat.testBit_eq_decide_div_mod_eq, decide_eq_true_iff]
    omega
  have hexp : floatExponent d = d.toNat / 2 ^ 52 % 2048 := by
    rw [floatExponent, BitVec.extractLsb'_toNat, Nat.shiftRight_eq_div_pow]
  have hfrac : floatFraction d = d.toNat % 2 ^ 52 := by
    rw [floatFraction, BitVec.extractLsb'_toNat, Nat.shiftRight_zero]
  rw [floatVal, floatSignificand, floatScale, hexp, hfrac, mul_assoc]
  simp only [hsign]

/-- R112: the model's integer truncation is the statement's rational one. -/
theorem truncScaled_eq_truncQ (d : Word) (f : Nat) : truncScaled d f = truncQ (floatVal d * 2 ^ f) := by
  have hscale : (floatSignificand d : Rat) * 2 ^ floatScale d * 2 ^ f =
      floatSignificand d * 2 ^ (floatScale d + f) := by
    rw [zpow_add₀ (by norm_num), zpow_natCast, mul_assoc]
  rw [floatVal_eq, mul_assoc, hscale, truncScaled, ← truncQ_natCast_mul_zpow]
  cases floatSign d with
  | false => simp
  | true => simp [truncQ_neg]

theorem inBackingRange_iff (c : Config) (t : Int) : inBackingRange c.toFormat t = true ↔ InBacking c t := by
  unfold inBackingRange InBacking
  cases c.s <;> simp

section
variable {c : Config} {d : Word}

/-- R112 without nu: a scalar in range is truncated and reduced. -/
theorem fromFloat_ok (h : Admitted c) (hd : ¬NotFinite d) (hr : InBacking c (truncQ (floatVal d * 2 ^ c.f))) :
    fromFloat c d false = .ok (red c (truncQ (floatVal d * 2 ^ c.f))) := by
  rw [fromFloat, (isFinite_iff d).mpr hd, truncScaled_eq_truncQ, (inBackingRange_iff c _).mpr hr, nuFix_false,
    reduce_eq_red h]
  rfl

/-- R112: any other scalar raises FP_RANGE. -/
theorem fromFloat_error (nu : Bool) (hd : NotFinite d ∨ ¬InBacking c (truncQ (floatVal d * 2 ^ c.f))) :
    fromFloat c d nu = .error .fpRange := by
  rw [← not_not (a := NotFinite d), ← isFinite_iff, ← inBackingRange_iff, ← truncScaled_eq_truncQ] at hd
  unfold fromFloat
  rcases hd with hd | hd <;> simp [hd]

end

end Sys2Proof.Proofs
end

section
/-! PROOFS. The pseudo-instructions (30_encoding.md R91, R92) as the commands of their expansions, issued one
after the other. -/

namespace Sys2Proof.Proofs

open Sys2Proof.Machine Sys2Proof.Safety Sys2Proof.Spec Sys2Proof.Laws

/-! ## Runs -/

theorem run_one {s t : State} (h : step s = .next t) : Sys2Proof.core.run 1 s = .next t := by
  have hstep : Sys2Proof.core.step s = .next t := h
  simp only [Host.Core.run, hstep]

theorem run_two {s t u : State} (h : step s = .next t) (h' : step t = .next u) :
    Sys2Proof.core.run 2 s = .next u := by
  have hstep : Sys2Proof.core.step s = .next t := h
  simp only [Host.Core.run, hstep]
  exact run_one h'

/-- The unit in execution of the command `i`, with the operations `ops` waiting. -/
def running (s : State) (i : Instr) (ops : List HostOp) : State :=
  { s with port := ops, unit := .busy (encode i) }

theorem admitted_running {s : State} (h : Admitted s.cfg) (i : Instr) (ops : List HostOp) :
    Admitted (running s i ops).cfg := h

@[simp] theorem running_cfg (s : State) (i : Instr) (ops : List HostOp) : (running s i ops).cfg = s.cfg := rfl

@[simp] theorem raw_running (s : State) (i : Instr) (ops : List HostOp) (r : Reg) :
    raw (running s i ops) r = raw s r := rfl

/-- R304: an IDLE unit executes the command whose word it is issued. -/
theorem step_issue_encode {s : State} (ha : Admitted s.cfg) (hu : s.unit = .idle) {i : Instr}
    {rest : List HostOp} (hp : s.port = .issue (encode i) :: rest) (hwf : i.wellFormed s.cfg = true) :
    step s = exec i (running s i rest) := by
  rw [step_issue_idle ha hp hu, runCommand, decodeOfEncodeIsTheCommand s.cfg i hwf]
  rfl

/-! ## The commands of the expansions -/

section
variable {s : State} (h : Admitted s.cfg)
include h

theorem exec_fxraw (rd a : Reg) : exec (.fxraw rd a) s = .next (commit (wr rd (raw s a)) s) := by
  rw [exec, execFxraw, conclude_ok h, opnd_eq_raw h]

theorem exec_fxfromi (rd a : Reg) :
    exec (.fxfromi rd a) s = .next (commit (wr rd (red s.cfg ((s.x.get a).toInt * 2 ^ s.cfg.f))) s) := by
  rw [exec, execFxfromi, conclude_ok h, fromInt, reduce_eq_red h, intOpnd]

theorem exec_fxlt (rd a b : Reg) :
    exec (.fxlt rd a b) s = .next (commit (wrBool rd (iv s.cfg (raw s a) < iv s.cfg (raw s b))) s) := by
  rw [exec, execFxlt, conclude_ok h, opnd_eq_raw h, opnd_eq_raw h, iv_eq_uval h (raw_lt s a),
    iv_eq_uval h (raw_lt s b)]

theorem exec_fxle (rd a b : Reg) :
    exec (.fxle rd a b) s = .next (commit (wrBool rd (iv s.cfg (raw s a) ≤ iv s.cfg (raw s b))) s) := by
  rw [exec, execFxle, conclude_ok h, opnd_eq_raw h, opnd_eq_raw h, iv_eq_uval h (raw_lt s a),
    iv_eq_uval h (raw_lt s b)]

theorem exec_fxfromf_ok {rd a : Reg} (hd : ¬NotFinite (s.x.get a))
    (hr : InBacking s.cfg (truncQ (floatVal (s.x.get a) * 2 ^ s.cfg.f))) :
    exec (.fxfromf rd a false) s =
      .next (commit (wr rd (red s.cfg (truncQ (floatVal (s.x.get a) * 2 ^ s.cfg.f)))) s) := by
  rw [exec, execFxfromf, floatOpnd, fromFloat_ok h hd hr, Except.map, conclude_ok h]

theorem exec_fxfromf_error {rd a : Reg} (nu : Bool)
    (hd : NotFinite (s.x.get a) ∨ ¬InBacking s.cfg (truncQ (floatVal (s.x.get a) * 2 ^ s.cfg.f))) :
    exec (.fxfromf rd a nu) s = .next (takeFault .fpRange (encode (.fxfromf rd a nu)) s) := by
  rw [exec, execFxfromf, floatOpnd, fromFloat_error nu hd, Except.map, conclude_error h]

theorem exec_fxadd (rd a b : Reg) :
    exec (.fxadd rd a b) s = .next (commit (wr rd (addq s.cfg (raw s a) (raw s b))) s) := by
  rw [exec, execFxadd, conclude_ok h, opnd_eq_raw h, opnd_eq_raw h, add_eq_addq h (raw_lt s a) (raw_lt s b)]

theorem exec_fxsub (rd a b : Reg) : exec (.fxsub rd a b) s =
    .next (commit (wr rd (red s.cfg (tv s.cfg (raw s a) - tv s.cfg (raw s b)))) s) := by
  rw [exec, execFxsub, conclude_ok h, opnd_eq_raw h, opnd_eq_raw h, sub_eq_red h (raw_lt s a) (raw_lt s b)]

theorem exec_fxmul (rd a b : Reg) :
    exec (.fxmul rd a b) s = .next (commit (wr rd (mulq s.cfg (raw s a) (raw s b))) s) := by
  rw [exec, execFxmul, conclude_ok h, opnd_eq_raw h, opnd_eq_raw h, mul_eq_mulq h (raw_lt s a) (raw_lt s b)]

theorem exec_fxdiv_ok (rd a : Reg) {b : Reg} (h0 : raw s b ≠ 0) :
    exec (.fxdiv rd a b) s = .next (commit (wr rd (divq s.cfg (raw s a) (raw s b))) s) := by
  rw [exec, execFxdiv, opnd_eq_raw h, opnd_eq_raw h, div_eq_divq h (raw_lt s a) (raw_lt s b) h0, Except.map,
    conclude_ok h]

theorem exec_fxdiv_error (rd a : Reg) {b : Reg} (h0 : raw s b = 0) :
    exec (.fxdiv rd a b) s = .next (takeFault .divZero (encode (.fxdiv rd a b)) s) := by
  rw [exec, execFxdiv, opnd_eq_raw h, opnd_eq_raw h, h0, div_zero h, Except.map, conclude_error h]

/-- R92: the base command of a scalar form completes with the operator's value. -/
theorem exec_scalarInstr_ok {op : ScalarOp} {a b : Reg} {v : Nat} (rd : Reg)
    (hv : scalarq s.cfg op (raw s a) (raw s b) = some v) :
    exec (scalarInstr op rd a b) s = .next (commit (wr rd v) s) := by
  cases op with
  | add => cases hv; exact exec_fxadd h rd a b
  | sub => cases hv; exact exec_fxsub h rd a b
  | mul => cases hv; exact exec_fxmul h rd a b
  | div =>
    simp only [scalarq] at hv
    split at hv <;> cases hv
    next h0 => exact exec_fxdiv_ok h rd a h0

/-- R181: only a division has no value, and it raises DIV_ZERO. -/
theorem exec_scalarInstr_error {op : ScalarOp} {a b : Reg} (rd : Reg)
    (hv : scalarq s.cfg op (raw s a) (raw s b) = none) :
    exec (scalarInstr op rd a b) s = .next (takeFault .divZero (encode (.fxdiv rd a b)) s) := by
  cases op with
  | add | sub | mul => cases hv
  | div =>
    have h0 : raw s b = 0 := by simpa [scalarq] using hv
    exact exec_fxdiv_error h rd a h0

end

theorem wellFormed_scalarInstr (c : Config) (op : ScalarOp) (rd a b : Reg) :
    (scalarInstr op rd a b).wellFormed c = true := by
  cases op <;> rfl

/-! ## One command -/

section
variable {s : State} {rest : List HostOp} (ha : Admitted s.cfg) (hu : s.unit = .idle)
include ha hu

/-- A command that completes in the state it runs in, and leaves ERR alone. -/
theorem endsWith_of_exec {i : Instr} (hp : s.port = .issue (encode i) :: rest) (hwf : i.wellFormed s.cfg = true)
    {ws : Writes} (herr : ws.err = none)
    (he : exec i (running s i rest) = .next (commit ws (running s i rest))) :
    EndsWith s rest ws.rd ws.val := by
  refine run_one ((step_issue_encode ha hu hp hwf).trans (he.trans ?_))
  rw [commit, herr]
  rfl

theorem endsWith_fxfromi {rd a : Reg} (hp : s.port = .issue (encode (.fxfromi rd a)) :: rest) :
    EndsWith s rest rd (asWord s.cfg ((s.x.get a).toInt * 2 ^ s.cfg.f)) := by
  rw [← ofNat_red ha]
  exact endsWith_of_exec ha hu hp rfl rfl (exec_fxfromi (admitted_running ha _ _) rd a)

end

/-! ## A conversion, then an operator -/

/-- The unit after the conversion of the scalar in `rk` to `k`, with the operations `ops` waiting. -/
def converted (s : State) (rk : Reg) (k : Int) (ops : List HostOp) : State :=
  { s with x := s.x.set rk (asWord s.cfg k), written := s.written.set rk true, unit := .idle, port := ops }

theorem admitted_converted {s : State} (h : Admitted s.cfg) (rk : Reg) (k : Int) (ops : List HostOp) :
    Admitted (converted s rk k ops).cfg := h

/-- The operator reads the conversion where it reads the scalar register. -/
theorem raw_converted {s : State} (h : Admitted s.cfg) (rk : Reg) (k : Int) (ops : List HostOp) (r : Reg) :
    raw (converted s rk k ops) r = rawAfter s rk k r := by
  unfold raw converted rawAfter
  simp only [bank_get_set]
  split
  · rw [asWord_toNat h, Nat.mod_eq_of_lt (red_lt h k)]
  · rfl

section
variable {s : State} {rest : List HostOp} {k : Int} {rk : Reg} (ha : Admitted s.cfg)
include ha

/-- The base command of a scalar form, run on the converted scalar. -/
theorem endsAsScalar_of_step {op : ScalarOp} {rd rs1 rs2 : Reg}
    (hs : step s = .next (converted s rk k (.issue (encode (scalarInstr op rd rs1 rs2)) :: rest))) :
    EndsAsScalar s rest op rd rs1 rs2 rk k := by
  have hc := admitted_converted ha rk k (.issue (encode (scalarInstr op rd rs1 rs2)) :: rest)
  have hnext := step_issue_encode hc rfl rfl (wellFormed_scalarInstr _ op rd rs1 rs2)
  unfold EndsAsScalar
  split
  · next v hv =>
    rw [← raw_converted ha rk k rest, ← raw_converted ha rk k rest] at hv
    exact run_two hs (hnext.trans (exec_scalarInstr_ok (admitted_running hc _ _) rd hv))
  · next hv =>
    rw [← raw_converted ha rk k rest, ← raw_converted ha rk k rest] at hv
    exact run_two hs (hnext.trans (exec_scalarInstr_error (admitted_running hc _ _) rd hv))

variable (hu : s.unit = .idle)
include hu

/-- The conversion command of a scalar form completes. -/
theorem step_converted {i : Instr} (hp : s.port = .issue (encode i) :: rest) (hwf : i.wellFormed s.cfg = true)
    (he : exec i (running s i rest) = .next (commit (wr rk (red s.cfg k)) (running s i rest))) :
    step s = .next (converted s rk k rest) := by
  rw [step_issue_encode ha hu hp hwf, he, converted, ← ofNat_red ha]
  rfl

variable {op : ScalarOp} {rd rs1 rs2 : Reg}

/-- R92: a scalar form with an integer scalar. -/
theorem endsAsScalar_fxfromi
    (hp : s.port = issueAll [.fxfromi rk rk, scalarInstr op rd rs1 rs2] ++ rest) :
    EndsAsScalar s rest op rd rs1 rs2 rk ((s.x.get rk).toInt * 2 ^ s.cfg.f) :=
  endsAsScalar_of_step ha (step_converted ha hu hp rfl (exec_fxfromi (admitted_running ha _ _) rk rk))

/-- R92, R273: a scalar form with a binary64 scalar, whose conversion may fault. -/
theorem endsAsFloatScalar_fxfromf
    (hp : s.port = issueAll [.fxfromf rk rk false, scalarInstr op rd rs1 rs2] ++ rest) :
    EndsAsFloatScalar s rest op rd rs1 rs2 rk := by
  constructor
  · intro hd hr
    exact endsAsScalar_of_step ha (step_converted ha hu hp rfl (exec_fxfromf_ok (admitted_running ha _ _) hd hr))
  · intro hd
    have hfault := (step_issue_encode ha hu hp rfl).trans (exec_fxfromf_error (admitted_running ha _ _) false hd)
    exact run_two hfault (step_issue_halted ha rfl rfl)

end

/-- Settles O60: a copy, a comparison and `fxone` are one command each; a scalar form is a conversion and the
operator on what the registers then hold. -/
theorem scalarAddConvertsThenAdds : Obligations.ScalarAddConvertsThenAdds := by
  intro s rest p ha hu hp
  cases p with
  | fxmov rd rs => exact endsWith_of_exec ha hu hp rfl rfl (exec_fxraw (admitted_running ha _ _) rd rs)
  | fxgt rd a b =>
    have h := endsWith_of_exec ha hu hp rfl rfl (exec_fxlt (admitted_running ha _ _) rd b a)
    simpa [wrBool] using h
  | fxge rd a b =>
    have h := endsWith_of_exec ha hu hp rfl rfl (exec_fxle (admitted_running ha _ _) rd b a)
    simpa [wrBool] using h
  | fxone rd rt =>
    have h := endsWith_fxfromi ha hu hp
    refine ⟨h, fun h1 => ?_⟩
    have hone : (1 : Word).toInt = 1 := by decide
    rwa [h1, hone, one_mul] at h
  | valInt op rd rv rk => exact endsAsScalar_fxfromi ha hu hp
  | intVal op rd rk rv => exact endsAsScalar_fxfromi ha hu hp
  | valFloat op rd rv rk => exact endsAsFloatScalar_fxfromf ha hu hp
  | floatVal op rd rk rv => exact endsAsFloatScalar_fxfromf ha hu hp

end Sys2Proof.Proofs
end

section
/-! PROOFS. What the statements say of a command's end, from what `exec` answers (70_reset_and_hazards.md R304). -/

namespace Sys2Proof.Proofs

open Sys2Proof.Machine Sys2Proof.Safety Sys2Proof.Spec Sys2Proof.Laws

section
variable {i : Instr} {s : State}

/-- R304, R42: a command whose write set leaves ERR alone completes, with the statements' frame. -/
theorem completes_of_exec {ws : Writes} (h : exec i s = .next (commit ws s)) (herr : ws.err = none) :
    Completes i s ws.rd ws.val s.err := by
  refine ⟨commit ws s, h, bank_get_set_same _ _ _, fun r hr => bank_get_set_of_ne _ _ hr, fun r => ?_, ?_, rfl, rfl,
    rfl, rfl, rfl⟩
  · rw [commit_written, bank_get_set]
    by_cases hr : r = ws.rd <;> simp [hr]
  · rw [commit_err, herr]
    rfl

/-- A predicate completes with 1 where it holds and with 0 elsewhere. -/
theorem completes_of_exec_wrBool {p : Prop} [Decidable p] {rd : Reg}
    (h : exec i s = .next (commit (wrBool rd (decide p)) s)) :
    Completes i s rd (if p then 1 else 0) s.err := by
  simpa [wrBool] using completes_of_exec h rfl

end

/-- R35, R37: a value reduced in any format is written as its remainder mod 2^T. -/
theorem ofNat_reduce {fm : Format} (h : fm.t ≤ fm.w) (v : Int) :
    BitVec.ofNat 64 (reduce fm v) = BitVec.ofInt 64 (v % 2 ^ fm.t) := by
  rw [← reduce_eq_emod h, BitVec.ofInt_natCast]

/-- R117: the model's no-underflow rule is the statement's. -/
theorem nuFix_eq_forced (q s : Int) (nu : Bool) : nuFix q s nu = forced nu q s := by
  unfold forced
  split
  · next hq =>
    obtain ⟨rfl, rfl⟩ := hq
    simp [nuFix_zero]
  · next hq =>
    cases nu with
    | false => exact nuFix_false q s
    | true => exact nuFix_of_ne (by simpa using hq) s true

end Sys2Proof.Proofs
end

section
/-! PROOFS. The integer constructions and conversions (40_representation.md R110 to R120, R131, R132). -/

namespace Sys2Proof.Proofs

open Sys2Proof.Machine Sys2Proof.Safety Sys2Proof.Spec Sys2Proof.Laws

/-- Settles O27: the operand is the register's T low bits, which are all of a raw value. -/
theorem fxrawMasksToActiveBits : Obligations.FxrawMasksToActiveBits := by
  intro s rd a h
  have hc : Completes (.fxraw rd a) s rd (BitVec.ofNat 64 (raw s a)) s.err :=
    completes_of_exec (exec_fxraw h rd a) rfl
  refine ⟨hc, fun hlt => ?_⟩
  rwa [raw, Nat.mod_eq_of_lt hlt, BitVec.ofNat_toNat, BitVec.setWidth_eq] at hc

/-- Settles O28: the scaled integer is reduced once. -/
theorem fxfromiScalesTheInteger : Obligations.FxfromiScalesTheInteger := by
  intro s rd a h
  rw [← ofNat_red h]
  exact completes_of_exec (exec_fxfromi h rd a) rfl

/-! ## Division by an integer -/

section
variable {s : State} (h : Admitted s.cfg)
include h

/-- R114: whole part and remainder together are the truncated quotient of n · 2^F. -/
theorem exec_fxidiv_ok (rd a : Reg) {b : Reg} (nu : Bool) (h0 : (s.x.get b).toInt ≠ 0) :
    exec (.fxidiv rd a b nu) s = .next (commit (wr rd (red s.cfg
      (forced nu (((s.x.get a).toInt * 2 ^ s.cfg.f).tdiv (s.x.get b).toInt)
        ((s.x.get a).toInt.sign * (s.x.get b).toInt.sign)))) s) := by
  rw [exec, execFxidiv, intOpnd, intOpnd, intDiv, if_neg h0]
  simp only [truncDiv, tdiv_whole_add_rem _ _ _ h0, nuFix_eq_forced, reduce_eq_red h, Except.map, conclude_ok h]

theorem exec_fxidiv_error (rd a : Reg) {b : Reg} (nu : Bool) (h0 : (s.x.get b).toInt = 0) :
    exec (.fxidiv rd a b nu) s = .next (takeFault .divZero (encode (.fxidiv rd a b nu)) s) := by
  rw [exec, execFxidiv, intOpnd, intOpnd, intDiv, if_pos h0, Except.map, conclude_error h]

theorem exec_fxdivi_ok (rd a : Reg) {b : Reg} (nu : Bool) (h0 : (s.x.get b).toInt ≠ 0) :
    exec (.fxdivi rd a b nu) s = .next (commit (wr rd (red s.cfg
      (forced nu ((iv s.cfg (raw s a)).tdiv (s.x.get b).toInt)
        ((iv s.cfg (raw s a)).sign * (s.x.get b).toInt.sign)))) s) := by
  rw [exec, execFxdivi, intOpnd, divInt, if_neg h0, Except.map, conclude_ok h, opnd_eq_raw h,
    ← iv_eq_uval h (raw_lt s a), nuFix_eq_forced, reduce_eq_red h, truncDiv]

theorem exec_fxdivi_error (rd a : Reg) {b : Reg} (nu : Bool) (h0 : (s.x.get b).toInt = 0) :
    exec (.fxdivi rd a b nu) s = .next (takeFault .divZero (encode (.fxdivi rd a b nu)) s) := by
  rw [exec, execFxdivi, intOpnd, divInt, if_pos h0, Except.map, conclude_error h]

end

/-- Settles O30: `exec_fxidiv_error` for a zero divisor, `exec_fxidiv_ok` for any other. -/
theorem fxidivTruncatesTheQuotient : Obligations.FxidivTruncatesTheQuotient := by
  intro s rd a b nu h
  refine ⟨exec_fxidiv_error h rd a nu, fun h0 => ?_⟩
  rw [← ofNat_red h]
  exact completes_of_exec (exec_fxidiv_ok h rd a nu h0) rfl

/-- Settles O31: as O30, with the reading for the scaled integer. -/
theorem fxdiviTruncatesTheQuotient : Obligations.FxdiviTruncatesTheQuotient := by
  intro s rd a b nu h
  refine ⟨exec_fxdivi_error h rd a nu, fun h0 => ?_⟩
  rw [← ofNat_red h]
  exact completes_of_exec (exec_fxdivi_ok h rd a nu h0) rfl

/-! ## Conversion between formats -/

theorem foreignFormat_eq_foreign (d : Desc) : foreignFormat d = foreign d := by
  rw [foreignFormat, foreign, backingWidth_eq_selWidth]

theorem descLegal_iff (c : Config) (d : Desc) : descLegal c d = true ↔ LegalDesc c d := by
  simp [descLegal, LegalDesc, and_assoc]

/-- R12: a legal descriptor's active bits fit its own backing width. -/
theorem foreign_t_le_w {c : Config} (h : Admitted c) {d : Desc} (hd : LegalDesc c d) :
    (foreign d).t ≤ (foreign d).w := by
  obtain ⟨-, -, htw⟩ := hd
  rw [← foreignFormat_eq_foreign]
  exact le_backingWidth (htw.trans (admitted_w_le h))

/-- R39: the model's reading in any format is the statement's. -/
theorem ival_eq_reading {fm : Format} (ssr : SubwidthRead) (h : fm.t ≤ fm.w) {r : Nat} (hr : r < 2 ^ fm.t) :
    ival ssr fm r = reading ssr fm r := by
  rw [ival_eq h hr, reading, twos_eq_sext hr]

/-- R116: a conversion is the rescaled reading, reduced. -/
theorem cvt_eq_reduce_rescale {src : Format} (ssr : SubwidthRead) (h : src.t ≤ src.w) (dst : Format) {r : Nat}
    (hr : r < 2 ^ src.t) (nu : Bool) :
    cvt ssr src dst r nu = reduce dst (rescale src.f dst.f nu (reading ssr src r)) := by
  rw [cvt_eq_reduce, nuFix_eq_forced, ival_eq_reading ssr h hr, rescale]

section
variable {s : State} (h : Admitted s.cfg)
include h

theorem exec_fxcvtin_ok (rd a : Reg) {d : Desc} (nu : Bool) (hd : LegalDesc s.cfg d) :
    exec (.fxcvtin rd a d nu) s = .next (commit (wr rd (red s.cfg (rescale d.f s.cfg.f nu
      (reading s.cfg.subwidthRead (foreign d) ((s.x.get a).toNat % 2 ^ d.t))))) s) := by
  have hlt : (s.x.get a).toNat % 2 ^ d.t < 2 ^ (foreign d).t := Nat.mod_lt _ (by positivity)
  rw [exec, execFxcvtin, if_pos ((descLegal_iff _ d).mpr hd), conclude_ok h, foreignFormat_eq_foreign, foreignOpnd,
    cvt_eq_reduce_rescale _ (foreign_t_le_w h hd) _ hlt, reduce_eq_red h]
  rfl

theorem exec_fxcvtout_ok (rd a : Reg) {d : Desc} (nu : Bool) (hd : LegalDesc s.cfg d) :
    exec (.fxcvtout rd a d nu) s = .next (commit (wr rd
      (reduce (foreign d) (rescale s.cfg.f d.f nu (iv s.cfg (raw s a))))) s) := by
  rw [exec, execFxcvtout, if_pos ((descLegal_iff _ d).mpr hd), conclude_ok h, foreignFormat_eq_foreign,
    opnd_eq_raw h, cvt_eq_reduce_rescale _ (admitted_t_le_w h) _ (raw_lt s a)]
  rfl

theorem exec_fxcvtin_error (rd a : Reg) {d : Desc} (nu : Bool) (hd : ¬LegalDesc s.cfg d) :
    exec (.fxcvtin rd a d nu) s = .next (takeFault .illegalOp (encode (.fxcvtin rd a d nu)) s) := by
  rw [exec, execFxcvtin, if_neg (mt (descLegal_iff _ d).mp hd), conclude_error h]

theorem exec_fxcvtout_error (rd a : Reg) {d : Desc} (nu : Bool) (hd : ¬LegalDesc s.cfg d) :
    exec (.fxcvtout rd a d nu) s = .next (takeFault .illegalOp (encode (.fxcvtout rd a d nu)) s) := by
  rw [exec, execFxcvtout, if_neg (mt (descLegal_iff _ d).mp hd), conclude_error h]

end

/-- Settles O32: the unit's format is the destination, whose reduction is `red`. -/
theorem fxcvtinRescalesTheForeignValue : Obligations.FxcvtinRescalesTheForeignValue := by
  intro s rd a d nu h
  refine ⟨fun hd => ?_, exec_fxcvtin_error h rd a nu⟩
  rw [← ofNat_red h]
  exact completes_of_exec (exec_fxcvtin_ok h rd a nu hd) rfl

/-- Settles O33: the foreign format is the destination, and its own width reduces the result. -/
theorem fxcvtoutRescalesTheUnitValue : Obligations.FxcvtoutRescalesTheUnitValue := by
  intro s rd a d nu h
  refine ⟨fun hd => ?_, exec_fxcvtout_error h rd a nu⟩
  have hword := ofNat_reduce (foreign_t_le_w h hd) (rescale s.cfg.f d.f nu (iv s.cfg (raw s a)))
  rw [show d.t = (foreign d).t from rfl, ← hword]
  exact completes_of_exec (exec_fxcvtout_ok h rd a nu hd) rfl

/-- R116: without nu, rescaling to at least as many fractional bits is a multiplication. -/
theorem rescale_up {fs fd : Nat} (h : fs ≤ fd) (v : Int) : rescale fs fd false v = v * 2 ^ (fd - fs) := by
  simp [rescale, forced, h]

/-- R116: without nu, rescaling back from more fractional bits undoes the multiplication. -/
theorem rescale_down {fs fd : Nat} (h : fs ≤ fd) (v : Int) :
    rescale fd fs false (v * 2 ^ (fd - fs)) = v := by
  rcases h.eq_or_lt with rfl | hlt
  · simp [rescale, forced]
  · simp [rescale, forced, Nat.not_le.mpr hlt]

/-- R39: a raw value and its reading differ by a multiple of 2^T. -/
theorem dvd_reading_sub {fm : Format} (ssr : SubwidthRead) (h : fm.t ≤ fm.w) {r : Nat} (hr : r < 2 ^ fm.t) :
    (2 ^ fm.t : Int) ∣ reading ssr fm r - r := by
  rw [← ival_eq_reading ssr h hr]
  exact dvd_sub_of_emod_eq (ival_emod h hr)

/-- R37, R39: in a format of at least n + k bits, v · 2^k reduced reads as a multiple of 2^k again, whose quotient
is v mod 2^n. -/
theorem reading_reduce_mul_pow {fm : Format} (ssr : SubwidthRead) (h : fm.t ≤ fm.w) {n k : Nat}
    (hnk : n + k ≤ fm.t) (v : Int) :
    ∃ j, reading ssr fm (reduce fm (v * 2 ^ k)) = (v + 2 ^ n * j) * 2 ^ k := by
  have hread := dvd_reading_sub ssr h (reduce_lt fm (v * 2 ^ k))
  have hred : (2 ^ fm.t : Int) ∣ v * 2 ^ k - reduce fm (v * 2 ^ k) :=
    dvd_sub_of_emod_eq (reduce_eq_emod h _).symm
  obtain ⟨j, hj⟩ := (pow_dvd_pow (2 : Int) hnk).trans (dvd_sub hread hred)
  rw [pow_add] at hj
  exact ⟨j, by linear_combination hj⟩

/-- Settles O34: for the reading v of r and k = F_d − F_s, the widened value reads as (v + 2^T_s · j) · 2^k, since
T_d ≥ T_s + k; dividing by 2^k leaves v mod 2^T_s, which reduces to r. -/
theorem wideningConversionRoundTrips : Obligations.WideningConversionRoundTrips := by
  intro ssr src dst r _ _ hsrc hfs hdst hfd hf hwhole hr
  obtain ⟨j, hj⟩ := reading_reduce_mul_pow ssr hdst (n := src.t) (k := dst.f - src.f) (by omega)
    (reading ssr src r)
  rw [cvt_eq_reduce_rescale ssr hsrc dst hr, cvt_eq_reduce_rescale ssr hdst src (reduce_lt _ _), rescale_up hf, hj,
    rescale_down hf]
  have hdvd : (2 ^ src.t : Int) ∣ reading ssr src r + 2 ^ src.t * j - r :=
    dvd_trans_eq (dvd_add (dvd_reading_sub ssr hsrc hr) (Dvd.intro j rfl)) (by ring)
  rw [reduce_eq_of_dvd hsrc hdvd, reduce_natCast hsrc hr]

/-- Settles O35: the arithmetic shift by F is the floor of the division by 2^F. -/
theorem fxtoiFloors : Obligations.FxtoiFloors := by
  intro s rd a h
  have he : exec (.fxtoi rd a) s =
      .next (commit (wrWord rd (BitVec.ofInt 64 (iv s.cfg (raw s a) / 2 ^ s.cfg.f))) s) := by
    rw [exec, execFxtoi, conclude_ok h, toInt, shiftRight, opnd_eq_raw h, iv_eq_uval h (raw_lt s a)]
  exact completes_of_exec he rfl

end Sys2Proof.Proofs
end

section
/-! PROOFS. The predicates and the comparisons within the format (40_representation.md R122 to R130). -/

namespace Sys2Proof.Proofs

open Sys2Proof.Machine Sys2Proof.Safety Sys2Proof.Spec Sys2Proof.Laws

section
variable {c : Config} {r : Nat} (hr : r < 2 ^ c.t)
include hr

/-- R123: only the zero pattern has the numeric value 0. -/
theorem tv_eq_zero_iff : tv c r = 0 ↔ r = 0 := by
  have hmod := tval_emod (fm := c.toFormat) hr
  rw [← tv_eq_tval hr] at hmod
  constructor
  · intro h0
    simpa [h0] using hmod.symm
  · rintro rfl
    simp [tv, twos]

theorem isZero_eq_tv : isZero r = decide (tv c r = 0) := by
  simp [tv_eq_zero_iff hr, isZero, beq_eq_decide]

theorem isNeg_eq_tv (ht : 1 ≤ c.t) : isNeg c.toFormat r = decide (tv c r < 0) := by
  rw [tv_eq_tval hr, ← Bool.coe_iff_coe, isNeg_iff ht hr, decide_eq_true_iff]

end

/-- Settles O39: the sign bit and the zero test, by the numeric value. -/
theorem predicatesTestTheNumericValue : Obligations.PredicatesTestTheNumericValue := by
  intro s rd a h
  have hneg := isNeg_eq_tv (raw_lt s a) (admitted_t_pos h)
  have hzero := isZero_eq_tv (raw_lt s a)
  refine ⟨completes_of_exec_wrBool ?_, completes_of_exec_wrBool ?_, completes_of_exec_wrBool ?_,
    completes_of_exec_wrBool ?_⟩
  · rw [exec, execFxisneg, conclude_ok h, opnd_eq_raw h, hneg]
  · have hpos : (!decide (tv s.cfg (raw s a) < 0) && !decide (tv s.cfg (raw s a) = 0)) =
        decide (0 < tv s.cfg (raw s a)) := by
      rw [← decide_not, ← decide_not, ← Bool.decide_and]
      exact decide_eq_decide.mpr (by omega)
    rw [exec, execFxispos, conclude_ok h, opnd_eq_raw h, hneg, hzero, hpos]
  · rw [exec, execFxiszero, conclude_ok h, opnd_eq_raw h, hzero]
  · rw [exec, execFxisnneg, conclude_ok h, opnd_eq_raw h, hneg, ← decide_not]
    simp only [not_lt]

/-- Settles O40: the commands test the raw values and the readings themselves. -/
theorem comparisonsCompareWithinTheFormat : Obligations.ComparisonsCompareWithinTheFormat := by
  intro s rd a b h
  refine ⟨completes_of_exec_wrBool ?_, ?_, completes_of_exec_wrBool (exec_fxlt h rd a b),
    completes_of_exec_wrBool (exec_fxle h rd a b)⟩
  · rw [exec, execFxeq, conclude_ok h, opnd_eq_raw h, opnd_eq_raw h, beq_eq_decide]
  · rw [← ite_not]
    refine completes_of_exec_wrBool ?_
    rw [exec, execFxne, conclude_ok h, opnd_eq_raw h, opnd_eq_raw h, bne, beq_eq_decide, decide_not]

end Sys2Proof.Proofs
end

section
/-! PROOFS. Construction from binary64 and conversion to it (40_representation.md R112, R121): the patterns that
`roundToFloat` builds, their values, and the rounding of a significand. -/

namespace Sys2Proof.Proofs

open Sys2Proof.Machine Sys2Proof.Safety Sys2Proof.Spec Sys2Proof.Laws

/-! ## Construction from binary64 -/

/-- R117: the sign of the exact product d · 2^F is the pattern's, and 0 for ±0. -/
theorem floatSignInt_eq_signQ (d : Word) (f : Nat) : floatSignInt d = signQ (floatVal d * 2 ^ f) := by
  rw [floatVal_eq, floatSignInt, signQ]
  rcases Nat.eq_zero_or_pos (floatSignificand d) with h0 | hpos
  · simp [h0]
  · have hm : (0 : Rat) < floatSignificand d * 2 ^ floatScale d * 2 ^ f := by positivity
    rw [if_neg hpos.ne']
    cases floatSign d with
    | false =>
      simp only [Bool.false_eq_true, if_false, one_mul]
      rw [if_neg hm.ne', if_neg hm.not_gt]
    | true =>
      simp only [if_true, neg_mul, one_mul]
      rw [if_neg (by linarith), if_pos (by linarith)]

/-- R112: a scalar in range is truncated, forced off zero by nu, and reduced. -/
theorem exec_fxfromf_forced {s : State} (h : Admitted s.cfg) {rd a : Reg} (nu : Bool)
    (hd : ¬NotFinite (s.x.get a)) (hr : InBacking s.cfg (truncQ (floatVal (s.x.get a) * 2 ^ s.cfg.f))) :
    exec (.fxfromf rd a nu) s = .next (commit (wr rd (red s.cfg
      (forced nu (truncQ (floatVal (s.x.get a) * 2 ^ s.cfg.f))
        (signQ (floatVal (s.x.get a) * 2 ^ s.cfg.f))))) s) := by
  rw [exec, execFxfromf, floatOpnd, fromFloat, (isFinite_iff _).mpr hd, truncScaled_eq_truncQ,
    (inBackingRange_iff _ _).mpr hr, floatSignInt_eq_signQ, nuFix_eq_forced, reduce_eq_red h]
  exact conclude_ok h _

/-- Settles O29: a scalar out of range and one that is not finite fault alike. -/
theorem fxfromfTruncatesTheExactProduct : Obligations.FxfromfTruncatesTheExactProduct := by
  intro s rd a nu h
  refine ⟨fun hd => exec_fxfromf_error h nu (.inl hd), fun hd => ⟨fun hr => ?_, fun hr => ?_⟩⟩
  · exact exec_fxfromf_error h nu (.inr hr)
  · rw [← ofNat_red h]
    exact completes_of_exec (exec_fxfromf_forced h nu hd hr) rfl

/-! ## Patterns -/

/-- The pattern `roundToFloat` puts together from a sign, the exponent `e` and the significand `q`; a significand
of 2^53 carries into the exponent field. -/
def packed (neg : Bool) (e q : Nat) : Word :=
  BitVec.ofNat 64 (neg.toNat * 2 ^ 63 + e * 2 ^ 52 + (q - 2 ^ 52))

theorem roundToFloat_eq_packed {v : Int} (hv : v ≠ 0) (f : Nat) :
    roundToFloat v f =
      packed (v < 0) (v.natAbs.log2 + 1023 - f) (roundSignificand v.natAbs v.natAbs.log2) := by
  simp [roundToFloat, packed, hv, Bool.toNat, Bool.cond_decide]

section
variable {e q : Nat} (neg : Bool) (he : e ≤ 2045) (h52 : 2 ^ 52 ≤ q) (h53 : q ≤ 2 ^ 53)
include he h52 h53

theorem packed_toNat : (packed neg e q).toNat = neg.toNat * 2 ^ 63 + e * 2 ^ 52 + (q - 2 ^ 52) := by
  have hneg := neg.toNat_le
  rw [packed, BitVec.toNat_ofNat]
  exact Nat.mod_eq_of_lt (by omega)

theorem packed_sign : (packed neg e q).toNat / 2 ^ 63 = neg.toNat := by
  rw [packed_toNat neg he h52 h53]
  omega

theorem packed_exponent : (packed neg e q).toNat / 2 ^ 52 % 2048 = if q = 2 ^ 53 then e + 1 else e := by
  rw [packed_toNat neg he h52 h53]
  split <;> omega

theorem packed_fraction : (packed neg e q).toNat % 2 ^ 52 = if q = 2 ^ 53 then 0 else q - 2 ^ 52 := by
  rw [packed_toNat neg he h52 h53]
  split <;> omega

theorem packed_finite : ¬NotFinite (packed neg e q) := by
  rw [NotFinite, packed_exponent neg he h52 h53]
  split <;> omega

/-- R15: the pattern's value; the carry of q = 2^53 doubles the weight of 2^52. -/
theorem floatVal_packed (h1 : 1 ≤ e) :
    floatVal (packed neg e q) = (if neg then -1 else 1) * (q * 2 ^ (e - 1075 : Int)) := by
  rw [floatVal, packed_exponent neg he h52 h53, packed_fraction neg he h52 h53, packed_sign neg he h52 h53,
    mul_assoc]
  simp only [Bool.toNat_eq_one]
  congr 1
  split
  · next hq =>
    have hcarry : ((e + 1 : Nat) : Int) - 1075 = (e - 1075 : Int) + 1 := by omega
    rw [if_neg (by omega), max_eq_left (by omega), hq, hcarry, zpow_add_one₀ two_ne_zero]
    push_cast
    ring
  · rw [if_neg (by omega), max_eq_left h1, Nat.sub_add_cancel h52]

end

/-! ## Rounding a significand -/

/-- R121: a significand of at most 53 bits is shifted up, so nothing is lost. -/
theorem roundSignificand_of_le {k : Nat} (hk : k ≤ 52) (m : Nat) : roundSignificand m k = m * 2 ^ (52 - k) := by
  rw [roundSignificand, if_pos hk]

/-- R121: a longer significand is rounded to the nearest multiple of its last bit's weight, ties to even. -/
theorem roundSignificand_nearest {k : Nat} (hk : 52 < k) (m : Nat) :
    2 * ((roundSignificand m k : Int) * 2 ^ (k - 52) - m).natAbs ≤ 2 ^ (k - 52) ∧
      (2 * ((roundSignificand m k : Int) * 2 ^ (k - 52) - m).natAbs = 2 ^ (k - 52) →
        roundSignificand m k % 2 = 0) := by
  have hhalf : 2 ^ (k - 52) = 2 * 2 ^ (k - 53) := two_pow_pred (by omega)
  have hm := Nat.div_add_mod m (2 ^ (k - 52))
  have hrem : m % 2 ^ (k - 52) < 2 ^ (k - 52) := Nat.mod_lt _ (by positivity)
  rw [roundSignificand, if_neg (by omega)]
  simp only
  generalize m / 2 ^ (k - 52) = q at *
  generalize m % 2 ^ (k - 52) = rem at *
  split
  · have herr : ((q + 1 : Nat) : Int) * 2 ^ (k - 52) - m = (2 ^ (k - 52) - rem : Nat) := by
      rw [← hm, Nat.cast_sub hrem.le]
      push_cast
      ring
    rw [herr, Int.natAbs_natCast]
    omega
  · have herr : (q : Int) * 2 ^ (k - 52) - m = -rem := by
      rw [← hm]
      push_cast
      ring
    rw [herr, Int.natAbs_neg, Int.natAbs_natCast]
    omega

/-- R121: the rounded significand has 53 bits, or is 2^53. -/
theorem roundSignificand_bounds {m : Nat} (hm : m ≠ 0) :
    2 ^ 52 ≤ roundSignificand m m.log2 ∧ roundSignificand m m.log2 ≤ 2 ^ 53 := by
  have hlo : 2 ^ m.log2 ≤ m := Nat.log2_self_le hm
  have hhi : m < 2 ^ (m.log2 + 1) := Nat.lt_log2_self
  generalize m.log2 = k at *
  by_cases hk : k ≤ 52
  · rw [roundSignificand_of_le hk]
    have h52 : 2 ^ k * 2 ^ (52 - k) = 2 ^ 52 := by rw [← pow_add, Nat.add_sub_cancel' hk]
    have h53 : 2 ^ (k + 1) * 2 ^ (52 - k) = 2 ^ 53 := by rw [pow_succ', mul_assoc, h52, ← pow_succ']
    exact ⟨h52.ge.trans (Nat.mul_le_mul_right _ hlo), (Nat.mul_le_mul_right _ hhi.le).trans h53.le⟩
  · have h52 : 2 ^ 52 * 2 ^ (k - 52) = 2 ^ k := by rw [← pow_add]; congr 1; omega
    have hq : 2 ^ 52 ≤ m / 2 ^ (k - 52) := (Nat.le_div_iff_mul_le (by positivity)).mpr (h52 ▸ hlo)
    have hq' : m / 2 ^ (k - 52) < 2 ^ 53 := (Nat.div_lt_iff_lt_mul (by positivity)).mpr (by
      rw [pow_succ] at hhi
      omega)
    rw [roundSignificand, if_neg hk]
    simp only
    split <;> omega

/-! ## The value of a rounded number -/

/-- R121: what `roundToFloat` is given has |v| ≤ 2^64. -/
theorem log2_le_of_le {m : Nat} (h : m ≤ 2 ^ 64) : m.log2 ≤ 64 := by
  rcases Nat.eq_zero_or_pos m with rfl | hm
  · simp
  · exact Nat.lt_succ_iff.mp ((Nat.log2_lt hm.ne').mpr (h.trans_lt (by norm_num)))

section
variable {v : Int} {f : Nat} (hv : v.natAbs ≤ 2 ^ 64) (hf : f ≤ 64)
include hv hf

theorem roundToFloat_finite : ¬NotFinite (roundToFloat v f) := by
  rcases eq_or_ne v 0 with rfl | h0
  · simp [roundToFloat, NotFinite]
  · have hlog := log2_le_of_le hv
    obtain ⟨h52, h53⟩ := roundSignificand_bounds (Int.natAbs_ne_zero.mpr h0)
    rw [roundToFloat_eq_packed h0]
    exact packed_finite _ (by omega) h52 h53

/-- R121: the value is that of the rounded significand, scaled. -/
theorem floatVal_roundToFloat (h0 : v ≠ 0) : floatVal (roundToFloat v f) =
    v.sign * (roundSignificand v.natAbs v.natAbs.log2 * 2 ^ (v.natAbs.log2 - 52 : Int)) / 2 ^ f := by
  have hlog := log2_le_of_le hv
  obtain ⟨h52, h53⟩ := roundSignificand_bounds (Int.natAbs_ne_zero.mpr h0)
  have hexp : ((v.natAbs.log2 + 1023 - f : Nat) : Int) - 1075 = (v.natAbs.log2 - 52 : Int) - (f : Int) := by
    omega
  have hsign : (if decide (v < 0) = true then (-1 : Rat) else 1) = v.sign := by
    rcases lt_or_gt_of_ne h0 with h | h
    · simp [h, Int.sign_eq_neg_one_of_neg h]
    · simp [h.le, Int.sign_eq_one_of_pos h]
  rw [roundToFloat_eq_packed h0, floatVal_packed _ (by omega) h52 h53 (by omega), hexp, hsign,
    zpow_sub₀ two_ne_zero, zpow_natCast]
  ring

/-- R121: a number of at most 53 bits keeps its value. -/
theorem floatVal_roundToFloat_exact (h53 : v.natAbs < 2 ^ 53) : floatVal (roundToFloat v f) = v / 2 ^ f := by
  rcases eq_or_ne v 0 with rfl | h0
  · simp [roundToFloat, floatVal]
  have hlog : v.natAbs.log2 ≤ 52 :=
    Nat.lt_succ_iff.mp ((Nat.log2_lt (Int.natAbs_ne_zero.mpr h0)).mpr h53)
  have hscale : ((2 : Rat) ^ (52 - v.natAbs.log2)) * 2 ^ (v.natAbs.log2 - 52 : Int) = 1 := by
    rw [← zpow_natCast, ← zpow_add₀ two_ne_zero, Nat.cast_sub hlog]
    simp
  have hsign : (v.sign : Rat) * v.natAbs = v := by
    rw [← Int.cast_natCast, ← Int.cast_mul, Int.sign_mul_natAbs]
  rw [floatVal_roundToFloat hv hf h0, roundSignificand_of_le hlog]
  push_cast
  rw [mul_assoc, hscale, mul_one, hsign]

end

/-! ## FXTOF -/

section
variable {s : State} (h : Admitted s.cfg)
include h

/-- R38: a numeric value of T ≤ 64 bits. -/
theorem tv_natAbs_le (r : Reg) : (tv s.cfg (raw s r)).natAbs ≤ 2 ^ 64 := by
  have hr : (raw s r : Int) < 2 ^ s.cfg.t := by exact_mod_cast raw_lt s r
  have hpow : (2 : Int) ^ s.cfg.t ≤ 2 ^ 64 := pow_le_pow_right₀ one_le_two (admitted_t_le h)
  unfold tv twos
  split
  · split <;> omega
  · omega

theorem exec_fxtof (rd a : Reg) : exec (.fxtof rd a) s =
    .next (commit (wrWord rd (roundToFloat (tv s.cfg (raw s a)) s.cfg.f)) s) := by
  rw [exec, execFxtof, conclude_ok h, toFloat, opnd_eq_raw h, tv_eq_tval (raw_lt s a)]

theorem fxtof_finite (a : Reg) : ¬NotFinite (roundToFloat (tv s.cfg (raw s a)) s.cfg.f) :=
  roundToFloat_finite (tv_natAbs_le h a) ((admitted_f_le_t h).trans (admitted_t_le h))

theorem floatVal_fxtof_exact {a : Reg} (h53 : |tv s.cfg (raw s a)| < 2 ^ 53) :
    floatVal (roundToFloat (tv s.cfg (raw s a)) s.cfg.f) = tv s.cfg (raw s a) / 2 ^ s.cfg.f :=
  floatVal_roundToFloat_exact (tv_natAbs_le h a) ((admitted_f_le_t h).trans (admitted_t_le h))
    (by rwa [Int.abs_eq_natAbs, ← Nat.cast_ofNat, ← Nat.cast_pow, Nat.cast_lt] at h53)

end

/-- Settles O36: a significand of at most 53 bits is only shifted. -/
theorem fxtofIsExactBelow53Bits : Obligations.FxtofIsExactBelow53Bits := by
  intro s rd a h h53
  refine ⟨_, completes_of_exec (exec_fxtof h rd a) rfl, fxtof_finite h a, floatVal_fxtof_exact h h53, fun h0 => ?_⟩
  simp [wrWord, (tv_eq_zero_iff (raw_lt s a)).mpr h0, roundToFloat]

/-- Settles O37: from 53 bits on the weight 2^u is whole, and the significand is the nearest. -/
theorem fxtofRoundsToNearestEven : Obligations.FxtofRoundsToNearestEven := by
  intro s rd a h h53
  have h0 : tv s.cfg (raw s a) ≠ 0 := by
    intro h0
    norm_num [h0] at h53
  have hlog : 52 < (tv s.cfg (raw s a)).natAbs.log2 :=
    (Nat.le_log2 (Int.natAbs_ne_zero.mpr h0)).mpr (by
      rwa [Int.abs_eq_natAbs, ← Nat.cast_ofNat, ← Nat.cast_pow, Nat.cast_le] at h53)
  obtain ⟨hlo, hhi⟩ := roundSignificand_bounds (Int.natAbs_ne_zero.mpr h0)
  obtain ⟨hnear, heven⟩ := roundSignificand_nearest hlog (tv s.cfg (raw s a)).natAbs
  refine ⟨_, _, _, completes_of_exec (exec_fxtof h rd a) rfl, fxtof_finite h a, rfl, hlo, hhi, ?_, hnear, heven⟩
  have hval := floatVal_roundToFloat (tv_natAbs_le h a) ((admitted_f_le_t h).trans (admitted_t_le h)) h0
  rw [← Nat.cast_ofNat (n := 52), ← Nat.cast_sub hlog.le, zpow_natCast, ← mul_assoc] at hval
  exact hval

/-! ## The round trip -/

theorem truncQ_intCast (v : Int) : truncQ v = v := by
  simp [truncQ]

/-- R117: nu changes nothing where the product is whole. -/
theorem forced_signQ_intCast (nu : Bool) (v : Int) : forced nu v (signQ v) = v := by
  rcases eq_or_ne v 0 with rfl | h0
  · simp [forced, signQ]
  · simp [forced, h0]

section
variable {c : Config} {r : Nat} (hr : r < 2 ^ c.t)
include hr

/-- R38: the numeric value reduces to the raw value. -/
theorem red_tv : red c (tv c r) = r := by
  rw [red, tv_eq_tval hr, tval_emod (fm := c.toFormat) hr, Int.toNat_natCast]

/-- R112: every numeric value of the format lies in the backing integer's range. -/
theorem inBacking_tv (h : Admitted c) : InBacking c (tv c r) := by
  have htw := admitted_t_le_w h
  unfold InBacking
  cases hs : c.s with
  | unsigned =>
    have hpow : 2 ^ c.t ≤ 2 ^ c.w := Nat.pow_le_pow_right two_pos htw
    simp only [tv, hs, reduceCtorEq, if_false]
    zify at *
    omega
  | signed =>
    have hpow : (2 : Int) ^ (c.t - 1) ≤ 2 ^ (c.w - 1) := pow_le_pow_right₀ one_le_two (by omega)
    obtain ⟨hlo, hhi⟩ := sext_range (admitted_t_pos h) hr
    simp only [tv, hs, if_true, twos_eq_sext hr]
    omega

end

/-- Settles O38: FXTOF's pattern times 2^F is the numeric value again, which is whole, in range, and reduces to the
raw value. -/
theorem floatRoundTripIsExact : Obligations.FloatRoundTripIsExact := by
  intro s rd a rd' nu h h53
  refine ⟨_, exec_fxtof h rd a, ?_⟩
  set t := commit (wrWord rd (roundToFloat (tv s.cfg (raw s a)) s.cfg.f)) s with ht
  have hpat : t.x.get rd = roundToFloat (tv s.cfg (raw s a)) s.cfg.f := bank_get_set_same _ _ _
  have hprod : floatVal (t.x.get rd) * 2 ^ t.cfg.f = tv s.cfg (raw s a) := by
    rw [hpat, floatVal_fxtof_exact h h53]
    exact div_mul_cancel₀ _ (by positivity)
  have hfromf := exec_fxfromf_forced (s := t) (rd := rd') (a := rd) h nu (hpat ▸ fxtof_finite h a) (by
    rw [hprod, truncQ_intCast]
    exact inBacking_tv (raw_lt s a) h)
  rw [hprod, truncQ_intCast, forced_signQ_intCast, show t.cfg = s.cfg from rfl, red_tv (raw_lt s a)] at hfromf
  exact completes_of_exec hfromf rfl

end Sys2Proof.Proofs
end

section
/-! PROOFS. Addition and subtraction under the overflow policy (41_overflow_engine.md R160, R161, R163, R165). -/

namespace Sys2Proof.Proofs

open Sys2Proof.Machine Sys2Proof.Safety Sys2Proof.Spec Sys2Proof.Laws

/-! ## The sum under each policy -/

section
variable {c : Config} (a b : Nat)

/-- R165 under WRAP: signed and unsigned sums are reduced alike. -/
theorem addq_wrap (hp : c.policy = .wrap) : addq c a b = red c (tv c a + tv c b) := by
  rw [addq, hp]

theorem addq_sat_signed (hp : c.policy = .sat) (hs : c.s = .signed) :
    addq c a b = red c (max (-2 ^ (c.t - 1)) (min (tv c a + tv c b) (2 ^ (c.t - 1) - 1))) := by
  rw [addq, hp, hs]

theorem addq_sat_unsigned (hp : c.policy = .sat) (hs : c.s = .unsigned) :
    addq c a b = min (a + b) (2 ^ c.t - 1) := by
  rw [addq, hp, hs]

/-- R165: every policy reads the operands through their sum alone. -/
theorem addq_comm : addq c a b = addq c b a := by
  simp only [addq, add_comm (tv c a), Nat.add_comm a]

end

/-! ## The statements -/

/-- Settles O41: the sum of the numeric values is reduced once. -/
theorem fxaddWrapsUnderWrap : Obligations.FxaddWrapsUnderWrap := by
  intro s rd a b h hp
  rw [← ofNat_red h, ← addq_wrap _ _ hp]
  exact completes_of_exec (exec_fxadd h rd a b) rfl

/-- Settles O42: a signed sum is clamped on the numeric values, an unsigned one on the raw values. -/
theorem fxaddClampsUnderSat : Obligations.FxaddClampsUnderSat := by
  intro s rd a b h hp
  have hc := completes_of_exec (exec_fxadd h rd a b) rfl
  constructor
  · intro hs
    rw [← ofNat_red h, ← addq_sat_signed _ _ hp hs]
    exact hc
  · intro hs
    rw [← addq_sat_unsigned _ _ hp hs]
    exact hc

/-- Settles O43: an admitted unit writes a commutative sum; any other refuses both commands by the same name. -/
theorem fxaddCommutes : Obligations.FxaddCommutes := by
  intro s rd a b
  cases h : rejectConfig s.cfg with
  | none => rw [exec_fxadd h, exec_fxadd h, addq_comm]
  | some why => rw [exec_refused h, exec_refused h]

/-- Settles O44: the difference is reduced once, whatever the policy. -/
theorem fxsubWrapsUnderBothPolicies : Obligations.FxsubWrapsUnderBothPolicies := by
  intro s rd a b h
  rw [← ofNat_red h]
  exact completes_of_exec (exec_fxsub h rd a b) rfl

end Sys2Proof.Proofs
end

section
/-! PROOFS. Multiplication, division, negation, reciprocal and absolute value, and the width of their exact
intermediates (42_arithmetic.md R180 to R186). -/

namespace Sys2Proof.Proofs

open Sys2Proof.Machine Sys2Proof.Safety Sys2Proof.Spec Sys2Proof.Laws

/-! ## What the commands write -/

section
variable {c : Config} (h : Admitted c) {a : Nat} (ha : a < 2 ^ c.t)
include h ha

/-- R182: the negation of the raw value and that of the numeric value reduce alike. -/
theorem neg_eq_red : neg c a = red c (-tv c a) := by
  rw [neg_eq h ha, reduce_eq_red h, ← tv_eq_tval ha]

/-- R184: a negative value is negated, any other is its own numeric value reduced. -/
theorem absVal_eq_red : absVal c a = red c |tv c a| := by
  rw [absVal, isNeg_eq_tv ha (admitted_t_pos h)]
  by_cases hneg : tv c a < 0
  · rw [if_pos (decide_eq_true hneg), abs_of_neg hneg, neg_eq_red h ha]
  · rw [if_neg (by simpa using hneg), abs_of_nonneg (not_lt.mp hneg), red_tv ha]

end

section
variable {s : State} (h : Admitted s.cfg)
include h

theorem exec_fxneg (rd a : Reg) :
    exec (.fxneg rd a) s = .next (commit (wr rd (red s.cfg (-tv s.cfg (raw s a)))) s) := by
  rw [exec, execFxneg, conclude_ok h, opnd_eq_raw h, neg_eq_red h (raw_lt s a)]

theorem exec_fxabs (rd a : Reg) :
    exec (.fxabs rd a) s = .next (commit (wr rd (red s.cfg |tv s.cfg (raw s a)|)) s) := by
  rw [exec, execFxabs, conclude_ok h, opnd_eq_raw h, absVal_eq_red h (raw_lt s a)]

/-- R183: the dividend is ONE as the format holds it, the residue of 2^F. -/
theorem exec_fxrcp_ok (rd : Reg) {b : Reg} (h0 : raw s b ≠ 0) :
    exec (.fxrcp rd b) s = .next (commit (wr rd (divq s.cfg (2 ^ s.cfg.f % 2 ^ s.cfg.t) (raw s b))) s) := by
  have hone : 2 ^ s.cfg.f % 2 ^ s.cfg.t < 2 ^ s.cfg.t := Nat.mod_lt _ (by positivity)
  rw [exec, execFxrcp, rcp, one_eq h, opnd_eq_raw h, div_eq_divq h hone (raw_lt s b) h0, Except.map, conclude_ok h]

theorem exec_fxrcp_error (rd : Reg) {b : Reg} (h0 : raw s b = 0) :
    exec (.fxrcp rd b) s = .next (takeFault .divZero (encode (.fxrcp rd b)) s) := by
  rw [exec, execFxrcp, rcp, opnd_eq_raw h, h0, div_zero h, Except.map, conclude_error h]

end

/-- Settles O45: `mulq` is the floor-shifted product of the readings, reduced once. -/
theorem fxmulFloorsTheProduct : Obligations.FxmulFloorsTheProduct := by
  intro s rd a b h
  rw [← ofNat_red h]
  exact completes_of_exec (exec_fxmul h rd a b) rfl

/-- Settles O46: a reading is zero exactly for the zero pattern, so the raw value decides the fault; FXRCP is
FXDIV with the dividend ONE. -/
theorem fxdivAndFxrcpTruncateOrFault : Obligations.FxdivAndFxrcpTruncateOrFault := by
  intro s rd a b h
  refine ⟨fun h0 => ⟨exec_fxdiv_error h rd a h0, exec_fxrcp_error h rd h0⟩, fun h0 => ?_⟩
  rw [← ofNat_red h, ← ofNat_red h]
  exact ⟨completes_of_exec (exec_fxdiv_ok h rd a h0) rfl, completes_of_exec (exec_fxrcp_ok h rd h0) rfl⟩

/-- Settles O47: `neg_eq_red` and `absVal_eq_red`, written zero-extended. -/
theorem fxnegAndFxabsWrap : Obligations.FxnegAndFxabsWrap := by
  intro s rd a h
  rw [← ofNat_red h, ← ofNat_red h]
  exact ⟨completes_of_exec (exec_fxneg h rd a) rfl, completes_of_exec (exec_fxabs h rd a) rfl⟩

/-! ## The calc width -/

/-- An integer of n + 1 two's-complement bits is exact in any wider two's complement. -/
theorem bmod_two_pow_eq_self {n m : Nat} (hnm : n < m) {v : Int} (hlo : -2 ^ n ≤ v) (hhi : v < 2 ^ n) :
    v.bmod (2 ^ m) = v := by
  have hpow : (2 : Int) ^ n * 2 ≤ 2 ^ m := by
    rw [← pow_succ]
    exact pow_le_pow_right₀ one_le_two hnm
  apply Int.bmod_eq_of_le_mul_two <;> push_cast <;> omega

theorem admitted_w_pos {c : Config} (h : Admitted c) : 1 ≤ c.w :=
  (admitted_t_pos h).trans (admitted_t_le_w h)

theorem admitted_f_le_w {c : Config} (h : Admitted c) : c.f ≤ c.w :=
  (admitted_f_le_t h).trans (admitted_t_le_w h)

section
variable {c : Config} (h : Admitted c) (hs : c.s = .signed) {a b : Nat} (ha : a < 2 ^ c.t)
include h hs ha

/-- R39: a signed reading is a W-bit two's-complement number under both settings of `SIGNED_SUBWIDTH_READ`. -/
theorem uval_range_signed : -2 ^ (c.w - 1) ≤ uval c a ∧ uval c a < 2 ^ (c.w - 1) := by
  have htw := admitted_t_le_w h
  simp only [uval, ival, hs]
  split
  · have hpow : (2 : Int) ^ (c.t - 1) ≤ 2 ^ (c.w - 1) := pow_le_pow_right₀ one_le_two (by omega)
    obtain ⟨hlo, hhi⟩ := sext_range (admitted_t_pos h) ha
    omega
  · obtain ⟨hlo, hhi⟩ := sext_range (admitted_w_pos h)
      (ha.trans_le (Nat.pow_le_pow_right two_pos htw))
    omega

theorem abs_uval_le : |uval c a| ≤ 2 ^ (c.w - 1) := by
  obtain ⟨hlo, hhi⟩ := uval_range_signed h hs ha
  exact abs_le.mpr ⟨hlo, hhi.le⟩

theorem abs_product_le (hb : b < 2 ^ c.t) : |uval c a * uval c b| ≤ 2 ^ (2 * c.w - 2) := by
  rw [abs_mul, show 2 * c.w - 2 = (c.w - 1) + (c.w - 1) by omega, pow_add]
  exact mul_le_mul (abs_uval_le h hs ha) (abs_uval_le h hs hb) (abs_nonneg _) (by positivity)

/-- The dividend's bound is that of the reading, shifted by F. -/
theorem abs_dividend_le_shifted : |uval c a * 2 ^ c.f| ≤ 2 ^ (c.w - 1 + c.f) := by
  rw [abs_mul, abs_of_pos (by positivity : (0 : Int) < 2 ^ c.f), pow_add]
  exact mul_le_mul_of_nonneg_right (abs_uval_le h hs ha) (by positivity)

theorem abs_dividend_le : |uval c a * 2 ^ c.f| ≤ 2 ^ (2 * c.w - 1) := by
  have hw := admitted_w_pos h
  have hf := admitted_f_le_w h
  exact (abs_dividend_le_shifted h hs ha).trans (pow_le_pow_right₀ one_le_two (by omega))

theorem dividend_lt : uval c a * 2 ^ c.f < 2 ^ (2 * c.w - 1) := by
  have hw := admitted_w_pos h
  have hf := admitted_f_le_w h
  calc uval c a * 2 ^ c.f
      < 2 ^ (c.w - 1) * 2 ^ c.f := mul_lt_mul_of_pos_right (uval_range_signed h hs ha).2 (by positivity)
    _ = 2 ^ (c.w - 1 + c.f) := (pow_add _ _ _).symm
    _ ≤ 2 ^ (2 * c.w - 1) := pow_le_pow_right₀ one_le_two (by omega)

/-- R185's corner: the bound is reached only by the most negative reading, with F = W. -/
theorem dividend_corner (heq : |uval c a * 2 ^ c.f| = 2 ^ (2 * c.w - 1)) :
    uval c a = -2 ^ (c.w - 1) ∧ c.f = c.w := by
  have hw := admitted_w_pos h
  have hf := admitted_f_le_w h
  have hfw : c.f = c.w := by
    have hexp : 2 * c.w - 1 ≤ c.w - 1 + c.f :=
      (pow_le_pow_iff_right₀ (one_lt_two : (1 : Int) < 2)).mp (heq ▸ abs_dividend_le_shifted h hs ha)
    omega
  have habs : |uval c a| = 2 ^ (c.w - 1) := by
    rw [abs_mul, abs_of_pos (by positivity : (0 : Int) < 2 ^ c.f), hfw,
      show 2 * c.w - 1 = c.w - 1 + c.w by omega, pow_add] at heq
    exact mul_right_cancel₀ (by positivity) heq
  have hhi := (uval_range_signed h hs ha).2
  exact ⟨((abs_eq (by positivity)).mp habs).resolve_left hhi.ne, hfw⟩

end

section
variable {c : Config} (h : Admitted c) (hs : c.s = .unsigned) {a b : Nat} (ha : a < 2 ^ c.t)
include hs

theorem uval_nonneg_unsigned : 0 ≤ uval c a := by
  rw [uval_of_unsigned hs]
  positivity

include h ha

theorem uval_lt_unsigned : uval c a < 2 ^ c.w := by
  rw [uval_of_unsigned hs]
  exact_mod_cast ha.trans_le (Nat.pow_le_pow_right two_pos (admitted_t_le_w h))

theorem product_lt_unsigned (hb : b < 2 ^ c.t) : uval c a * uval c b < 2 ^ (2 * c.w) := by
  rw [two_mul, pow_add]
  exact mul_lt_mul'' (uval_lt_unsigned h hs ha) (uval_lt_unsigned h hs hb) (uval_nonneg_unsigned hs)
    (uval_nonneg_unsigned hs)

theorem dividend_lt_unsigned : uval c a * 2 ^ c.f < 2 ^ (2 * c.w) := by
  rw [two_mul, pow_add]
  exact mul_lt_mul (uval_lt_unsigned h hs ha)
    (pow_le_pow_right₀ one_le_two (admitted_f_le_w h)) (by positivity) (by positivity)

end

/-- A truncated quotient is no larger in magnitude than its dividend. -/
theorem abs_tdiv_le_abs (n d : Int) : |n.tdiv d| ≤ |n| := by
  rw [Int.abs_eq_natAbs, Int.abs_eq_natAbs]
  exact_mod_cast Int.natAbs_tdiv_le_natAbs n d

/-- Settles O48: signed products and dividends are numbers of 2W two's-complement bits, unsigned ones of 2W bits,
so either is exact in every CW ≥ 2W. -/
theorem calcWidthIsSufficient : Obligations.CalcWidthIsSufficient := by
  intro c a b cw h ha hb hcw
  have hw := admitted_w_pos h
  refine ⟨fun hs => ?_, fun hs => ?_, abs_tdiv_le_abs _ _⟩
  · have hprod := abs_product_le h hs ha hb
    have hdiv := abs_dividend_le h hs ha
    have hpow : (2 : Int) ^ (2 * c.w - 2) < 2 ^ (2 * c.w - 1) := pow_lt_pow_right₀ one_lt_two (by omega)
    refine ⟨abs_uval_le h hs ha, hprod, hdiv, dividend_corner h hs ha, ?_, ?_⟩
    · obtain ⟨hlo, hhi⟩ := abs_le.mp hprod
      exact bmod_two_pow_eq_self (n := 2 * c.w - 1) (by omega) (by omega) (by omega)
    · exact bmod_two_pow_eq_self (by omega) (abs_le.mp hdiv).1 (dividend_lt h hs ha)
  · have h0 (r : Nat) : 0 ≤ uval c r := uval_nonneg_unsigned hs
    have hprod := product_lt_unsigned h hs ha hb
    have hdiv := dividend_lt_unsigned h hs ha
    have hpow : (2 : Int) ^ (2 * c.w) ≤ 2 ^ cw := pow_le_pow_right₀ one_le_two hcw
    exact ⟨h0 a, uval_lt_unsigned h hs ha, hprod, hdiv,
      Int.emod_eq_of_lt (mul_nonneg (h0 a) (h0 b)) (hprod.trans_le hpow),
      Int.emod_eq_of_lt (mul_nonneg (h0 a) (by positivity)) (hdiv.trans_le hpow)⟩

end Sys2Proof.Proofs
end

section
/-! PROOFS. The formats that the elementary commands ask for (10_state.md R32, 43_elementary.md R210(b)), and the raw
values that they compute with (10_state.md R37 to R39). -/

namespace Sys2Proof.Proofs

open Sys2Proof.Machine Sys2Proof.Safety Sys2Proof.Spec Sys2Proof.Laws

/-! ## Format preconditions -/

section
variable (c : Config)

theorem sqrtFormat_iff : sqrtFormat c.toFormat = true ↔ 1 ≤ c.f ∧ WholeBits c 1 := by
  simp [sqrtFormat, wholeBits_iff]

theorem logFormat_iff : logFormat c.toFormat = true ↔ WholeBits c 2 := by
  simp [logFormat, wholeBits_iff]

theorem expFormat_iff : expFormat c.toFormat = true ↔ WholeBits c 1 := by
  simp [expFormat, wholeBits_iff]

theorem exp10Format_iff : exp10Format c.toFormat = true ↔ WholeBits c 2 := by
  simp [exp10Format, wholeBits_iff]

theorem acosFormat_iff : acosFormat c.toFormat = true ↔ c.s = .signed ∧ 1 ≤ c.f ∧ WholeBits c 2 := by
  simp [acosFormat, wholeBits_iff, and_assoc]

end

/-- R32: the whole bits stand above the fraction bits. -/
theorem f_add_le_t {c : Config} {n : Nat} (hw : WholeBits c n) : c.f + n ≤ c.t := by
  unfold WholeBits at hw
  split at hw <;> omega

/-- R32: with one whole bit 1.0 is a raw value. -/
theorem two_pow_f_lt {c : Config} (hw : WholeBits c 1) : 2 ^ c.f < 2 ^ c.t :=
  Nat.pow_lt_pow_right one_lt_two (f_add_le_t hw)

theorem wholeBits_mono {c : Config} {m n : Nat} (hmn : m ≤ n) (hw : WholeBits c n) : WholeBits c m := by
  unfold WholeBits at *
  split at hw <;> omega

/-! ## Raw values -/

/-- R38: a raw value up to a positive one is its own numeric value. -/
theorem tv_of_le {c : Config} {a b : Nat} (hab : a ≤ b) (hb : b < 2 ^ c.t) (hpos : 0 < tv c b) : tv c a = a := by
  unfold tv twos at *
  zify at hb
  split at hpos
  · next hs =>
    rw [if_pos hs]
    split at hpos
    · rw [if_pos (by omega)]
    · omega
  · next hs => rw [if_neg hs]

/-- R38: a raw value below 2^(T-1) is its own numeric value. -/
theorem tv_of_small {c : Config} {a : Nat} (ha : 2 * a < 2 ^ c.t) : tv c a = a := by
  rw [tv, twos, if_pos ha, ite_self]

section
variable {c : Config} (h : Admitted c)
include h

/-- R113: the model's internal constant is the statement's. -/
theorem cf_eq_cfq (d : Word) : cf c d = cfq c d := by
  rw [cf, cfq, reduce_eq_red h, truncScaled_eq_truncQ]

theorem cfq_lt (d : Word) : cfq c d < 2 ^ c.t := red_lt h _

theorem mulq_lt (a b : Nat) : mulq c a b < 2 ^ c.t := red_lt h _

theorem divq_lt (a b : Nat) : divq c a b < 2 ^ c.t := red_lt h _

theorem addq_lt {a b : Nat} (ha : a < 2 ^ c.t) (hb : b < 2 ^ c.t) : addq c a b < 2 ^ c.t := by
  rw [← add_eq_addq h ha hb]
  exact add_lt c a b

theorem red_natCast {n : Nat} (hn : n < 2 ^ c.t) : red c n = n := by
  rw [← reduce_eq_red h, reduce_natCast (admitted_t_le_w h) hn]

/-- R38: a raw value below 2^(T-1) reads as itself. -/
theorem iv_of_small {a : Nat} (ha : 2 * a < 2 ^ c.t) : iv c a = a := by
  rw [iv_eq_uval h (by omega), uval_of_small h ha]

theorem red_iv {a : Nat} (ha : a < 2 ^ c.t) : red c (iv c a) = a := by
  rw [red, iv_eq_uval h ha, uval, ival_emod (admitted_t_le_w h) ha, Int.toNat_natCast]

theorem mulq_zero (a : Nat) : mulq c a 0 = 0 := by
  rw [mulq, iv_of_small h (a := 0) (by positivity), Nat.cast_zero, mul_zero, Int.zero_ediv]
  rfl

/-- R165: adding zero changes no raw value, under either policy. -/
theorem addq_zero {a : Nat} (ha : a < 2 ^ c.t) : addq c a 0 = a := by
  have htv : tv c a + tv c 0 = tv c a := by
    rw [(tv_eq_zero_iff (by positivity : 0 < 2 ^ c.t)).mpr rfl, add_zero]
  obtain ⟨-, -, -, -, hpolicy, -⟩ := admitted_spec h
  cases hp : c.policy with
  | invalid => exact absurd hp hpolicy
  | wrap => rw [addq_wrap _ _ hp, htv, red_tv ha]
  | sat =>
    cases hs : c.s with
    | unsigned =>
      rw [addq_sat_unsigned _ _ hp hs, Nat.add_zero]
      omega
    | signed =>
      obtain ⟨hlo, hhi⟩ := sext_range (admitted_t_pos h) ha
      rw [← twos_eq_sext ha, show twos c.t a = tv c a by rw [tv, if_pos hs]] at hlo hhi
      rw [addq_sat_signed _ _ hp hs, htv, min_eq_left hhi, max_eq_right hlo, red_tv ha]

/-! ## Values up to 1.0 -/

section
variable (hw : WholeBits c 1)
include hw

theorem one_eq_two_pow_f : one c.toFormat = 2 ^ c.f := by
  rw [one_eq h, Nat.mod_eq_of_lt (two_pow_f_lt hw)]

/-- R32: a value up to 1.0 reads as itself. -/
theorem uval_of_le_one {a : Nat} (ha : a ≤ 2 ^ c.f) : uval c a = a :=
  uval_of_lt_two h ((expFormat_iff c).mpr hw) (by rw [pow_succ]; have := Nat.two_pow_pos c.f; omega)

/-- R180: below 1.0 the unit's product is the floor-shifted one, with nothing to reduce. -/
theorem mul_below_one {a b : Nat} (ha : a ≤ 2 ^ c.f) (hb : b < 2 ^ c.f) : mul c a b = a * b / 2 ^ c.f := by
  have hle : a * b / 2 ^ c.f ≤ b := by
    rw [Nat.div_le_iff_le_mul_add_pred (by positivity)]
    exact (Nat.mul_le_mul_right b ha).trans (Nat.le_add_right _ _)
  rw [mul_natCast h (uval_of_le_one h hw ha) (uval_of_le_one h hw hb.le),
    Nat.mod_eq_of_lt (by have := two_pow_f_lt hw; omega)]

theorem mulq_one {a : Nat} (ha : a < 2 ^ c.t) : mulq c a (2 ^ c.f) = a := by
  rw [mulq, iv_eq_uval h (two_pow_f_lt hw), uval_of_le_one h hw le_rfl, Nat.cast_pow, Nat.cast_ofNat,
    Int.mul_ediv_cancel _ (by positivity), red_iv h ha]

end

/-! ## Signed values -/

variable (hs : c.s = .signed)
include hs

/-- R38: an integer in the signed range is the numeric value of its reduction. -/
theorem tv_red_of_range {v : Int} (hlo : -2 ^ (c.t - 1) ≤ v) (hhi : v < 2 ^ (c.t - 1)) : tv c (red c v) = v := by
  have hpow : (2 : Int) ^ c.t = 2 * 2 ^ (c.t - 1) := by exact_mod_cast two_pow_pred (admitted_t_pos h)
  have hred : (red c v : Int) = v % 2 ^ c.t := by rw [← reduce_eq_red h, reduce_eq_emod (admitted_t_le_w h)]
  rw [tv, if_pos hs, twos]
  zify
  rw [hred]
  rcases le_or_gt 0 v with hv | hv
  · rw [Int.emod_eq_of_lt hv (by omega), if_pos (by omega)]
  · rw [← Int.add_emod_right, Int.emod_eq_of_lt (by omega) (by omega), if_neg (by omega), add_sub_cancel_right]

variable {x : Nat} (hx : x < 2 ^ c.t)
include hx

theorem tv_natAbs_le_half : (tv c x).natAbs ≤ 2 ^ (c.t - 1) := by
  obtain ⟨hlo, hhi⟩ := sext_range (admitted_t_pos h) hx
  rw [tv, if_pos hs, twos_eq_sext hx]
  zify
  exact abs_le.mpr ⟨hlo, by omega⟩

theorem tv_natAbs_lt : (tv c x).natAbs < 2 ^ c.t :=
  (tv_natAbs_le_half h hs hx).trans_lt (Nat.pow_lt_pow_right one_lt_two (by have := admitted_t_pos h; omega))

/-- R184: the magnitude is a raw value, that of the smallest value included. -/
theorem absVal_eq_natAbs : absVal c x = (tv c x).natAbs := by
  rw [absVal_eq_red h hx, Int.abs_eq_natAbs, red_natCast h (tv_natAbs_lt h hs hx)]

end

end Sys2Proof.Proofs
end

section
/-! PROOFS. How the nine elementary commands end (43_elementary.md R210), and what they do in a format too
narrow for them. -/

namespace Sys2Proof.Proofs

open Sys2Proof.Machine Sys2Proof.Safety Sys2Proof.Spec Sys2Proof.Laws

/-- R210(b): each elementary command checks its format first. -/
theorem exec_eq_requireFormat {i : Instr} (hi : Elementary i) (s : State) :
    ∃ r, exec i s = conclude i s (requireFormat (formatOk s.cfg.toFormat i) r) := by
  cases i with
  | fxsqrt | fxlog2 | fxln | fxlog10 | fxexp2 | fxexp | fxexp10 | fxpow | fxacos => exact ⟨_, rfl⟩
  | _ => exact hi.elim

/-! ## How the commands end -/

section
variable {i : Instr} {s : State} {rd : Reg} (h : Admitted s.cfg)
include h

theorem faults_of_unsupported (hi : Elementary i) (hf : ¬formatOk s.cfg.toFormat i = true) :
    Faults i s .fmtUnsupported := by
  obtain ⟨r, hr⟩ := exec_eq_requireFormat hi s
  rw [Bool.not_eq_true] at hf
  rw [Faults, hr, hf]
  exact conclude_error h _

/-- R210(c): an elementary command that ends with a value and an error record completes, with the statements'
frame. -/
theorem completes_of_conclude_wrErr {v : Nat} {e : ErrRecord}
    (he : exec i s = conclude i s (.ok (wrErr rd v e))) : Completes i s rd (BitVec.ofNat 64 v) e := by
  rw [conclude_ok h] at he
  refine ⟨_, he, bank_get_set_same _ _ _, fun r hr => bank_get_set_of_ne _ _ hr, fun r => ?_, rfl, rfl, rfl, rfl,
    rfl, rfl⟩
  rw [commit_written, bank_get_set]
  by_cases hr : r = rd <;> simp [wrErr, hr]

variable {v : Except Cause Nat} (he : exec i s = conclude i s (okResult rd v))
include he

theorem completes_of_okResult {n : Nat} (hv : v = .ok n) :
    Completes i s rd (BitVec.ofNat 64 n) ErrRecord.ok := by
  subst hv
  exact completes_of_conclude_wrErr h he

theorem faults_of_okResult {c : Cause} (hv : v = .error c) : Faults i s c := by
  subst hv
  rw [Faults, he]
  exact conclude_error h c

end

/-- Settles O49: the row of R210(b) is the format that the command checks before all else. -/
theorem narrowFormatsAreUnsupported : Obligations.NarrowFormatsAreUnsupported := by
  intro s rd a b h
  refine ⟨fun hn => ?_, fun hn => ?_, fun hn => ?_, fun hn => ?_⟩
  · exact faults_of_unsupported h trivial (mt (sqrtFormat_iff _).mp hn)
  · have hlog := mt (logFormat_iff _).mp hn
    exact ⟨faults_of_unsupported h trivial hlog, faults_of_unsupported h trivial hlog,
      faults_of_unsupported h trivial hlog, faults_of_unsupported h trivial hlog,
      faults_of_unsupported h trivial (mt (exp10Format_iff _).mp hn)⟩
  · have hexp := mt (expFormat_iff _).mp hn
    exact ⟨faults_of_unsupported h trivial hexp, faults_of_unsupported h trivial hexp⟩
  · exact faults_of_unsupported h trivial (mt (acosFormat_iff _).mp hn)

/-! ## The results that the commands end with -/

section
variable {s : State} (h : Admitted s.cfg) (rd a : Reg)
include h

theorem exec_fxsqrt (hf : sqrtFormat s.cfg.toFormat = true) :
    exec (.fxsqrt rd a) s = conclude (.fxsqrt rd a) s (okResult rd (sqrtCore s.cfg (raw s a))) := by
  rw [exec, execFxsqrt, hf, opnd_eq_raw h, requireFormat, if_pos rfl]

theorem exec_fxlog2 (hf : logFormat s.cfg.toFormat = true) : exec (.fxlog2 rd a) s =
    conclude (.fxlog2 rd a) s (.ok (wrErr rd (log2Core s.cfg (raw s a)).1 (log2Core s.cfg (raw s a)).2)) := by
  rw [exec, execFxlog2, hf, opnd_eq_raw h, requireFormat, if_pos rfl]

theorem exec_fxln (hf : logFormat s.cfg.toFormat = true) : exec (.fxln rd a) s =
    conclude (.fxln rd a) s
      (afterLog rd (log2Core s.cfg (raw s a)) fun l => .ok (mul s.cfg (cf s.cfg ln2Const) l)) := by
  rw [exec, execFxln, hf, opnd_eq_raw h, requireFormat, if_pos rfl]

theorem exec_fxlog10 (hf : logFormat s.cfg.toFormat = true) : exec (.fxlog10 rd a) s =
    conclude (.fxlog10 rd a) s
      (afterLog rd (log2Core s.cfg (raw s a)) fun l => .ok (mul s.cfg (cf s.cfg log10Of2) l)) := by
  rw [exec, execFxlog10, hf, opnd_eq_raw h, requireFormat, if_pos rfl]

theorem exec_fxpow (b : Reg) (hf : logFormat s.cfg.toFormat = true) : exec (.fxpow rd a b) s =
    conclude (.fxpow rd a b) s
      (afterLog rd (log2Core s.cfg (raw s a)) fun l => exp2Core s.cfg (mul s.cfg (raw s b) l)) := by
  rw [exec, execFxpow, hf, opnd_eq_raw h, opnd_eq_raw h, requireFormat, if_pos rfl]

theorem exec_fxexp2 (hf : expFormat s.cfg.toFormat = true) :
    exec (.fxexp2 rd a) s = conclude (.fxexp2 rd a) s (okResult rd (exp2Core s.cfg (raw s a))) := by
  rw [exec, execFxexp2, hf, opnd_eq_raw h, requireFormat, if_pos rfl]

theorem exec_fxexp (hf : expFormat s.cfg.toFormat = true) : exec (.fxexp rd a) s =
    conclude (.fxexp rd a) s
      (okResult rd (exp2Core s.cfg (mul s.cfg (cf s.cfg log2OfE) (raw s a)))) := by
  rw [exec, execFxexp, hf, opnd_eq_raw h, requireFormat, if_pos rfl]

theorem exec_fxexp10 (hf : exp10Format s.cfg.toFormat = true) : exec (.fxexp10 rd a) s =
    conclude (.fxexp10 rd a) s
      (okResult rd (exp2Core s.cfg (mul s.cfg (cf s.cfg log2Of10) (raw s a)))) := by
  rw [exec, execFxexp10, hf, opnd_eq_raw h, requireFormat, if_pos rfl]

theorem exec_fxacos (hf : acosFormat s.cfg.toFormat = true) :
    exec (.fxacos rd a) s = conclude (.fxacos rd a) s (okResult rd (acosCore s.cfg (raw s a))) := by
  rw [exec, execFxacos, hf, opnd_eq_raw h, requireFormat, if_pos rfl]

end

end Sys2Proof.Proofs
end

section
/-! PROOFS. The square root (43_elementary.md R212, R213): the model's loop with its early exit and the Newton
iterates without one. -/

namespace Sys2Proof.Proofs

open Sys2Proof.Machine Sys2Proof.Safety Sys2Proof.Spec Sys2Proof.Laws

/-! ## The Newton step -/

/-- R212: an iterate that equals its predecessor repeats. -/
theorem newton_fixed {c : Config} {x n : Nat} (hfix : newton c x (n + 1) = newton c x n) (k : Nat) :
    newton c x (n + k) = newton c x n := by
  induction k with
  | zero => rfl
  | succ k ih => rw [← Nat.add_assoc, newton, ih, ← newton, hfix]

section
variable {c : Config} (h : Admitted c)
include h

theorem newton_lt {x : Nat} (hx : x < 2 ^ c.t) (n : Nat) : newton c x n < 2 ^ c.t := by
  cases n with
  | zero => exact hx
  | succ n => exact red_lt h _

theorem newtonStep_zero (x : Nat) : newtonStep c x 0 = .error .divZero := by
  rw [newtonStep, div_zero h]

variable (hf : 1 ≤ c.f) (hw : WholeBits c 1)
include hf hw

/-- R212: the product with 0.5, floor-shifted, halves the reading. -/
theorem mul_half {a : Nat} (ha : a < 2 ^ c.t) : mul c (cf c halfConst) a = red c (iv c a / 2) := by
  have hpow : 2 ^ c.f = 2 ^ (c.f - 1) * 2 := (two_pow_pred hf).trans (Nat.mul_comm _ _)
  have hlt := two_pow_f_lt hw
  rw [cf_half h hf, mul_eq_mulq h (by omega) ha, mulq, iv_of_small h (by omega)]
  congr 1
  zify at hpow
  rw [hpow, Nat.cast_pow, Nat.cast_ofNat, Int.mul_ediv_mul_of_pos _ _ (by positivity)]

variable {x : Nat} (hx : x < 2 ^ c.t)
include hx

theorem newtonStep_newton {n : Nat} (h0 : newton c x n ≠ 0) :
    newtonStep c x (newton c x n) = .ok (newton c x (n + 1)) := by
  have hX := newton_lt h hx n
  have hq := divq_lt h x (newton c x n)
  rw [newtonStep, div_eq_divq h hx hX h0]
  simp only
  rw [add_eq_addq h hX hq, mul_half h hf hw (addq_lt h hX hq), newton]

/-! ## The loop and its early exit -/

/-- The loop from iterate m, when it divides by no zero: the exit on identical storage skips only repetitions. -/
theorem newtonLoop_runs (n : Nat) : ∀ m, (∀ k < n, newton c x (m + k) ≠ 0) →
    newtonLoop c x n (newton c x m) = .ok (newton c x (m + n)) := by
  induction n with
  | zero => intro m _; rfl
  | succ n ih =>
    intro m hne
    rw [newtonLoop, newtonStep_newton h hf hw hx (n := m) (hne 0 n.succ_pos)]
    simp only
    split
    · next hfix => rw [newton_fixed hfix]
    · have hrest := ih (m + 1) fun k hk => by
        rw [Nat.add_right_comm]
        exact hne (k + 1) (by omega)
      rw [hrest, Nat.add_right_comm, Nat.add_assoc]

/-- The loop from iterate m, when it comes to divide by zero: no iterate repeats before that. -/
theorem newtonLoop_stops (n : Nat) : ∀ m, (∃ k < n, newton c x (m + k) = 0) →
    newtonLoop c x n (newton c x m) = .error .divZero := by
  induction n with
  | zero => rintro m ⟨k, hk, -⟩; exact absurd hk k.not_lt_zero
  | succ n ih =>
    rintro m ⟨k, hk, hzero⟩
    rw [newtonLoop]
    by_cases h0 : newton c x m = 0
    · rw [h0, newtonStep_zero h]
    · rw [newtonStep_newton h hf hw hx h0]
      simp only
      rw [if_neg fun hfix => h0 (newton_fixed hfix k ▸ hzero)]
      cases k with
      | zero => exact absurd hzero h0
      | succ k => exact ih (m + 1) ⟨k, by omega, by rwa [Nat.add_right_comm]⟩

end

/-! ## The core -/

section
variable {c : Config} (h : Admitted c) {x : Nat}
include h

theorem sqrtCore_neg (hx : x < 2 ^ c.t) (hneg : tv c x < 0) : sqrtCore c x = .error .sqrtNeg := by
  rw [sqrtCore, isNeg_eq_tv hx (admitted_t_pos h), if_pos (decide_eq_true hneg)]

theorem isNeg_zero : isNeg c.toFormat 0 = false :=
  isNeg_of_small (admitted_t_pos h) (by positivity)

theorem sqrtCore_guarded_zero (hg : c.sqrtZeroGuard = true) : sqrtCore c 0 = .ok 0 := by
  simp [sqrtCore, isNeg_zero h, hg]

theorem sqrtCore_unguarded_zero (hg : c.sqrtZeroGuard = false) : sqrtCore c 0 = .error .divZero := by
  obtain ⟨-, -, -, -, -, hiter, -⟩ := admitted_spec h
  obtain ⟨n, hn⟩ : ∃ n, c.sqrtIterMax = n + 1 := ⟨c.sqrtIterMax - 1, by omega⟩
  simp [sqrtCore, isNeg_zero h, hg, hn, newtonLoop, newtonStep_zero h]

variable (hx : x < 2 ^ c.t) (hpos : 0 < tv c x)
include hx hpos

theorem sqrtCore_pos : sqrtCore c x = newtonLoop c x c.sqrtIterMax (newton c x 0) := by
  have h0 : x ≠ 0 := fun h0 => hpos.ne' ((tv_eq_zero_iff hx).mpr h0)
  rw [sqrtCore, isNeg_eq_tv hx (admitted_t_pos h), if_neg (by simpa using hpos.le), if_neg (fun hz => h0 hz.1),
    newton]

variable (hf : 1 ≤ c.f) (hw : WholeBits c 1)
include hf hw

theorem sqrtCore_runs (hr : NewtonRuns c x) : sqrtCore c x = .ok (newton c x c.sqrtIterMax) := by
  rw [sqrtCore_pos h hx hpos,
    newtonLoop_runs h hf hw hx _ 0 fun k hk => by rw [Nat.zero_add]; exact hr k hk, Nat.zero_add]

theorem sqrtCore_stops (hr : ¬NewtonRuns c x) : sqrtCore c x = .error .divZero := by
  unfold NewtonRuns at hr
  push Not at hr
  obtain ⟨k, hk, hzero⟩ := hr
  rw [sqrtCore_pos h hx hpos, newtonLoop_stops h hf hw hx _ 0 ⟨k, hk, by rwa [Nat.zero_add]⟩]

end

/-- Settles O50: `sqrtCore` on each kind of operand. -/
theorem fxsqrtIsTheNewtonIterate : Obligations.FxsqrtIsTheNewtonIterate := by
  intro s rd a h hf hw
  have he := exec_fxsqrt h rd a ((sqrtFormat_iff _).mpr ⟨hf, hw⟩)
  have hx := raw_lt s a
  refine ⟨fun hneg => ?_, fun h0 hg => ?_, fun h0 hg => ?_, fun hpos hr => ?_, fun hpos hr => ?_⟩
  · exact faults_of_okResult h he (sqrtCore_neg h hx hneg)
  · exact completes_of_okResult h he (h0 ▸ sqrtCore_guarded_zero h hg)
  · exact faults_of_okResult h he (h0 ▸ sqrtCore_unguarded_zero h hg)
  · exact completes_of_okResult h he (sqrtCore_runs h hx hpos hf hw hr)
  · exact faults_of_okResult h he (sqrtCore_stops h hx hpos hf hw hr)

end Sys2Proof.Proofs
end

section
/-! PROOFS. The base-2 logarithm and the commands that scale it (43_elementary.md R214 to R217), with the error
records of the log2 family (60_exceptions.md R277, R278). -/

namespace Sys2Proof.Proofs

open Sys2Proof.Machine Sys2Proof.Safety Sys2Proof.Spec Sys2Proof.Laws

/-! ## Domain errors -/

theorem log2Core_zero (c : Config) : log2Core c 0 = (0, errZeroArgument) := rfl

/-- R278: an error record is written as it is, with the value 0, and no further step is done. -/
theorem afterLog_error {e : ErrRecord} (he : errValid e = false) (rd : Reg) (after : Nat → Except Cause Nat) :
    afterLog rd (0, e) after = .ok (wrErr rd 0 e) := by
  simp [afterLog, he]

/-- R278: without an error the command goes on from the logarithm. -/
theorem afterLog_ok (rd : Reg) (l : Nat) (after : Nat → Except Cause Nat) :
    afterLog rd (l, ErrRecord.ok) after = okResult rd (after l) := rfl

/-- R214, R278: what the whole log2 family does with an argument for which log2_core reports an error. -/
theorem logFamily_completes_error {s : State} (h : Admitted s.cfg) (hw : WholeBits s.cfg 2) (rd b : Reg) {a : Reg}
    {e : ErrRecord} (hlog : log2Core s.cfg (raw s a) = (0, e)) (he : errValid e = false) :
    Completes (.fxlog2 rd a) s rd 0 e ∧ Completes (.fxln rd a) s rd 0 e ∧
      Completes (.fxlog10 rd a) s rd 0 e ∧ Completes (.fxpow rd a b) s rd 0 e := by
  have hf := (logFormat_iff _).mpr hw
  have hlog2 := exec_fxlog2 h rd a hf
  have hln := exec_fxln h rd a hf
  have hlog10 := exec_fxlog10 h rd a hf
  have hpow := exec_fxpow h rd a b hf
  rw [hlog] at hlog2
  rw [hlog, afterLog_error he] at hln hlog10 hpow
  exact ⟨completes_of_conclude_wrErr h hlog2, completes_of_conclude_wrErr h hln,
    completes_of_conclude_wrErr h hlog10, completes_of_conclude_wrErr h hpow⟩

theorem log2Core_neg {c : Config} (h : Admitted c) {x : Nat} (hx : x < 2 ^ c.t) (hneg : tv c x < 0) :
    log2Core c x = (0, errNegativeArgument) := by
  rcases log2Core_cases c x with ⟨h0, -⟩ | ⟨-, -, heq⟩ | ⟨-, hn, -⟩
  · exact absurd ((tv_eq_zero_iff hx).mpr h0) hneg.ne
  · exact heq
  · rw [isNeg_eq_tv hx (admitted_t_pos h), decide_eq_false_iff_not] at hn
    exact absurd hneg hn

/-- Settles O51: a zero and a negative argument each give one error record, and no command of the family goes on
from it. -/
theorem logDomainErrorsGoToErr : Obligations.LogDomainErrorsGoToErr := by
  intro s rd a b h hw
  refine ⟨fun h0 => ?_, fun hneg => ?_⟩
  · exact logFamily_completes_error h hw rd b (h0 ▸ log2Core_zero s.cfg) rfl
  · exact logFamily_completes_error h hw rd b (log2Core_neg h (raw_lt s a) hneg) rfl

/-! ## Turner's recurrence -/

/-- A raw value scaled by the position of its leading bit, which brings a positive one into [1.0, 2.0). -/
def normalized (f x : Nat) : Nat := if x.log2 ≤ f then x * 2 ^ (f - x.log2) else x / 2 ^ (x.log2 - f)

theorem log2q_eq_normalized (f x : Nat) :
    log2q f x = ((x.log2 : Int) - f) * 2 ^ f + turnerBits f f (normalized f x) := rfl

theorem log2_mul_two_pow {x : Nat} (h0 : x ≠ 0) (k : Nat) : (x * 2 ^ k).log2 = x.log2 + k := by
  rw [Nat.log2_eq_iff (by positivity), pow_add, Nat.add_right_comm, pow_add]
  exact ⟨Nat.mul_le_mul_right _ (Nat.log2_self_le h0), Nat.mul_lt_mul_of_pos_right Nat.lt_log2_self (by positivity)⟩

/-- k doublings and j halvings that bring x into [1.0, 2.0) normalize it. -/
theorem normalized_eq {f x j k : Nat} (hlog : x.log2 + k = f + j) : x * 2 ^ k / 2 ^ j = normalized f x := by
  unfold normalized
  split
  · rw [Nat.mul_div_assoc _ (pow_dvd_pow 2 (by omega)), Nat.pow_div (by omega) two_pos,
      show k - j = f - x.log2 by omega]
  · rw [show j = (x.log2 - f) + k by omega, pow_add, Nat.mul_div_mul_right _ _ (by positivity)]

section
variable {c : Config} {x : Nat} (hx : x < 2 ^ c.t) (h0 : x ≠ 0)
include hx h0

/-- R214: range reduction normalizes, and counts the position of the leading bit. -/
theorem rangeReduce_eq : rangeReduce c x = (normalized c.f x, ((x.log2 : Int) - c.f) * 2 ^ c.f) := by
  obtain ⟨k, -, hup, hlo, hhi⟩ := doubleUp_spec c.f c.f x 0 (Nat.le_mul_of_pos_left _ (by omega))
  have hfuel : x * 2 ^ k < 2 ^ (c.f + 1 + c.t) := by
    rcases hhi with rfl | hhi
    · rw [pow_zero, mul_one]
      exact hx.trans_le (Nat.pow_le_pow_right two_pos (by omega))
    · exact hhi.trans_le (Nat.pow_le_pow_right two_pos (by omega))
  obtain ⟨j, -, hdown, hlo', hhi'⟩ := halveDown_spec c.f c.t (x * 2 ^ k) (0 - k * 2 ^ c.f) hlo hfuel
  have hlog : x.log2 + k = c.f + j := by
    rw [← log2_mul_two_pow h0, Nat.log2_eq_iff (by positivity), pow_add, Nat.add_right_comm, pow_add _ (c.f + 1)]
    exact ⟨(Nat.le_div_iff_mul_le (by positivity)).mp hlo', (Nat.div_lt_iff_lt_mul (by positivity)).mp hhi'⟩
  rw [rangeReduce, hup, hdown, normalized_eq hlog, show (x.log2 : Int) - c.f = j - k by omega]
  congr 1
  ring

theorem normalized_bounds : 2 ^ c.f ≤ normalized c.f x ∧ normalized c.f x < 2 ^ (c.f + 1) := by
  have hspec := rangeReduce_spec (Nat.one_le_iff_ne_zero.mpr h0) hx
  rwa [rangeReduce_eq hx h0] at hspec

end

section
variable {c : Config} (h : Admitted c) (hw : WholeBits c 2)
include h hw

/-- R215: the bits the model adds with their weights are the fraction bits of the recurrence. -/
theorem turner_eq (n : Nat) : ∀ {z : Nat} (y : Int), 2 ^ c.f ≤ z → z < 2 ^ (c.f + 1) →
    turner c n z y (2 ^ n / 2) = y + turnerBits c.f n z := by
  induction n with
  | zero => intros; simp [turner, turnerBits]
  | succ n ih =>
    intro z y hlo hhi
    have hbit : 2 ^ (n + 1) / 2 = 2 ^ n := Nat.mul_div_cancel _ two_pos
    rw [hbit, turnerBits]
    obtain ⟨z', hlo', hhi', ⟨hge, rfl, hstep⟩ | ⟨hlt, rfl, hstep⟩⟩ :=
      turner_succ h ((logFormat_iff c).mpr hw) hlo hhi n y (2 ^ n)
    · rw [hstep, ih _ hlo' hhi', if_pos hge]
      push_cast
      ring
    · rw [hstep, ih _ hlo' hhi', if_neg (by omega)]

theorem log2Sum_eq_log2q {x : Nat} (hx : x < 2 ^ c.t) (h0 : x ≠ 0) : log2Sum c x = log2q c.f x := by
  have hbit : (if c.f = 0 then 0 else 2 ^ (c.f - 1)) = 2 ^ c.f / 2 := by
    split
    · next hf => rw [hf]; rfl
    · next hf => rw [two_pow_pred (by omega : 1 ≤ c.f), Nat.mul_div_cancel_left _ two_pos]
  obtain ⟨hlo, hhi⟩ := normalized_bounds hx h0
  rw [log2Sum, rangeReduce_eq hx h0, log2q_eq_normalized, hbit]
  exact turner_eq h hw c.f _ hlo hhi

theorem log2Core_pos {x : Nat} (hx : x < 2 ^ c.t) (hpos : 0 < tv c x) :
    log2Core c x = (red c (log2q c.f x), ErrRecord.ok) := by
  have h0 : x ≠ 0 := mt (tv_eq_zero_iff hx).mpr hpos.ne'
  rcases log2Core_cases c x with ⟨hz, -⟩ | ⟨-, hn, -⟩ | ⟨-, -, heq⟩
  · exact absurd hz h0
  · rw [isNeg_eq_tv hx (admitted_t_pos h), decide_eq_true_iff] at hn
    exact absurd hpos hn.not_gt
  · rw [heq, log2Sum_eq_log2q h hw hx h0, reduce_eq_red h]

end

/-! ## FXLOG2, FXLN and FXLOG10 of a positive operand -/

section
variable {s : State} (h : Admitted s.cfg) (hw : WholeBits s.cfg 2) {a : Reg} (hpos : 0 < tv s.cfg (raw s a))
include h hw hpos

theorem exec_fxlog2_pos (rd : Reg) : exec (.fxlog2 rd a) s =
    conclude (.fxlog2 rd a) s (.ok (wrErr rd (red s.cfg (log2q s.cfg.f (raw s a))) ErrRecord.ok)) := by
  rw [exec_fxlog2 h rd a ((logFormat_iff _).mpr hw), log2Core_pos h hw (raw_lt s a) hpos]

/-- R216, R217: a command that goes on to scale the logarithm by an internal constant. -/
theorem completes_scaledLog {i : Instr} {rd : Reg} {d : Word} (he : exec i s = conclude i s
      (afterLog rd (log2Core s.cfg (raw s a)) fun l => .ok (mul s.cfg (cf s.cfg d) l))) :
    Completes i s rd (BitVec.ofNat 64 (mulq s.cfg (cfq s.cfg d) (red s.cfg (log2q s.cfg.f (raw s a)))))
      ErrRecord.ok := by
  rw [log2Core_pos h hw (raw_lt s a) hpos, afterLog_ok] at he
  refine completes_of_okResult h he ?_
  rw [mul_eq_mulq h (cf_lt _ _) (red_lt h _), cf_eq_cfq h]

end

/-- Settles O52: `log2Core` of a positive operand, written zero-extended. -/
theorem fxlog2IsTurnersRecurrence : Obligations.Fxlog2IsTurnersRecurrence := by
  intro s rd a h hw hpos
  rw [← ofNat_red h]
  exact completes_of_conclude_wrErr h (exec_fxlog2_pos h hw hpos rd)

/-- Settles O53: both commands scale the same logarithm, by the model's patterns of ln 2 and log10 2. -/
theorem fxlnAndFxlog10ScaleLog2 : Obligations.FxlnAndFxlog10ScaleLog2 := by
  intro s rd a h hw hpos
  have hf := (logFormat_iff _).mpr hw
  exact ⟨completes_scaledLog h hw hpos (exec_fxln h rd a hf), completes_scaledLog h hw hpos (exec_fxlog10 h rd a hf)⟩

end Sys2Proof.Proofs
end

section
/-! PROOFS. The base-2 exponential and the commands that end in it (43_elementary.md R218 to R221, R223): the
model's Taylor loop with its early exit and the series without one. -/

namespace Sys2Proof.Proofs

open Sys2Proof.Machine Sys2Proof.Safety Sys2Proof.Spec Sys2Proof.Laws

/-! ## Terms of the series -/

/-- R223: with q below 1.0 no product exceeds the term it is made from. -/
theorem mul_div_two_pow_le {f q : Nat} (hq : q < 2 ^ f) (a : Nat) : a * q / 2 ^ f ≤ a :=
  calc a * q / 2 ^ f ≤ a * 2 ^ f / 2 ^ f := Nat.div_le_div_right (Nat.mul_le_mul_left _ hq.le)
    _ = a := Nat.mul_div_cancel _ (by positivity)

/-- R223: with q below 1.0 no term exceeds 1.0. -/
theorem taylorTerm_le {f q : Nat} (hq : q < 2 ^ f) (n : Nat) : taylorTerm f q n ≤ 2 ^ f := by
  induction n with
  | zero => exact le_rfl
  | succ n ih => exact (Nat.div_le_self _ _).trans ((mul_div_two_pow_le hq _).trans ih)

theorem taylorTerm_lt {c : Config} (hw : WholeBits c 1) {q : Nat} (hq : q < 2 ^ c.f) (n : Nat) :
    taylorTerm c.f q n < 2 ^ c.t :=
  (taylorTerm_le hq n).trans_lt (two_pow_f_lt hw)

/-- After a term that is zero every term is. -/
theorem taylorTerm_zero {f q n : Nat} (h0 : taylorTerm f q n = 0) (k : Nat) : taylorTerm f q (n + k) = 0 := by
  induction k with
  | zero => exact h0
  | succ k ih => rw [← Nat.add_assoc, taylorTerm, ih, Nat.zero_mul, Nat.zero_div, Nat.zero_div]

section
variable {c : Config} (h : Admitted c) (hw : WholeBits c 1) {q : Nat} (hq : q < 2 ^ c.f)
include h hw hq

/-- R218: one term, from the one before. -/
theorem divi_mul_taylorTerm (n : Nat) :
    divi c (mul c (taylorTerm c.f q n) q) (n + 1) = taylorTerm c.f q (n + 1) := by
  have hle : taylorTerm c.f q n * q / 2 ^ c.f ≤ 2 ^ c.f := (mul_div_two_pow_le hq _).trans (taylorTerm_le hq n)
  rw [mul_below_one h hw (taylorTerm_le hq n) hq, divi_natCast h (uval_of_le_one h hw hle)]
  exact Nat.mod_eq_of_lt (taylorTerm_lt hw hq (n + 1))

theorem taylorq_lt (n : Nat) : taylorq c q n < 2 ^ c.t := by
  induction n with
  | zero => exact two_pow_f_lt hw
  | succ n ih => exact addq_lt h ih (taylorTerm_lt hw hq _)

/-- Terms that are zero add nothing to the sum. -/
theorem taylorq_of_term_zero {n : Nat} (h0 : taylorTerm c.f q (n + 1) = 0) (k : Nat) :
    taylorq c q (n + k) = taylorq c q n := by
  induction k with
  | zero => rfl
  | succ k ih =>
    rw [← Nat.add_assoc, taylorq, Nat.add_right_comm, taylorTerm_zero h0, ih, addq_zero h (taylorq_lt h hw hq n)]

/-- R218, R223: the loop from term n + 1; the exit on a term that rounds to zero skips only zeros. -/
theorem taylorLoop_eq (k : Nat) : ∀ n,
    taylorLoop c q k (n + 1) (taylorTerm c.f q n) (taylorq c q n) = taylorq c q (n + k) := by
  induction k with
  | zero => intro n; rfl
  | succ k ih =>
    intro n
    rw [taylorLoop, divi_mul_taylorTerm h hw hq]
    split
    · next h0 => rw [taylorq_of_term_zero h hw hq h0]
    · rw [add_eq_addq h (taylorq_lt h hw hq n) (taylorTerm_lt hw hq _), ← taylorq, ih, Nat.add_right_comm,
        Nat.add_assoc]

end

/-! ## The core -/

/-- R218: 2^i wraps to 0 from F + i = T on. -/
theorem intPower_eq {c : Config} (h : Admitted c) (i : Nat) : intPower c i = red c (2 ^ (c.f + i)) := by
  unfold intPower
  split
  · next ht =>
    rw [red, Int.emod_eq_zero_of_dvd (pow_dvd_pow 2 ht), Int.toNat_zero]
  · rw [reduce_eq_red h]

theorem exp2q_lt {c : Config} (h : Admitted c) (a : Nat) : exp2q c a < 2 ^ c.t := red_lt h _

section
variable {c : Config} (h : Admitted c) (hw : WholeBits c 1)
include h hw

/-- R223: q = ln 2 times the fraction is below 1.0, and the unit's product gives it exactly. -/
theorem mul_ln2_eq {fr : Nat} (hfr : fr < 2 ^ c.f) :
    mul c (cf c ln2Const) fr = cfq c ln2Const * fr / 2 ^ c.f ∧ cfq c ln2Const * fr / 2 ^ c.f < 2 ^ c.f := by
  have hmul := mul_below_one h hw (cf_ln2_lt h).le hfr
  have hlt := taylorScale_lt h ((expFormat_iff c).mpr hw) hfr
  rw [hmul] at hlt
  rw [hmul, ← cf_eq_cfq h]
  exact ⟨rfl, hlt⟩

theorem taylorSum_eq {fr : Nat} (hfr : fr < 2 ^ c.f) :
    taylorSum c fr = taylorq c (cfq c ln2Const * fr / 2 ^ c.f) (c.f + 2) := by
  obtain ⟨hmul, hq⟩ := mul_ln2_eq h hw hfr
  rw [taylorSum, hmul, one_eq_two_pow_f h hw]
  exact (taylorLoop_eq h hw hq _ 0).trans (by rw [Nat.zero_add])

theorem exp2Product_eq (a : Nat) : exp2Product c a = exp2q c a := by
  have hfr : a % 2 ^ c.f < 2 ^ c.f := Nat.mod_lt _ (by positivity)
  obtain ⟨-, hq⟩ := mul_ln2_eq h hw hfr
  rw [exp2Product, Nat.and_two_pow_sub_one_eq_mod, intPower_eq h, taylorSum_eq h hw hfr,
    mul_eq_mulq h (red_lt h _) (taylorq_lt h hw hq _)]
  rfl

variable {x : Nat} (hx : x < 2 ^ c.t)
include hx

theorem exp2Core_nonneg (hn : 0 ≤ tv c x) : exp2Core c x = .ok (exp2q c x) := by
  rw [exp2Core, isNeg_eq_tv hx (admitted_t_pos h), if_neg (by simpa using hn), exp2Product_eq h hw]

theorem exp2Core_neg (hn : tv c x < 0) :
    exp2Core c x = div c (2 ^ c.f) (exp2q c (red c (-x))) := by
  rw [exp2Core, isNeg_eq_tv hx (admitted_t_pos h), if_pos (decide_eq_true hn), exp2Product_eq h hw, neg,
    reduce_eq_red h, zero_sub, one_eq_two_pow_f h hw]

end

/-- R218: an elementary command that ends in exp2 of a raw value. -/
theorem endsAsExp2_of_okResult {i : Instr} {s : State} {rd : Reg} (h : Admitted s.cfg) (hw : WholeBits s.cfg 1)
    {x : Nat} (hx : x < 2 ^ s.cfg.t) (he : exec i s = conclude i s (okResult rd (exp2Core s.cfg x))) :
    EndsAsExp2 i s rd x := by
  refine ⟨fun hn => ?_, fun hn h0 => ?_, fun hn h0 => ?_⟩
  · exact completes_of_okResult h he (exp2Core_nonneg h hw hx hn)
  · refine completes_of_okResult h he ?_
    rw [exp2Core_neg h hw hx hn, div_eq_divq h (two_pow_f_lt hw) (exp2q_lt h _) h0]
  · refine faults_of_okResult h he ?_
    rw [exp2Core_neg h hw hx hn, h0, div_zero h]

/-- R219, R220: a command that ends in exp2 of its operand scaled by an internal constant. -/
theorem endsAsExp2_scaled {i : Instr} {s : State} {rd a : Reg} (h : Admitted s.cfg) (hw : WholeBits s.cfg 1)
    {d : Word} (he : exec i s = conclude i s (okResult rd (exp2Core s.cfg (mul s.cfg (cf s.cfg d) (raw s a))))) :
    EndsAsExp2 i s rd (mulq s.cfg (cfq s.cfg d) (raw s a)) := by
  rw [mul_eq_mulq h (cf_lt _ _) (raw_lt s a), cf_eq_cfq h] at he
  exact endsAsExp2_of_okResult h hw (mulq_lt h _ _) he

/-- Settles O54: `exp2Core` of the operand itself. -/
theorem fxexp2IsTheTaylorProduct : Obligations.Fxexp2IsTheTaylorProduct := by
  intro s rd a h hw
  exact endsAsExp2_of_okResult h hw (raw_lt s a) (exec_fxexp2 h rd a ((expFormat_iff _).mpr hw))

/-- Settles O55: `exp2Core` of the scaled operand, by the model's patterns of log2 e and log2 10. -/
theorem fxexpAndFxexp10ScaleThenExp2 : Obligations.FxexpAndFxexp10ScaleThenExp2 := by
  intro s rd a h
  refine ⟨fun hw => ?_, fun hw => ?_⟩
  · exact endsAsExp2_scaled h hw (exec_fxexp h rd a ((expFormat_iff _).mpr hw))
  · exact endsAsExp2_scaled h (wholeBits_mono one_le_two hw) (exec_fxexp10 h rd a ((exp10Format_iff _).mpr hw))

/-- Settles O56: of a positive base the logarithm carries no error, and FXPOW goes on to exp2 of the product. -/
theorem fxpowIsExp2OfTheProduct : Obligations.FxpowIsExp2OfTheProduct := by
  intro s rd a b h hw hpos
  have he := exec_fxpow h rd a b ((logFormat_iff _).mpr hw)
  rw [log2Core_pos h hw (raw_lt s a) hpos, afterLog_ok, mul_eq_mulq h (raw_lt s b) (red_lt h _)] at he
  exact endsAsExp2_of_okResult h (wholeBits_mono one_le_two hw) (mulq_lt h _ _) he

end Sys2Proof.Proofs
end

section
/-! PROOFS. The arc-cosine (43_elementary.md R222): inside (-1, 1) the root of 1 - |x| exists, at the ends it is the
root of zero, and outside it is the root of a negative value. -/

namespace Sys2Proof.Proofs

open Sys2Proof.Machine Sys2Proof.Safety Sys2Proof.Spec Sys2Proof.Laws

/-! ## The polynomial -/

section
variable {c : Config} (h : Admitted c) {ax : Nat} (hax : ax < 2 ^ c.t)
include h hax

theorem horner_eq {a : Nat} (ha : a < 2 ^ c.t) (d : Word) :
    add c (mul c a ax) (cf c d) = addq c (mulq c a ax) (cfq c d) := by
  rw [mul_eq_mulq h ha hax, add_eq_addq h (mulq_lt h _ _) (cf_lt _ _), cf_eq_cfq h]

theorem acosPoly_eq : acosPoly c ax = acosq c ax := by
  have hlt (a : Nat) (d : Word) : addq c (mulq c a ax) (cfq c d) < 2 ^ c.t :=
    addq_lt h (mulq_lt h _ _) (cfq_lt h _)
  rw [acosPoly, horner_eq h hax (cf_lt _ _), horner_eq h hax (hlt _ _), horner_eq h hax (hlt _ _), cf_eq_cfq h]
  rfl

theorem acosq_lt : acosq c ax < 2 ^ c.t := acosPoly_eq h hax ▸ add_lt _ _ _

end

/-! ## The core -/

/-- R212: no iterate of the root inside (-1, 1) is zero, since the loop comes to its end. -/
theorem sqrtCore_inside {c : Config} (h : Admitted c) (hs : c.s = .signed) (hf : 1 ≤ c.f) (hw : WholeBits c 2)
    {r : Nat} (h1 : 1 ≤ r) (hr : r ≤ 2 ^ c.f) : sqrtCore c r = .ok (newton c r c.sqrtIterMax) := by
  have hw1 := wholeBits_mono one_le_two hw
  obtain ⟨-, hwhole⟩ := logFormat_spec ((logFormat_iff c).mpr hw)
  have hsmall : 2 * r < 2 ^ c.t := by
    have hpow : 2 * 2 ^ c.f < 2 ^ c.t := by
      rw [← pow_succ']
      exact Nat.pow_lt_pow_right one_lt_two (by have := hwhole hs; omega)
    omega
  have hrt : r < 2 ^ c.t := by omega
  have hpos : 0 < tv c r := by
    rw [tv_of_small hsmall]
    exact_mod_cast h1
  refine sqrtCore_runs h hrt hpos hf hw1 ?_
  by_contra hstop
  obtain ⟨v, -, hv⟩ := newtonLoop_ok h hs hf (hwhole hs) h1 hr c.sqrtIterMax r (.inl rfl)
  have hfault := sqrtCore_stops h hrt hpos hf hw1 hstop
  rw [sqrtCore_pos h hrt hpos, newton, hv] at hfault
  cases hfault

/-- The radicand 1 - |x|. -/
def radicand (c : Config) (x : Nat) : Nat := sub c (one c.toFormat) (absVal c x)

theorem acosCore_of_fault {c : Config} {x : Nat} {e : Cause} (hroot : sqrtCore c (radicand c x) = .error e) :
    acosCore c x = .error e := by
  unfold radicand absVal at hroot
  simp [acosCore, hroot]

/-- What FXACOS gives for the root `r` of 1 - |x| (R222). -/
def mirrored (c : Config) (x r : Nat) : Nat :=
  if tv c x < 0 then red c (cfq c c.acosPi - (mulq c (acosq c (tv c x).natAbs) r : Nat))
  else mulq c (acosq c (tv c x).natAbs) r

section
variable {c : Config} (h : Admitted c) (hs : c.s = .signed) (hf : 1 ≤ c.f) (hw : WholeBits c 2) {x : Nat}
  (hx : x < 2 ^ c.t)
include h hs hx

theorem acosCore_of_root {r : Nat} (hr : r < 2 ^ c.t) (hroot : sqrtCore c (radicand c x) = .ok r) :
    acosCore c x = .ok (mirrored c x r) := by
  have hcore : acosCore c x = .ok (if isNeg c.toFormat x = true
      then sub c (cf c c.acosPi) (mul c (acosPoly c (absVal c x)) r) else mul c (acosPoly c (absVal c x)) r) := by
    unfold radicand absVal at hroot
    simp [acosCore, hroot, absVal]
  have hax := tv_natAbs_lt h hs hx
  rw [hcore, absVal_eq_natAbs h hs hx, acosPoly_eq h hax, mul_eq_mulq h (acosq_lt h hax) hr, cf_eq_cfq h, sub,
    reduce_eq_red h, isNeg_eq_tv hx (admitted_t_pos h), mirrored]
  simp only [decide_eq_true_iff]

include hw

theorem radicand_eq_red : radicand c x = red c (2 ^ c.f - (tv c x).natAbs) := by
  rw [radicand, sub, absVal_eq_natAbs h hs hx, one_eq_two_pow_f h (wholeBits_mono one_le_two hw), reduce_eq_red h]
  push_cast
  rfl

theorem radicand_inside (hin : (tv c x).natAbs ≤ 2 ^ c.f) : radicand c x = 2 ^ c.f - (tv c x).natAbs := by
  have hone := two_pow_f_lt (wholeBits_mono one_le_two hw)
  have hcast : (2 : Int) ^ c.f - (tv c x).natAbs = (2 ^ c.f - (tv c x).natAbs : Nat) := by
    rw [Nat.cast_sub hin]
    push_cast
    rfl
  rw [radicand_eq_red h hs hw hx, hcast, red_natCast h (by omega)]

theorem acosCore_outside (hout : 2 ^ c.f < (tv c x).natAbs) : acosCore c x = .error .sqrtNeg := by
  have hle := tv_natAbs_le_half h hs hx
  zify at hout hle
  have hone : (0 : Int) < 2 ^ c.f := by positivity
  apply acosCore_of_fault
  rw [radicand_eq_red h hs hw hx]
  refine sqrtCore_neg h (red_lt h _) ?_
  rw [Int.natCast_natAbs, tv_red_of_range h hs (by omega) (by omega)]
  omega

theorem radicand_at_one (hone : (tv c x).natAbs = 2 ^ c.f) : radicand c x = 0 := by
  rw [radicand_inside h hs hw hx hone.le, hone, Nat.sub_self]

theorem acosCore_inside (hf : 1 ≤ c.f) (hin : (tv c x).natAbs < 2 ^ c.f) :
    acosCore c x = .ok (mirrored c x (newton c (2 ^ c.f - (tv c x).natAbs) c.sqrtIterMax)) := by
  have hrad := radicand_inside h hs hw hx hin.le
  refine acosCore_of_root h hs hx (newton_lt h (hrad ▸ sub_lt _ _ _) _) ?_
  rw [hrad]
  exact sqrtCore_inside h hs hf hw (by omega) (by omega)

theorem acosCore_guarded_one (hone : (tv c x).natAbs = 2 ^ c.f) (hg : c.sqrtZeroGuard = true) :
    acosCore c x = .ok (if tv c x < 0 then cfq c c.acosPi else 0) := by
  rw [acosCore_of_root h hs hx (Nat.two_pow_pos _) (radicand_at_one h hs hw hx hone ▸ sqrtCore_guarded_zero h hg),
    mirrored, mulq_zero h, Nat.cast_zero, sub_zero, red_natCast h (cfq_lt h _)]

theorem acosCore_unguarded_one (hone : (tv c x).natAbs = 2 ^ c.f) (hg : c.sqrtZeroGuard = false) :
    acosCore c x = .error .divZero :=
  acosCore_of_fault (radicand_at_one h hs hw hx hone ▸ sqrtCore_unguarded_zero h hg)

end

/-- Settles O57: the radicand is 1 - |x| itself up to |x| = 1, and negative beyond. -/
theorem fxacosIsThePolynomialTimesTheRoot : Obligations.FxacosIsThePolynomialTimesTheRoot := by
  intro s rd a h hs hf hw
  have he := exec_fxacos h rd a ((acosFormat_iff _).mpr ⟨hs, hf, hw⟩)
  have hx := raw_lt s a
  rw [Int.abs_eq_natAbs, show (2 : Int) ^ s.cfg.f = (2 ^ s.cfg.f : Nat) by push_cast; rfl, Nat.cast_lt, Nat.cast_inj,
    Nat.cast_lt]
  refine ⟨fun hin => ?_, fun hone hg => ?_, fun hone hg => ?_, fun hout => ?_⟩
  · exact completes_of_okResult h he (acosCore_inside h hs hw hx hf hin)
  · have hc := completes_of_okResult h he (acosCore_guarded_one h hs hw hx hone hg)
    rwa [apply_ite (BitVec.ofNat 64)] at hc
  · exact faults_of_okResult h he (acosCore_unguarded_one h hs hw hx hone hg)
  · exact faults_of_okResult h he (acosCore_outside h hs hw hx hout)

end Sys2Proof.Proofs
end

section
/-! PROOFS. FXEXP2 undoes FXLOG2 on powers of two (43_elementary.md R224). -/

namespace Sys2Proof.Proofs

open Sys2Proof.Machine Sys2Proof.Safety Sys2Proof.Spec Sys2Proof.Laws

/-! ## The logarithm of a power of two -/

/-- R215: 1.0 squares to itself, so no fraction bit of its logarithm is set. -/
theorem turnerBits_one (f n : Nat) : turnerBits f n (2 ^ f) = 0 := by
  induction n with
  | zero => rfl
  | succ n ih =>
    have hlt : 2 ^ f < 2 ^ (f + 1) := Nat.pow_lt_pow_right one_lt_two f.lt_succ_self
    rw [turnerBits, Nat.mul_div_cancel _ (by positivity), if_neg hlt.not_ge, ih]

theorem log2q_two_pow {f k : Nat} (hk : f ≤ k) : log2q f (2 ^ k) = ((k - f) * 2 ^ f : Nat) := by
  have hnorm : normalized f (2 ^ k) = 2 ^ f := by
    have hscale := normalized_eq (f := f) (x := 2 ^ k) (j := k - f) (k := 0) (by rw [Nat.log2_two_pow]; omega)
    rw [← hscale, pow_zero, mul_one, Nat.pow_div (by omega) two_pos, Nat.sub_sub_self hk]
  rw [log2q_eq_normalized, hnorm, turnerBits_one, Nat.log2_two_pow, ← Nat.cast_sub hk]
  push_cast
  ring

/-- The logarithm of 2^i is smaller than 2^i. -/
theorem log_lt_two_pow {f k : Nat} (hk : f ≤ k) : (k - f) * 2 ^ f < 2 ^ k := by
  calc (k - f) * 2 ^ f < 2 ^ (k - f) * 2 ^ f := Nat.mul_lt_mul_of_pos_right Nat.lt_two_pow_self (by positivity)
    _ = 2 ^ k := by rw [← pow_add, Nat.sub_add_cancel hk]

/-! ## The exponential of a whole number -/

section
variable {c : Config} (h : Admitted c) (hw : WholeBits c 1)
include h hw

/-- R218: without a fraction the series is its first term. -/
theorem taylorq_no_fraction (n : Nat) : taylorq c 0 n = 2 ^ c.f := by
  have hfirst : taylorTerm c.f 0 1 = 0 := by simp [taylorTerm]
  have hsum := taylorq_of_term_zero h hw (by positivity : 0 < 2 ^ c.f) (n := 0) hfirst n
  rwa [Nat.zero_add] at hsum

theorem exp2q_whole {i : Nat} (hi : 2 ^ (c.f + i) < 2 ^ c.t) : exp2q c (i * 2 ^ c.f) = 2 ^ (c.f + i) := by
  have hpow : red c (2 ^ (c.f + i)) = 2 ^ (c.f + i) := by exact_mod_cast red_natCast h hi
  rw [exp2q, Nat.mul_div_cancel _ (by positivity), Nat.mul_mod_left, mul_zero, Nat.zero_div, hpow,
    taylorq_no_fraction h hw, mulq_one h hw hi]

/-- R224: the exponential of the logarithm of a power of two from 1.0 up. -/
theorem exp2Core_log_two_pow {k : Nat} (hk : c.f ≤ k) (hlt : 2 ^ k < 2 ^ c.t) (hpos : 0 < tv c (2 ^ k)) :
    exp2Core c ((k - c.f) * 2 ^ c.f) = .ok (2 ^ k) := by
  have hloglt := log_lt_two_pow hk
  have hfk : c.f + (k - c.f) = k := Nat.add_sub_cancel' hk
  have hnonneg : 0 ≤ tv c ((k - c.f) * 2 ^ c.f) := by
    rw [tv_of_le hloglt.le hlt hpos]
    positivity
  rw [exp2Core_nonneg h hw (hloglt.trans hlt) hnonneg, exp2q_whole h hw (by rwa [hfk]), hfk]

end

/-! ## The statements -/

theorem raw_commit_wrErr {s : State} (h : Admitted s.cfg) (rd : Reg) {v : Nat} (hv : v < 2 ^ s.cfg.t)
    (e : ErrRecord) : raw (commit (wrErr rd v e) s) rd = v := by
  have hget : (commit (wrErr rd v e) s).x.get rd = BitVec.ofNat 64 v := bank_get_set_same _ _ _
  rw [raw, hget, toNat_ofNat_raw h hv, commit_cfg, Nat.mod_eq_of_lt hv]

/-- Settles O58: the logarithm of 2^k is the whole number k - F, in units of 2^F and still positive, and the
exponential of a whole number is exact. -/
theorem exp2InvertsLog2OnPowersOfTwo : Obligations.Exp2InvertsLog2OnPowersOfTwo := by
  intro s rd a rd' k h hw hk hraw hpos
  have hw1 := wholeBits_mono one_le_two hw
  have hlt : 2 ^ k < 2 ^ s.cfg.t := hraw ▸ raw_lt s a
  have hloglt := log_lt_two_pow hk
  have hlog := exec_fxlog2_pos h hw hpos rd
  rw [hraw] at hpos hlog
  rw [log2q_two_pow hk, red_natCast h (hloglt.trans hlt), conclude_ok h] at hlog
  refine ⟨_, hlog, ?_⟩
  set t := commit (wrErr rd ((k - s.cfg.f) * 2 ^ s.cfg.f) ErrRecord.ok) s
  have hraw' : raw t rd = (k - s.cfg.f) * 2 ^ s.cfg.f := raw_commit_wrErr h rd (hloglt.trans hlt) _
  have hexp := exec_fxexp2 (s := t) h rd' rd ((expFormat_iff _).mpr hw1)
  rw [hraw'] at hexp
  exact completes_of_okResult (s := t) h hexp (exp2Core_log_two_pow h hw1 hk hlt hpos)

/-- In the unit `c`, FXLOG2 of the first word gives the second, and FXEXP2 of that the first, with the ok record. -/
abbrev InverseAt (c : Config) (xl : Word × Word) : Prop :=
  resultOf c (.fxlog2 .x2 .x1) .x2 xl.1 = some (xl.2, 0x80#64) ∧
    resultOf c (.fxexp2 .x2 .x1) .x2 xl.2 = some (xl.1, 0x80#64)

theorem forall_mem_four {α : Type} {P : α → Prop} {a b c d : α} (ha : P a) (hb : P b) (hc : P c) (hd : P d) :
    ∀ x ∈ [a, b, c, d], P x := by
  simp [ha, hb, hc, hd]

theorem forall_policies {P : Policy → Prop} (hwrap : P .wrap) (hsat : P .sat) :
    ∀ p ∈ [Policy.wrap, Policy.sat], P p := by
  simp [hwrap, hsat]

/-- Settles O59: each unit evaluates on R224's values. In u16.16 the wrapped logarithm has the integer part 65535,
whose power of two is out of the format, so that FXEXP2 gives 0. -/
theorem inverseLawHoldsForTheSpecValues : Obligations.InverseLawHoldsForTheSpecValues := by
  refine ⟨forall_policies ?_ ?_, ?_, forall_policies ⟨0, ?_⟩ ⟨0, ?_⟩⟩
  · exact forall_mem_four (P := InverseAt (unitOf 32 32 16 .wrap)) (by decide) (by decide) (by decide) (by decide)
  · exact forall_mem_four (P := InverseAt (unitOf 32 32 16 .sat)) (by decide) (by decide) (by decide) (by decide)
  · exact forall_mem_four (P := InverseAt (unitOf 16 16 8 .wrap)) (by decide) (by decide) (by decide) (by decide)
  · exact ⟨by decide, by decide, by decide⟩
  · exact ⟨by decide, by decide, by decide⟩

end Sys2Proof.Proofs
end

section
/-! PROOFS. Faults (60_exceptions.md): what the entry to one records (R271, R272), how FSR reads (10_state.md R44),
and what a HALTED unit keeps until reset (R273). -/

namespace Sys2Proof.Proofs

open Sys2Proof.Machine Sys2Proof.Safety Sys2Proof.Spec Sys2Proof.Laws

/-! ## Fault entry -/

/-- R272, R304: a running word completes with one write set, or enters a fault with that very word recorded:
a legal word is its command's encoding, and an illegal one is recorded as issued. -/
theorem runCommand_completes_or_faults {s : State} (h : Admitted s.cfg) (w : CmdWord) :
    (∃ ws, runCommand w s = .next (commit ws s)) ∨ ∃ c, runCommand w s = .next (takeFault c w s) := by
  rcases runCommand_cases h w with ⟨i, ws, -, he⟩ | ⟨i, c, hd, he⟩ | ⟨e, -, he⟩
  · exact .inl ⟨ws, he⟩
  · obtain ⟨hw, -⟩ := decodedWordIsTheEncoding _ _ _ hd
    rw [hw] at he
    exact .inr ⟨c, he⟩
  · exact .inr ⟨.illegalOp, he⟩

/-- R44: FSR of a recorded fault as the sum of its fields. -/
theorem fsrWord_fits (r : FaultRecord) :
    Fits (fsrWord (some r)) 64 (1 + (causeCode r.cause).toNat * 2 ^ 8 + r.cmd.toNat * 2 ^ 32) := by
  have hfault : Fits 1#64 1 1 := ⟨rfl, by norm_num⟩
  exact hfault.or_field.or_field

/-- Settles O8: a completed command is back in IDLE, so that a word which leaves the unit HALTED entered a fault;
FSR is the sum of its fields, with R271's code for each cause. -/
theorem faultEntryIsPrecise : Obligations.FaultEntryIsPrecise := by
  refine ⟨?_, ?_, rfl⟩
  · intro s t w rest ha hu hp hstep hhalt
    rw [step_issue_idle ha hp hu] at hstep
    rcases runCommand_completes_or_faults (s := { s with port := rest, unit := .busy w }) ha w with
      ⟨ws, he⟩ | ⟨c, he⟩ <;> rw [he] at hstep <;> cases hstep
    · cases hhalt
    · exact ⟨c, rfl⟩
  · intro c w
    obtain ⟨hsum, -⟩ := fsrWord_fits ⟨c, w⟩
    cases c <;> exact hsum

/-! ## A HALTED unit -/

/-- Settles O10: a HALTED unit serves the port, and serving an Issue there only drops it. -/
theorem haltedDiscardsIssue : Obligations.HaltedDiscardsIssue :=
  fun _ _ _ ha hu hp => step_issue_halted ha hp hu

/-- R273: no host operation but Reset changes STATE, FSR, ERR or CFG of a HALTED unit. -/
theorem hostOp_halted_keeps_status {op : HostOp} {s t : State} (hu : s.unit = .halted) (hop : op ≠ .reset)
    (h : hostOp op s = .next t) :
    t.unit = .halted ∧ t.fsr = s.fsr ∧ t.err = s.err ∧ t.cfg = s.cfg := by
  cases op with
  | hostWrite idx v =>
    rcases hostWrite_cases idx v s with ⟨r, -, he⟩ | ⟨-, -, he⟩ | ⟨-, -, he⟩ <;>
      rw [hostOp, he] at h <;> cases h <;> exact ⟨hu, rfl, rfl, rfl⟩
  | hostRead idx =>
    rcases hostRead_cases idx s with ⟨v, -, he⟩ | ⟨-, he⟩ <;>
      rw [hostOp, he] at h <;> cases h
    exact ⟨hu, rfl, rfl, rfl⟩
  | issue w =>
    rw [hostOp, issue, hu] at h
    cases h
    exact ⟨hu, rfl, rfl, rfl⟩
  | reset => exact absurd rfl hop

/-- Settles O11: a HALTED unit waits, or serves the host operation at the head of the port. -/
theorem haltedLastsUntilReset : Obligations.HaltedLastsUntilReset := by
  intro s t hu hp hstep
  have ha := admitted_of_step hstep
  have hbusy : ∀ w, s.unit ≠ .busy w := by simp [hu]
  cases hq : s.port with
  | nil =>
    rw [step_empty ha hbusy hq] at hstep
    cases hstep
    exact ⟨hu, rfl, rfl, rfl⟩
  | cons op rest =>
    have hop : op ≠ .reset := by simpa [hq] using hp
    rw [step_hostOp ha hbusy hq] at hstep
    exact hostOp_halted_keeps_status (s := { s with port := rest }) hu hop hstep

end Sys2Proof.Proofs
end

section
/-! PROOFS. What a command's effect depends on (70_reset_and_hazards.md R304, 10_state.md R48): its result is the same
in every state with the same configuration and operands. -/

namespace Sys2Proof.Proofs

open Sys2Proof.Machine Sys2Proof.Safety Sys2Proof.Spec Sys2Proof.Laws

/-! ## The operands of a command -/

/-- The two states hold the same configuration and the same values of the registers that the command reads. -/
def SameOperands (i : Instr) (s s' : State) : Prop :=
  s.cfg = s'.cfg ∧ ∀ r ∈ reads i, s.x.get r = s'.x.get r

/-- Every form of operand (10_state.md R34, R45, 40_representation.md R118) that the command reads is the same. -/
theorem operands_eq_of_sameOperands {i : Instr} {s s' : State} (h : SameOperands i s s') :
    ∀ r ∈ reads i, opnd s r = opnd s' r ∧ intOpnd s r = intOpnd s' r ∧ floatOpnd s r = floatOpnd s' r ∧
      ∀ d, foreignOpnd s r d = foreignOpnd s' r d := by
  intro r hr
  obtain ⟨hcfg, hx⟩ := h
  simp [opnd, intOpnd, floatOpnd, foreignOpnd, hcfg, hx r hr]

/-- A state with the given configuration and the given values in X0 to X7. -/
def operandState (c : Config) (vals : Reg → Word) : State :=
  { State.resetOf c with
    x := ⟨vals .x0, vals .x1, vals .x2, vals .x3, vals .x4, vals .x5, vals .x6, vals .x7⟩ }

theorem operandState_get (c : Config) (vals : Reg → Word) (r : Reg) :
    (operandState c vals).x.get r = vals r := by
  cases r <;> rfl

/-! ## The write set of a command -/

/-- R304, R42: the write set names the command's destination, and holds a record for ERR exactly if the command
is elementary. -/
def IsWriteSetOf (i : Instr) (ws : Writes) : Prop :=
  ws.rd = destination i ∧ (ws.err.isSome = true ↔ Elementary i)

theorem isWriteSetOf_plain {i : Instr} {ws : Writes} (hi : ¬Elementary i) (hrd : ws.rd = destination i)
    (herr : ws.err = none) : IsWriteSetOf i ws :=
  ⟨hrd, by simp [herr, hi]⟩

theorem isWriteSetOf_wrErr {i : Instr} (hi : Elementary i) (n : Nat) (e : ErrRecord) :
    IsWriteSetOf i (wrErr (destination i) n e) :=
  ⟨rfl, by simp [wrErr, hi]⟩

/-- Every write set that the result can hold meets `p`. -/
def EveryWriteSet (p : Writes → Prop) (r : Except Cause Writes) : Prop := ∀ ws, r = .ok ws → p ws

section
variable {p : Writes → Prop}

theorem everyWriteSet_ok {ws : Writes} (h : p ws) : EveryWriteSet p (.ok ws) := by
  rintro _ ⟨⟩
  exact h

theorem everyWriteSet_error (c : Cause) : EveryWriteSet p (.error c) := nofun

theorem everyWriteSet_map {f : Nat → Writes} (h : ∀ n, p (f n)) (v : Except Cause Nat) :
    EveryWriteSet p (v.map f) := by
  cases v with
  | ok n => exact everyWriteSet_ok (h n)
  | error c => exact everyWriteSet_error c

theorem everyWriteSet_ite {q : Prop} [Decidable q] {r r' : Except Cause Writes} (h : EveryWriteSet p r)
    (h' : EveryWriteSet p r') : EveryWriteSet p (if q then r else r') := by
  split
  · exact h
  · exact h'

theorem everyWriteSet_requireFormat {r : Except Cause Writes} (h : EveryWriteSet p r) (ok : Bool) :
    EveryWriteSet p (requireFormat ok r) :=
  everyWriteSet_ite h (everyWriteSet_error _)

theorem everyWriteSet_okResult {rd : Reg} (h : ∀ n e, p (wrErr rd n e)) (v : Except Cause Nat) :
    EveryWriteSet p (okResult rd v) := by
  cases v with
  | ok n => exact everyWriteSet_ok (h n _)
  | error c => exact everyWriteSet_error c

theorem everyWriteSet_afterLog {rd : Reg} (h : ∀ n e, p (wrErr rd n e)) (l : Nat × ErrRecord)
    (after : Nat → Except Cause Nat) : EveryWriteSet p (afterLog rd l after) :=
  everyWriteSet_ite (everyWriteSet_okResult h _) (everyWriteSet_ok (h _ _))

end

/-! ## Every command -/

/-- R304: every command has a result that its configuration and operands determine, and that holds no write set
but one of the command. -/
theorem exists_result (i : Instr) : ∃ res : State → Except Cause Writes,
    (∀ s, exec i s = conclude i s (res s)) ∧ (∀ s s', SameOperands i s s' → res s = res s') ∧
      ∀ s, EveryWriteSet (IsWriteSetOf i) (res s) := by
  have recorded := isWriteSetOf_wrErr (i := i)
  cases i with (
    refine ⟨_, fun _ => by rw [exec]; rfl, fun s s' h => ?_, fun s => ?_⟩
    · have hops := operands_eq_of_sameOperands h
      obtain ⟨hcfg, -⟩ := h
      simp only [reads, List.forall_mem_cons] at hops
      simp only [hcfg, hops])
  | fxraw | fxfromi | fxtoi | fxtof | fxispos | fxisneg | fxisnneg | fxiszero | fxeq | fxne | fxlt | fxle
  | fxadd | fxsub | fxmul | fxneg | fxabs => exact everyWriteSet_ok (isWriteSetOf_plain id rfl rfl)
  | fxfromf | fxidiv | fxdivi | fxdiv | fxrcp => exact everyWriteSet_map (fun _ => isWriteSetOf_plain id rfl rfl) _
  | fxcvtin | fxcvtout =>
    exact everyWriteSet_ite (everyWriteSet_ok (isWriteSetOf_plain id rfl rfl)) (everyWriteSet_error _)
  | fxsqrt | fxexp2 | fxexp | fxexp10 | fxacos =>
    exact everyWriteSet_requireFormat (everyWriteSet_okResult (recorded trivial) _) _
  | fxlog2 => exact everyWriteSet_requireFormat (everyWriteSet_ok (recorded trivial _ _)) _
  | fxln | fxlog10 | fxpow =>
    exact everyWriteSet_requireFormat (everyWriteSet_afterLog (recorded trivial) _ _) _

/-- Settles O20: the effect is the command's result in any one state with those operands. -/
theorem effectDependsOnNamedRegistersOnly : Obligations.EffectDependsOnNamedRegistersOnly := by
  intro i c vals ha
  obtain ⟨res, hexec, hsame, hwrites⟩ := exists_result i
  have hres : ∀ s : State, s.cfg = c → (∀ r ∈ reads i, s.x.get r = vals r) →
      exec i s = conclude i s (res (operandState c vals)) := by
    intro s hc hx
    have hs : SameOperands i s (operandState c vals) :=
      ⟨hc, fun r hr => (hx r hr).trans (operandState_get c vals r).symm⟩
    rw [hexec, hsame s _ hs]
  cases hr : res (operandState c vals) with
  | ok ws =>
    obtain ⟨hrd, herr⟩ := hwrites _ ws hr
    refine .inl ⟨ws.val, ws.err, herr, fun s hc hx => ?_⟩
    rw [hres s hc hx, hr, conclude_ok (hc ▸ ha), ← hrd]
    rfl
  | error k =>
    refine .inr ⟨k, fun s hc hx => ?_⟩
    rw [hres s hc hx, hr, conclude_error (hc ▸ ha)]
    rfl

end Sys2Proof.Proofs
end

section
/-! PROOFS. The three operations of the host that change the unit (70_reset_and_hazards.md): Issue of a legal word
(R304), HostWrite of an operand register (R305) and Reset (R300). -/

namespace Sys2Proof.Proofs

open Sys2Proof.Machine Sys2Proof.Safety Sys2Proof.Spec Sys2Proof.Laws

/-! ## Issue -/

/-- R304: running a word that decodes is executing its command. -/
theorem runCommand_of_decode {s : State} {w : CmdWord} {i : Instr} (h : decode s.cfg w = .ok i) :
    runCommand w s = exec i s := by
  rw [runCommand, h]

/-- Settles O6: an IDLE unit runs the word it is issued, and running it is executing the command it decodes to. -/
theorem stepRunsTheDecodedCommand : Obligations.StepRunsTheDecodedCommand := by
  intro s w rest i ha hu hp hd
  rw [step_issue_idle ha hp hu]
  exact runCommand_of_decode (s := { s with port := rest, unit := .busy w }) hd

/-- Settles O9: the step executes the command, whose effect is one write set or one fault (O20), and a word that
decodes is the encoding that a fault records. -/
theorem issueCompletesOrFaults : Obligations.IssueCompletesOrFaults := by
  intro s w rest i ha hu hp hd
  rw [stepRunsTheDecodedCommand s w rest i ha hu hp hd]
  obtain ⟨hw, -⟩ := decodedWordIsTheEncoding _ _ _ hd
  rcases effectDependsOnNamedRegistersOnly i s.cfg s.x.get ha with ⟨v, e, -, heffect⟩ | ⟨k, heffect⟩
  · exact .inl ⟨v, e.getD s.err, heffect _ rfl fun _ _ => rfl⟩
  · exact .inr ⟨k, hw ▸ heffect { s with port := rest, unit := .busy w } rfl fun _ _ => rfl⟩

/-! ## Reset -/

/-- R300, R42: the ok record reads as VALID alone. -/
theorem errWord_ok : errWord ErrRecord.ok = 0x80#64 := by
  decide

/-- Settles O15: a reset at the head of the port is served in every STATE. -/
theorem resetGivesTheSpecValues : Obligations.ResetGivesTheSpecValues := by
  intro s rest ha hp
  exact ⟨_, step_reset ha hp, errWord_ok, rfl, rfl, rfl, fun r => bank_get_all false r, rfl⟩

/-! ## HostWrite -/

/-- R305, R51: a HostWrite of an operand register's index writes that register. -/
theorem hostWrite_indexOf (r : Reg) (v : Word) (s : State) :
    hostWrite (indexOf r) v s = .next (writeX r v s) := by
  simp only [hostWrite, (hostReg_eq_some_iff _ r).mpr rfl]

/-- Settles O17: outside BUSY the port is served, and the write sets one register of each bank. -/
theorem hostWriteSetsTheOperandRegister : Obligations.HostWriteSetsTheOperandRegister := by
  intro s r v rest ha hu hp
  have hstep : step s = .next (writeX r v { s with port := rest }) := by
    rw [step_hostOp ha hu hp, hostOp, hostWrite_indexOf]
  exact ⟨_, hstep, bank_get_set_same _ _ _, bank_get_set_same _ _ _,
    fun q hq => ⟨bank_get_set_of_ne _ _ hq, bank_get_set_of_ne _ _ hq⟩, rfl, rfl, rfl, rfl, rfl, rfl⟩

end Sys2Proof.Proofs
end
